-- ==== Sys2Proof/Word.lean ====
section
/-! DEFINITION. The word types of PMSEQ (spec/00_scope.md R7, R11): 32-bit control words, the 8-usable-bit byte of a
port, a bit position inside that byte. All values are unsigned; bit 0 is the least significant. -/

namespace Sys2Proof

/-- A 32-bit control word (R7 `REG_WIDTH`). -/
abbrev Word := BitVec 32

/-- The usable byte of a port register (R7 `PORT_WIDTH`). -/
abbrev Byte := BitVec 8

/-- A bit position inside a port's byte, 0 to 7 (R29). -/
abbrev Bit := Fin 8

end Sys2Proof
end

