-- ==== Sys2Proof/Syntax.lean ====
section
/-! DEFINITION. The eleven commands of PMSEQ (spec/30_encoding.md R92), one constructor per row of
spec/opcode_table.json. A constructor carries every field of the pair (CMD, ARG) that the format leaves free, the
ignored `ARG` of the formats Z, P and PV among them: it is latched at Issue (R130) although no rule reads it (R121). -/

namespace Sys2Proof

/-- A pin direction (R29); the operand coding is R100. -/
inductive Dir where
  | input
  | output
  deriving DecidableEq, Repr

/-- A pin level (R29); the operand coding is R100. -/
inductive Level where
  | low
  | high
  deriving DecidableEq, Repr

/-- The sense of the `DIR` register bit: 1 is an output (R32, R100). -/
def Dir.bit : Dir → Bool
  | .input => false
  | .output => true

/-- The sense of a `DATA` bit: 1 is high (R31, R100). -/
def Level.bit : Level → Bool
  | .low => false
  | .high => true

/-- One command. -/
inductive Instr where
  /-- `INIT h` (R161). -/
  | init (h : Word)
  /-- `SET_DIR pin, direction` (R172). -/
  | setDir (dir : Dir) (pin : BitVec 16) (arg : Word)
  /-- `SET_MODE pin, mode` (R173); any 8-bit mode code is an encoding (R96). -/
  | setMode (code : Byte) (pin : BitVec 16) (arg : Word)
  /-- `REFRESH_DIR` (R174). -/
  | refreshDir (arg : Word)
  /-- `READ_CH pin` (R191). -/
  | readCh (pin : BitVec 16) (arg : Word)
  /-- `WRITE_CH pin, level` (R192). -/
  | writeCh (level : Level) (pin : BitVec 16) (arg : Word)
  /-- `READ_PORT port` (R193). -/
  | readPort (port : BitVec 16) (arg : Word)
  /-- `WRITE_PORT port, value` (R194). -/
  | writePort (port : BitVec 16) (value : Word)
  /-- `READ_GROUP h` (R195). -/
  | readGroup (h : Word)
  /-- `WRITE_GROUP h, value` (R196). -/
  | writeGroup (value : BitVec 16) (h : Word)
  /-- `FLIP_CH pin` (R197). -/
  | flipCh (pin : BitVec 16) (arg : Word)
  deriving DecidableEq, Repr

/-- Written `in` or `out` (R102). -/
def Dir.asm : Dir → String
  | .input => "in"
  | .output => "out"

/-- Written `low` or `high` (R102). -/
def Level.asm : Level → String
  | .low => "low"
  | .high => "high"

/-- A mode code as R102 writes it: `gpio`, `alt(k)`, `analog`, or the number where it is no mode (R107). -/
def modeCodeAsm (code : Byte) : String :=
  if code = 0 then "gpio"
  else if code.toNat ≤ 15 then "alt(" ++ toString code.toNat ++ ")"
  else if code = 0x10 then "analog"
  else toString code.toNat

/-- The textual form of a command, operands in D0's argument order (R102). -/
def Instr.asm : Instr → String
  | .init h => "INIT " ++ toString h.toNat
  | .setDir d pin _ => "SET_DIR " ++ toString pin.toNat ++ ", " ++ d.asm
  | .setMode code pin _ => "SET_MODE " ++ toString pin.toNat ++ ", " ++ modeCodeAsm code
  | .refreshDir _ => "REFRESH_DIR"
  | .readCh pin _ => "READ_CH " ++ toString pin.toNat
  | .writeCh l pin _ => "WRITE_CH " ++ toString pin.toNat ++ ", " ++ l.asm
  | .readPort port _ => "READ_PORT " ++ toString port.toNat
  | .writePort port v => "WRITE_PORT " ++ toString port.toNat ++ ", " ++ toString v.toNat
  | .readGroup h => "READ_GROUP " ++ toString h.toNat
  | .writeGroup v h => "WRITE_GROUP " ++ toString h.toNat ++ ", " ++ toString v.toNat
  | .flipCh pin _ => "FLIP_CH " ++ toString pin.toNat

end Sys2Proof
end

