-- ==== Sys2Proof/Decode.lean ====
section
/-! DEFINITION. The command word of PMSEQ encoding v1 (spec/30_encoding.md R91 to R101, R120): a total decoder that
rejects by name, and after it the encoder. The build options are not looked at here: the decoder knows the whole map of
R92 and Machine/Sequencer.lean treats a command the build lacks as illegal (R101, R120). -/

namespace Sys2Proof

/-- `OPC = CMD[31:24]` (R91). -/
def cmdOpc (cmd : Word) : Byte := cmd.extractLsb' 24 8

/-- `VAL = CMD[23:16]` (R91). -/
def cmdVal (cmd : Word) : Byte := cmd.extractLsb' 16 8

/-- `IDX = CMD[15:0]` (R91). -/
def cmdIdx (cmd : Word) : BitVec 16 := cmd.extractLsb' 0 16

/-- `{OPC, VAL, IDX}` (R91). -/
def cmdWord (opc val : Byte) (idx : BitVec 16) : Word := opc ++ val ++ idx

/-- Why a command word is illegal (R120). -/
inductive DecodeError where
  /-- `OPC` is not in the table of R92. -/
  | unusedOpcode (opc : Byte)
  /-- A must-be-zero field of the format is not zero (R93 to R98). -/
  | mustBeZero
  /-- `VAL > 1` for `SET_DIR` or `WRITE_CH` (R96). -/
  | valueTooLarge
  deriving DecidableEq, Repr

/-- `VAL[0]` as a direction (R99, R100). -/
def dirOfVal : Byte → Option Dir
  | 0 => some .input
  | 1 => some .output
  | _ => none

/-- `VAL[0]` as a level (R99, R100). -/
def levelOfVal : Byte → Option Level
  | 0 => some .low
  | 1 => some .high
  | _ => none

/-- Formats Z and H: `CMD[23:0]` must be zero (R93, R94). -/
def decodeNoOperand (cmd : Word) (i : Instr) : Except DecodeError Instr :=
  if cmdVal cmd = 0 ∧ cmdIdx cmd = 0 then .ok i else .error .mustBeZero

/-- Formats P, PA and HV: `VAL` must be zero (R95, R97, R98). -/
def decodeIndex (cmd : Word) (i : BitVec 16 → Instr) : Except DecodeError Instr :=
  if cmdVal cmd = 0 then .ok (i (cmdIdx cmd)) else .error .mustBeZero

/-- The command of the pair `(CMD, ARG)`, told by `OPC` alone and then checked against its format (R101). -/
def decode (cmd arg : Word) : Except DecodeError Instr :=
  match cmdOpc cmd with
  | 0x01 => decodeNoOperand cmd (.init arg)
  | 0x02 =>
    match dirOfVal (cmdVal cmd) with
    | some d => .ok (.setDir d (cmdIdx cmd) arg)
    | none => .error .valueTooLarge
  | 0x03 => .ok (.setMode (cmdVal cmd) (cmdIdx cmd) arg)
  | 0x04 => decodeNoOperand cmd (.refreshDir arg)
  | 0x10 => decodeIndex cmd fun pin => .readCh pin arg
  | 0x11 =>
    match levelOfVal (cmdVal cmd) with
    | some l => .ok (.writeCh l (cmdIdx cmd) arg)
    | none => .error .valueTooLarge
  | 0x12 => decodeIndex cmd fun port => .readPort port arg
  | 0x13 => decodeIndex cmd fun port => .writePort port arg
  | 0x14 => decodeNoOperand cmd (.readGroup arg)
  | 0x15 => decodeIndex cmd fun value => .writeGroup value arg
  | 0x16 => decodeIndex cmd fun pin => .flipCh pin arg
  | opc => .error (.unusedOpcode opc)

/-- `VAL` of a direction operand (R100). -/
def valOfDir : Dir → Byte
  | .input => 0
  | .output => 1

/-- `VAL` of a level operand (R100). -/
def valOfLevel : Level → Byte
  | .low => 0
  | .high => 1

/-- The pair `(CMD, ARG)` of a command (R92 to R98). -/
def encode : Instr → Word × Word
  | .init h => (cmdWord 0x01 0 0, h)
  | .setDir d pin arg => (cmdWord 0x02 (valOfDir d) pin, arg)
  | .setMode code pin arg => (cmdWord 0x03 code pin, arg)
  | .refreshDir arg => (cmdWord 0x04 0 0, arg)
  | .readCh pin arg => (cmdWord 0x10 0 pin, arg)
  | .writeCh l pin arg => (cmdWord 0x11 (valOfLevel l) pin, arg)
  | .readPort port arg => (cmdWord 0x12 0 port, arg)
  | .writePort port value => (cmdWord 0x13 0 port, value)
  | .readGroup h => (cmdWord 0x14 0 0, h)
  | .writeGroup value h => (cmdWord 0x15 0 value, h)
  | .flipCh pin arg => (cmdWord 0x16 0 pin, arg)

/-- The command word `CMD` of a command. -/
def cmdOf (i : Instr) : Word := (encode i).1

/-- The operand word `ARG` of a command. -/
def argOf (i : Instr) : Word := (encode i).2

/-- The pair of words of an instruction numbered as spec/opcode_table.json numbers it: `CMD` is bits 31 to 0, `ARG`
the next 32 bits, and every bit from `nbits` up is 0. -/
def tableWords (nbits w : Nat) : Word × Word :=
  (BitVec.ofNat 32 (w % 2 ^ nbits), BitVec.ofNat 32 (w % 2 ^ nbits / 2 ^ 32))

/-- The instruction the decoder reads from those words; none where it rejects them. -/
def decodeTableWord (nbits w : Nat) : Option Instr :=
  match decode (tableWords nbits w).1 (tableWords nbits w).2 with
  | .ok i => some i
  | .error _ => none

end Sys2Proof
end

