-- ==== Sys2Proof/Config.lean ====
section
/-! DEFINITION. The parameters of PMSEQ (spec/00_scope.md R7 to R10, spec/92_eei_decisions.md "Open parameters") and
the one free value (R37). `NPORTS` and `NCTX` are not fields here: they are the number of ports and of contexts a state
has (Machine/State.lean). -/

namespace Sys2Proof

/-- The ten register kinds of a port (R15, R30). -/
inductive Kind where
  | data
  | dir
  | afen
  | pur
  | pdr
  | den
  | lock
  | commit
  | amsel
  | muxsel
  deriving DecidableEq, Repr

/-- Every kind, in R30's order. -/
def Kind.all : List Kind :=
  [.data, .dir, .afen, .pur, .pdr, .den, .lock, .commit, .amsel, .muxsel]

/-- The seven kinds `PROTECTED_REGS` may hold; `DATA`, `LOCK` and `COMMIT` are never in it (R10, R66). -/
def Kind.gateable : Kind → Bool
  | .data | .lock | .commit => false
  | .dir | .afen | .pur | .pdr | .den | .amsel | .muxsel => true

/-- `OFF[K]`, one fixed offset per kind, the same for every port (R53). -/
structure Offsets where
  data : Word
  dir : Word
  afen : Word
  pur : Word
  pdr : Word
  den : Word
  lock : Word
  commit : Word
  amsel : Word
  muxsel : Word
  deriving DecidableEq, Repr

/-- `OFF[K]` (R53). -/
def Offsets.get (o : Offsets) : Kind → Word
  | .data => o.data
  | .dir => o.dir
  | .afen => o.afen
  | .pur => o.pur
  | .pdr => o.pdr
  | .den => o.den
  | .lock => o.lock
  | .commit => o.commit
  | .amsel => o.amsel
  | .muxsel => o.muxsel

/-- The numeric address map (R53): `PORT_BASE[p]`, `OFF[K]`, `CLKEN_ADDR`, `ALIAS_BASE[p]`. That an address is 32 bits
wide is the model's choice (log entry 17). -/
structure AddressMap where
  portBase : List Word
  off : Offsets
  clkenAddr : Word
  aliasBase : List Word
  deriving DecidableEq, Repr

/-- The parameters of one PMSEQ. Plain data; held in State and written by no step. -/
structure Config where
  /-- `NPINS`, the number of records of every table (R8). -/
  npins : Nat
  /-- `PROTECTED`, the hardware-protected pins (R8). -/
  protectedPins : List (Nat × Bit)
  /-- `RSV_PORT` (R8). -/
  rsvPort : Nat
  /-- `RSV_LO` (R8). -/
  rsvLo : Nat
  /-- `UNLOCK_KEY` (R8). -/
  unlockKey : Word
  /-- `GUARDS` (R9). -/
  guards : Bool
  /-- `HAS_SET_MODE` (R9). -/
  hasSetMode : Bool
  /-- `HAS_FLIP` (R9). -/
  hasFlip : Bool
  /-- `REPORT_ALL` (R10). -/
  reportAll : Bool
  /-- `ATOMIC_BITOPS` (R10). -/
  atomicBitops : Bool
  /-- `PROTECTED_REGS` (R10). -/
  protectedRegs : List Kind
  /-- `ENV` (R10). -/
  env : Bool
  /-- `Tables`: a handle and the record words of its table (R10, R105). -/
  tables : List (Word × List Word)
  /-- `Groups`: a handle and its descriptor word (R10, R108). -/
  groups : List (Word × Word)
  /-- The numeric address map (R53). -/
  addr : AddressMap
  deriving DecidableEq, Repr

/-- The value the n-th read of a `LOCK` register returns: an unspecified 32-bit value, a fresh draw at each read
(R37). FREE VALUE (log entry 6): no body, nothing can be proved of it. -/
opaque Config.freeWord : Nat → Word

/-- `MODE_MAX`, the largest valid mode code (R10, R107). -/
def modeMax : Nat := 0x10

/-- `NULL`, the absent reference (R15, R109). -/
def nullHandle : Word := 0

/-- `Protected(p, b)` (R146). -/
def Config.isProtected (par : Config) (p : Nat) (b : Bit) : Bool :=
  par.protectedPins.contains (p, b)

/-- `Reserved(p, b)` (R146): four consecutive bits of one port. -/
def Config.isReserved (par : Config) (p : Nat) (b : Bit) : Bool :=
  p == par.rsvPort && decide (par.rsvLo ≤ b.val) && decide (b.val ≤ par.rsvLo + 3)

/-- Whether writes to kind `k` pass the commit gate: `k` is in `PROTECTED_REGS`, which never holds `DATA`, `LOCK` or
`COMMIT` (R66). -/
def Config.gates (par : Config) (k : Kind) : Bool :=
  k.gateable && par.protectedRegs.contains k

/-- The constraints the spec puts on the parameters (R7, R8, R10), for `nports` ports and `nctx` contexts. No meaning
rests on them; a claim that needs one takes it as a premise. -/
abbrev Config.Ok (par : Config) (nports nctx : Nat) : Prop :=
  1 ≤ nports ∧ nports ≤ 32 ∧ 1 ≤ nctx ∧ 1 ≤ par.npins ∧ par.npins ≤ 65535 ∧
  par.protectedPins.length = 2 ∧ par.protectedPins.Nodup ∧
  (∀ q ∈ par.protectedPins, q.1 < nports ∧ par.isReserved q.1 q.2 = false) ∧
  par.rsvPort < nports ∧ par.rsvLo + 3 ≤ 7 ∧
  (∀ k ∈ par.protectedRegs, k.gateable = true)

end Sys2Proof
end

