-- ==== Sys2Proof/Machine/State.lean ====
section
/-! DEFINITION. The state of PMSEQ (spec/10_state.md R20 to R45) as plain data, the reasons a step can stop, and the
state after reset. -/

namespace Sys2Proof.Machine

/-- The reasons of `FAULTED` (R24, R230). A step of a state marked with one answers `Outcome.fault`. -/
inductive Fault where
  /-- An access to a register or alias word of port `p` while `CLKEN[p] = 0` (R65), by any context or ENV. Safe: the
  hardware may go on where the model stops (D16). -/
  | clockOff (p : Nat)
  /-- An `INIT` overlapped another command; raised at Issue (R149). Safe (D26). -/
  | initReentered
  /-- An access to a port the surface does not have (R53: PMSEQ never makes one; only an ENV event of the agenda can
  name one). Safe. -/
  | noPort (p : Nat)
  /-- `memRead` or `memWrite` at a numeric address outside the map (R53). No step raises it. Safe. -/
  | unmapped (addr : Word)
  deriving DecidableEq, Repr

/-- The reasons of `REFUSED` (R24, R231), and the model's own refusals. -/
inductive Refusal where
  /-- An instruction that has no meaning yet. No arm of exec answers it. -/
  | notModelled (mnemonic : String)
  /-- A non-null handle that names no table or no descriptor; raised at GUARD (R231). Safe. -/
  | unknownHandle
  /-- `INIT` of a table that is not well-formed; raised at GUARD (R231, R46). Safe. -/
  | illFormedTable
  /-- A group command whose descriptor is not well-formed; raised at GUARD (R231, R47). Safe. -/
  | illFormedDescriptor
  /-- With `GUARDS = false`, a command one of whose non-mutability guards would have failed; raised at GUARD (R231,
  R138). Safe. -/
  | undefinedAccess
  /-- The agenda names a step that is not enabled: an Issue or call to a busy or absent context (R130), an own step of
  a context that holds no command or has finished (R131), a Complete of one that has not finished (R139), an ENV access
  with `ENV = false` (R76). Such an agenda describes no run of the block. Safe. -/
  | eventNotEnabled
  /-- A context stands at a position its micro-program does not have (R131); no run from reset reaches one. Safe. -/
  | offProgram
  deriving DecidableEq, Repr

/-- `MSTATE` (R21). -/
inductive MState where
  | notInitialized
  | initialized
  deriving DecidableEq, Repr

/-- `PH` (R25). -/
inductive Phase where
  | idle
  | guard
  | clk
  | unlock
  | dirp
  | datap
  | resp
  | funcp
  | access
  | finish
  deriving DecidableEq, Repr

/-- The micro-sequence position `(REC, PH, SUB)` (R25). -/
structure Pos where
  /-- `REC`, a record index 0 .. NPINS. -/
  record : Nat
  /-- `PH`. -/
  ph : Phase
  /-- `SUB`, the next micro-op inside the phase, at most 7. -/
  sub : Nat
  deriving DecidableEq, Repr

/-- The state of one context (R25 to R27). -/
structure Ctx where
  /-- `(REC, PH, SUB)`. -/
  pos : Pos
  /-- `CMD`. -/
  cmd : Word
  /-- `ARG`. -/
  arg : Word
  /-- `TMP`. -/
  tmp : Word
  /-- `RES`. -/
  res : Word
  /-- `FAILF` (R27). -/
  failf : Bool
  /-- `ILL` (R26). -/
  ill : Bool
  deriving DecidableEq, Repr

/-- The stored bits of one port (R30 to R38, R41). The eight 8-bit kinds hold their usable bits only; `LOCK` has no
stored value but the hidden bit `LOCKED`. -/
structure PortRegs where
  data : Byte
  dir : Byte
  afen : Byte
  pur : Byte
  pdr : Byte
  den : Byte
  commit : Byte
  amsel : Byte
  muxsel : Word
  locked : Bool
  deriving DecidableEq, Repr

/-- A word of the register space or of the alias space (R50). -/
inductive Loc where
  /-- Register `K` of port `p`. -/
  | reg (p : Nat) (k : Kind)
  /-- `CLKEN`. -/
  | clken
  /-- Alias word `(p, b)`. -/
  | aliasBit (p : Nat) (b : Bit)
  deriving DecidableEq, Repr

/-- One ENV access (R76): one of the six word primitives. -/
inductive EnvAccess where
  | read (l : Loc)
  | write (l : Loc) (v : Word)
  deriving DecidableEq, Repr

/-- One entry of the agenda: what the host, a context or ENV does next (R130, R131, R139, R76, R150). `call` is the
synchronous call of D0: Issue, every own step and Complete of one command with no other agent between. -/
inductive Event where
  | call (c : Nat) (cmd arg : Word)
  | issue (c : Nat) (cmd arg : Word)
  | advance (c : Nat)
  | complete (c : Nat)
  | env (a : EnvAccess)
  deriving DecidableEq, Repr

/-- What `Complete(c)` hands the host (R90, R139). -/
structure Response where
  ctx : Nat
  res : Word
  ill : Bool
  deriving DecidableEq, Repr

/-- The whole machine. -/
structure State where
  /-- The parameters (R28); no step writes them. -/
  par : Config
  /-- `MSTATE` (R21). -/
  mstate : MState
  /-- `CFG` (R22). -/
  cfg : Word
  /-- `DIAG` (R23), oldest first. -/
  diag : List Word
  /-- `FAULTED` (R24). -/
  faulted : Option Fault
  /-- `REFUSED` (R24). -/
  refused : Option Refusal
  /-- The contexts; `NCTX` is their number (R20). -/
  ctxs : List Ctx
  /-- `CLKEN` (R39). -/
  clken : Word
  /-- The ports of the Register Surface; `NPORTS` is their number (R30). -/
  ports : List PortRegs
  /-- The responses given to the host (R139, R151), oldest first. -/
  responses : List Response
  /-- The values ENV's reads returned (R282), oldest first. -/
  envReads : List Word
  /-- The model's own: what happens next, as plain data (log entry 4). -/
  agenda : List Event
  /-- The model's own: the context a serial call runs on (log entry 4). -/
  cur : Nat
  /-- The model's own: how many free values `LOCK` reads have drawn (R37, log entry 6). -/
  draws : Nat
  deriving DecidableEq, Repr

/-- `NPORTS`. -/
def State.nports (s : State) : Nat := s.ports.length

/-- `NCTX`. -/
def State.nctx (s : State) : Nat := s.ctxs.length

/-- The reset contents of one port that R45 leaves unspecified. -/
structure PortDraw where
  data : Byte
  dir : Byte
  afen : Byte
  pur : Byte
  pdr : Byte
  den : Byte
  amsel : Byte
  muxsel : Word
  deriving DecidableEq, Repr

/-- The reset contents of a context's working registers, which R45 leaves unspecified. -/
structure CtxDraw where
  cmd : Word
  arg : Word
  tmp : Word
  res : Word
  deriving DecidableEq, Repr

/-- Everything R45 leaves unspecified at reset: one entry per port, one per context, `CLKEN`. -/
structure ResetDraw where
  ports : List PortDraw
  ctxs : List CtxDraw
  clken : Word
  deriving DecidableEq, Repr

/-- `COMMIT[p][b]` after reset: 0 if `(p, b)` is in `PROTECTED`, else 1 (R38, R45). -/
def commitReset (par : Config) (p : Nat) : Byte :=
  let bit (b : Bit) : Byte := if par.isProtected p b then 0 else 1#8 <<< b.val
  bit 0 ||| bit 1 ||| bit 2 ||| bit 3 ||| bit 4 ||| bit 5 ||| bit 6 ||| bit 7

/-- Port `p` after reset: locked, `COMMIT` by `PROTECTED`, the rest as drawn (R45). -/
def portReset (par : Config) (p : Nat) (d : PortDraw) : PortRegs where
  data := d.data
  dir := d.dir
  afen := d.afen
  pur := d.pur
  pdr := d.pdr
  den := d.den
  commit := commitReset par p
  amsel := d.amsel
  muxsel := d.muxsel
  locked := true

/-- The ports after reset, from port `p` on. -/
def portsReset (par : Config) (p : Nat) : List PortDraw → List PortRegs
  | [] => []
  | d :: ds => portReset par p d :: portsReset par (p + 1) ds

/-- A context after reset: idle, the working registers as drawn (R45). -/
def ctxReset (d : CtxDraw) : Ctx where
  pos := ⟨0, .idle, 0⟩
  cmd := d.cmd
  arg := d.arg
  tmp := d.tmp
  res := d.res
  failf := false
  ill := false

/-- The machine right after reset with parameters `par` and draw `d` (R45, R260). -/
def State.resetWith (par : Config) (d : ResetDraw) : State where
  par := par
  mstate := .notInitialized
  cfg := nullHandle
  diag := []
  faulted := none
  refused := none
  ctxs := d.ctxs.map ctxReset
  clken := d.clken
  ports := portsReset par 0 d.ports
  responses := []
  envReads := []
  agenda := []
  cur := 0
  draws := 0

/-- The example address map of GK2, with the bit-band alias of GK10 (a). PRESUMED (log entry 3). -/
def exampleMap : AddressMap where
  portBase := [0x40004000, 0x40005000, 0x40006000, 0x40007000, 0x40024000, 0x40025000]
  off :=
    { data := 0x3FC, dir := 0x400, afen := 0x420, pur := 0x510, pdr := 0x514, den := 0x51C, lock := 0x520,
      commit := 0x524, amsel := 0x528, muxsel := 0x52C }
  clkenAddr := 0x400FE608
  aliasBase := [0x42087F80, 0x420A7F80, 0x420C7F80, 0x420E7F80, 0x42487F80, 0x424A7F80]

/-- The parameters of `State.reset`: the set EX of spec/95_test_vectors.md (GK3 to GK5, GK9) with the stores of its
programs P1 and I6, `NPINS = 1`, and `ENV` on. PRESUMED (log entry 3). -/
def exampleConfig : Config where
  npins := 1
  protectedPins := [(3, 7), (5, 0)]
  rsvPort := 2
  rsvLo := 0
  unlockKey := 0x4C4F434B
  guards := true
  hasSetMode := true
  hasFlip := true
  reportAll := true
  atomicBitops := false
  protectedRegs := [.afen, .pur, .pdr, .den]
  env := true
  tables := [(0x1000, [0x01C90001]), (0x1100, [0x00480001])]
  groups := [(0x3100, 0x00030200)]
  addr := exampleMap

/-- A port whose drawn registers are all zero. -/
def PortDraw.zero : PortDraw :=
  { data := 0, dir := 0, afen := 0, pur := 0, pdr := 0, den := 0, amsel := 0, muxsel := 0 }

/-- The family's reset of the port that holds the reserved pins (GK12): alternate function, digital enable and pull-up
set and function code 1 on bits 0 to 3. -/
def PortDraw.debugPins : PortDraw :=
  { PortDraw.zero with afen := 0x0F, pur := 0x0F, den := 0x0F, muxsel := 0x00001111 }

/-- The draw of `State.reset`: the family's values (GK12) for six ports and two contexts. PRESUMED (log entry 2). -/
def ResetDraw.family : ResetDraw where
  ports := [.zero, .zero, .debugPins, .zero, .zero, .zero]
  ctxs := [⟨0, 0, 0, 0⟩, ⟨0, 0, 0, 0⟩]
  clken := 0

/-- The machine right after reset: R45 with the named parameters and the named draw (log entries 2 and 3). A claim
about reset speaks of `State.resetWith` for every parameter set and every draw. -/
def State.reset : State := State.resetWith exampleConfig ResetDraw.family

end Sys2Proof.Machine
end

