-- ==== Sys2Proof/Machine/Ops.lean ====
section
/-! DEFINITION. The named operations over the Register Surface, the contexts and the outcome marks: the six access
primitives with their clock check and write gates (spec/20_memory.md R56 to R68), the numeric address map (R12, R53), the
read-modify-write formulas (spec/40_sequencer_common.md R140 to R144), and the marks FAULTED and REFUSED
(spec/60_exceptions.md R230, R231), which are this block's whole notion of taking an exception (R220): nothing vectors,
nothing is saved, and nothing returns from one (R226). -/

namespace Sys2Proof.Machine

/-! ### Marks -/

/-- Neither `FAULTED` nor `REFUSED` is set. -/
def State.live (s : State) : Bool := s.faulted.isNone && s.refused.isNone

/-- `Fault(r)`: sets `FAULTED` if it is not set and changes nothing else (R230). -/
def State.markFault (s : State) (r : Fault) : State :=
  { s with faulted := some (s.faulted.getD r) }

/-- `Refuse(r)`: sets `REFUSED` if it is not set and (R231, R24). That it changes nothing else
is the model's choice (DESIGN CHOICE, log entry 10). -/
def State.markRefused (s : State) (r : Refusal) : State :=
  { s with refused := some (s.refused.getD r) }

/-- `f` goes on from `s`, unless `s` is marked: no context takes a further step then (R230). -/
def State.andThen (s : State) (f : State → State) : State :=
  if s.live then f s else s

/-! ### Contexts -/

/-- What stands for a context that does not exist. -/
def Ctx.blank : Ctx :=
  { pos := ⟨0, .idle, 0⟩, cmd := 0, arg := 0, tmp := 0, res := 0, failf := false, ill := false }

/-- Context `c`. -/
def State.ctx (s : State) (c : Nat) : Ctx := s.ctxs.getD c Ctx.blank

/-- Context `c` becomes `x`. -/
def State.setCtx (s : State) (c : Nat) (x : Ctx) : State := { s with ctxs := s.ctxs.set c x }

/-- `TMP[c] <- v`. -/
def State.setTmp (s : State) (c : Nat) (v : Word) : State := s.setCtx c { s.ctx c with tmp := v }

/-- `(REC, PH, SUB)[c] <- q`. -/
def State.setPos (s : State) (c : Nat) (q : Pos) : State := s.setCtx c { s.ctx c with pos := q }

/-- The context holds a command that still has items to run: `PH` is neither `IDLE` nor `FINISH` (R131). -/
def Ctx.running (x : Ctx) : Bool := x.pos.ph != .idle && x.pos.ph != .finish

/-! ### The registers of a port -/

/-- What stands for a port that does not exist. -/
def PortRegs.blank : PortRegs :=
  { data := 0, dir := 0, afen := 0, pur := 0, pdr := 0, den := 0, commit := 0, amsel := 0, muxsel := 0, locked := true }

/-- Port `p` of the surface. -/
def State.port (s : State) (p : Nat) : PortRegs := s.ports.getD p PortRegs.blank

/-- Port `p` becomes `r`. -/
def State.setPort (s : State) (p : Nat) (r : PortRegs) : State := { s with ports := s.ports.set p r }

/-- The stored bits of a kind, zero-extended (R41, R56). For `LOCK` it is the hidden bit `LOCKED` (R37), which is NOT
what a read of `LOCK` returns. -/
def PortRegs.stored (r : PortRegs) : Kind → Word
  | .data => r.data.setWidth 32
  | .dir => r.dir.setWidth 32
  | .afen => r.afen.setWidth 32
  | .pur => r.pur.setWidth 32
  | .pdr => r.pdr.setWidth 32
  | .den => r.den.setWidth 32
  | .lock => if r.locked then 1 else 0
  | .commit => r.commit.setWidth 32
  | .amsel => r.amsel.setWidth 32
  | .muxsel => r.muxsel

/-- The bits of `new` where `mask` is 1 and of `old` where it is 0. -/
def mergeByte (mask old new : Byte) : Byte := (new &&& mask) ||| (old &&& ~~~mask)

/-- The word whose nibble `b` is all ones where bit `b` of `m` is 1. -/
def spreadNibbles (m : Byte) : Word :=
  let nib (b : Bit) : Word := if m.getLsbD b.val then 0xF#32 <<< (4 * b.val) else 0
  nib 0 ||| nib 1 ||| nib 2 ||| nib 3 ||| nib 4 ||| nib 5 ||| nib 6 ||| nib 7

/-- The nibbles of `new` where `mask` is 1 and of `old` where it is 0. -/
def mergeNibbles (mask : Byte) (old new : Word) : Word :=
  (new &&& spreadNibbles mask) ||| (old &&& ~~~(spreadNibbles mask))

/-- Bit `b` says whether `Writable(p, b, K)`: `K` is not gated, or the commit bit is 1 (R66). -/
def PortRegs.writable (par : Config) (r : PortRegs) (k : Kind) : Byte :=
  if par.gates k then r.commit else 0xFF

/-- What `RegWrite(p, K, v)` stores (R57): `LOCK` moves the lock state (R67), `COMMIT` sticks only while unlocked
(R68), `DATA` always, the configuration kinds where they are writable; bits 31 to 8 are dropped. -/
def PortRegs.write (par : Config) (k : Kind) (v : Word) (r : PortRegs) : PortRegs :=
  match k with
  | .lock => { r with locked := v != par.unlockKey }
  | .commit => if r.locked then r else { r with commit := v.setWidth 8 }
  | .data => { r with data := v.setWidth 8 }
  | .dir => { r with dir := mergeByte (r.writable par .dir) r.dir (v.setWidth 8) }
  | .afen => { r with afen := mergeByte (r.writable par .afen) r.afen (v.setWidth 8) }
  | .pur => { r with pur := mergeByte (r.writable par .pur) r.pur (v.setWidth 8) }
  | .pdr => { r with pdr := mergeByte (r.writable par .pdr) r.pdr (v.setWidth 8) }
  | .den => { r with den := mergeByte (r.writable par .den) r.den (v.setWidth 8) }
  | .amsel => { r with amsel := mergeByte (r.writable par .amsel) r.amsel (v.setWidth 8) }
  | .muxsel => { r with muxsel := mergeNibbles (r.writable par .muxsel) r.muxsel v }

/-! ### The access primitives -/

/-- Why an access to port `p` is a fault, if it is (R65, R53). -/
def State.denied (s : State) (p : Nat) : Option Fault :=
  if p < s.nports then if s.clken.getLsbD p then none else some (.clockOff p)
  else some (.noPort p)

/-- `RegRead(p, K)` (R56): the value and the state after; only a `LOCK` read, a fresh draw, moves anything (R37). -/
def regRead (s : State) (p : Nat) (k : Kind) : Except Fault (Word × State) :=
  match s.denied p with
  | some f => .error f
  | none =>
    match k with
    | .lock => .ok (Config.freeWord s.draws, { s with draws := s.draws + 1 })
    | k => .ok ((s.port p).stored k, s)

/-- `RegWrite(p, K, v)` (R57). -/
def regWrite (s : State) (p : Nat) (k : Kind) (v : Word) : Except Fault State :=
  match s.denied p with
  | some f => .error f
  | none => .ok (s.setPort p ((s.port p).write s.par k v))

/-- `ClkRead()` (R58); no clock check. -/
def clkRead (s : State) : Word := s.clken

/-- `ClkWrite(v)`: all 32 bits (R59). -/
def clkWrite (s : State) (v : Word) : State := { s with clken := v }

/-- `AliasRead(p, b)`: `0` or `1` (R60). -/
def aliasRead (s : State) (p : Nat) (b : Bit) : Except Fault Word :=
  match s.denied p with
  | some f => .error f
  | none => .ok (if (s.port p).data.getLsbD b.val then 1 else 0)

/-- Byte `d` with bit `b` replaced. -/
def putByteBit (d : Byte) (b : Bit) (v : Bool) : Byte :=
  if v then d ||| (1#8 <<< b.val) else d &&& ~~~(1#8 <<< b.val)

/-- `AliasWrite(p, b, v)`: only `v[0]` counts, only `DATA[p][b]` changes (R61). -/
def aliasWrite (s : State) (p : Nat) (b : Bit) (v : Word) : Except Fault State :=
  match s.denied p with
  | some f => .error f
  | none => .ok (s.setPort p { s.port p with data := putByteBit (s.port p).data b (v.getLsbD 0) })

/-- A read of any word of the register or alias space. -/
def State.load (s : State) : Loc → Except Fault (Word × State)
  | .reg p k => regRead s p k
  | .clken => .ok (clkRead s, s)
  | .aliasBit p b =>
    match aliasRead s p b with
    | .ok v => .ok (v, s)
    | .error f => .error f

/-- A write of any word of the register or alias space. -/
def State.store (s : State) (l : Loc) (v : Word) : Except Fault State :=
  match l with
  | .reg p k => regWrite s p k v
  | .clken => .ok (clkWrite s v)
  | .aliasBit p b => aliasWrite s p b v

/-! ### The numeric address map (R12, R53) -/

/-- The address of a word (R53). DESIGN CHOICE (log entry 17): an address is 32 bits wide, the width of a word, and the
two sums wrap modulo 2^32; the spec gives no width. -/
def addrOf (m : AddressMap) : Loc → Word
  | .reg p k => m.portBase.getD p 0 + m.off.get k
  | .clken => m.clkenAddr
  | .aliasBit p b => m.aliasBase.getD p 0 + BitVec.ofNat 32 (4 * b.val)

/-- The words of port `p`: ten registers and eight alias words. -/
def portLocs (p : Nat) : List Loc :=
  Kind.all.map (Loc.reg p) ++ ([0, 1, 2, 3, 4, 5, 6, 7] : List Bit).map (Loc.aliasBit p)

/-- The words of ports `0` to `n - 1`. -/
def allPortLocs : Nat → List Loc
  | 0 => []
  | n + 1 => allPortLocs n ++ portLocs n

/-- Every word of a surface with `nports` ports (R53: `10 * NPORTS + 1 + 8 * NPORTS`). -/
def allLocs (nports : Nat) : List Loc := .clken :: allPortLocs nports

/-- R53's constraints on the map: multiples of 4, pairwise distinct. -/
abbrev addressMapOk (m : AddressMap) (nports : Nat) : Prop :=
  ((allLocs nports).map (addrOf m)).Nodup ∧ ∀ l ∈ allLocs nports, (addrOf m l).extractLsb' 0 2 = 0#2

/-- The word at a numeric address, if the map has one there. -/
def locAt (m : AddressMap) (nports : Nat) (a : Word) : Option Loc :=
  (allLocs nports).find? fun l => addrOf m l == a

/-- `MemRead(addr, 4)` (R12). -/
def memRead (s : State) (a : Word) : Except Fault (Word × State) :=
  match locAt s.par.addr s.nports a with
  | some l => s.load l
  | none => .error (.unmapped a)

/-- `MemWrite(addr, 4, v)` (R12). -/
def memWrite (s : State) (a : Word) (v : Word) : Except Fault State :=
  match locAt s.par.addr s.nports a with
  | some l => s.store l v
  | none => .error (.unmapped a)

/-- Byte `i` of a word: byte 0 is bits 7 to 0 (R54). -/
def wordByte (w : Word) (i : Fin 4) : Byte := w.extractLsb' (8 * i.val) 8

/-! ### Read-modify-write formulas -/

/-- `t | (1 << b)` (R140). -/
def setBitIn (t : Word) (b : Nat) : Word := t ||| (1#32 <<< b)

/-- `t & ~(1 << b)` (R141). -/
def clrBitIn (t : Word) (b : Nat) : Word := t &&& ~~~(1#32 <<< b)

/-- `(t & ~(0xF << (4*b))) | (c << (4*b))` (R143). -/
def putNibbleIn (t : Word) (b : Bit) (c : BitVec 4) : Word :=
  (t &&& ~~~(0xF#32 <<< (4 * b.val))) ||| (c.setWidth 32 <<< (4 * b.val))

/-- `(t & ~(m << o)) | ((v & m) << o)` (R196). -/
def putGroupIn (t m v : Word) (o : Nat) : Word :=
  (t &&& ~~~(m <<< o)) ||| ((v &&& m) <<< o)

end Sys2Proof.Machine
end

