-- ==== Sys2Proof/Machine/Operands.lean ====
section
/-! DEFINITION. What the operands of a command name: modes (spec/10_state.md R48, spec/30_encoding.md R107), pin records
(R29, R105, R106) and tables (R46, R62), channel group descriptors (R47, R108), and the pin lookup (R145). -/

namespace Sys2Proof.Machine

/-- `Mode` (R48). `alt k` has `1 ≤ k`: `Mode.ofCode` never makes `alt 0`. -/
inductive Mode where
  | gpio
  | alt (k : BitVec 4)
  | analog
  deriving DecidableEq, Repr

/-- The mode of an 8-bit mode code (R107). -/
def Mode.ofCode (code : Byte) : Option Mode :=
  if code = 0 then some .gpio
  else if code.toNat ≤ 15 then some (.alt (code.setWidth 4))
  else if code.toNat = modeMax then some .analog
  else none

/-- The mode code of a mode (R107). -/
def Mode.code : Mode → Byte
  | .gpio => 0
  | .alt k => k.setWidth 8
  | .analog => 0x10

/-- `wire(m)`, the nibble written to `MUXSEL` (R48). -/
def Mode.wire : Mode → BitVec 4
  | .gpio => 0
  | .alt k => k
  | .analog => 0

/-- `resistor` (R29). -/
inductive Resistor where
  | none
  | pullUp
  | pullDown
  deriving DecidableEq, Repr

/-- Field `RES` of a record word (R105); 3 is not a record. -/
def Resistor.ofField : BitVec 2 → Option Resistor
  | 0 => some .none
  | 1 => some .pullUp
  | 2 => some .pullDown
  | _ => Option.none

/-- Field `RES` of a record word (R105). -/
def Resistor.field : Resistor → BitVec 2
  | .none => 0
  | .pullUp => 1
  | .pullDown => 2

/-- A Pin Configuration Record (R29). -/
structure PinRecord where
  port : Byte
  bit : Bit
  direction : Dir
  mode : Mode
  resistor : Resistor
  initial : Level
  dirChangeable : Bool
  modeChangeable : Bool
  deriving DecidableEq, Repr

/-- The record's port index. -/
def PinRecord.p (r : PinRecord) : Nat := r.port.toNat

/-- A record word decodes when `RES != 3`, `MODE <= MODE_MAX` and bits 31 to 25 are zero (R105, R106). -/
def PinRecord.ofWord (w : Word) : Option PinRecord :=
  match Mode.ofCode (w.extractLsb' 8 8), Resistor.ofField (w.extractLsb' 20 2) with
  | some m, some res =>
    if w.extractLsb' 25 7 = 0 then
      some
        { port := w.extractLsb' 0 8
          bit := (w.extractLsb' 16 3).toFin
          direction := if w.getLsbD 19 then .output else .input
          mode := m
          resistor := res
          initial := if w.getLsbD 22 then .high else .low
          dirChangeable := w.getLsbD 23
          modeChangeable := w.getLsbD 24 }
    else none
  | _, _ => none

/-- The record word of a record (R105). -/
def PinRecord.word (r : PinRecord) : Word :=
  (0 : BitVec 7) ++ BitVec.ofBool r.modeChangeable ++ BitVec.ofBool r.dirChangeable ++ BitVec.ofBool r.initial.bit ++
    r.resistor.field ++ BitVec.ofBool r.direction.bit ++ BitVec.ofNat 3 r.bit.val ++ r.mode.code ++ r.port

/-- The records of a table; none if a word does not decode. -/
def decodeRecords : List Word → Option (List PinRecord)
  | [] => some []
  | w :: ws =>
    match PinRecord.ofWord w, decodeRecords ws with
    | some r, some rs => some (r :: rs)
    | _, _ => none

/-- What a handle names in a store (R109): `NULL` names nothing. -/
def storeAt {α : Type} (store : List (Word × α)) (h : Word) : Option α :=
  if h = nullHandle then none else store.lookup h

/-- The records of the table `h`, or why the launch is refused: no such table, or a table that is not well-formed: a
record does not decode, or has `port >= NPORTS`, or there are not `NPINS` of them (R46, R62, R231). -/
def tableAt (par : Config) (nports : Nat) (h : Word) : Except Refusal (List PinRecord) :=
  match storeAt par.tables h with
  | none => .error .unknownHandle
  | some ws =>
    match decodeRecords ws with
    | none => .error .illFormedTable
    | some rs =>
      if rs.length = par.npins ∧ rs.all (fun r => decide (r.p < nports)) = true then .ok rs
      else .error .illFormedTable

/-- `TblRead(h, i)` (R62): record `i` of the table `h`. -/
def recordAt (par : Config) (nports : Nat) (h : Word) (i : Nat) : Except Refusal PinRecord :=
  match tableAt par nports h with
  | .error r => .error r
  | .ok rs =>
    match rs[i]? with
    | some r => .ok r
    | none => .error .illFormedTable

/-- A Channel Group Descriptor (R47). -/
structure Descriptor where
  port : Byte
  offset : Byte
  mask : Byte
  deriving DecidableEq, Repr

/-- The descriptor's port index. -/
def Descriptor.p (d : Descriptor) : Nat := d.port.toNat

/-- `bit_mask`, zero-extended. -/
def Descriptor.m (d : Descriptor) : Word := d.mask.setWidth 32

/-- `bit_offset`. -/
def Descriptor.o (d : Descriptor) : Nat := d.offset.toNat

/-- `width(m)`: the position of the highest set bit plus one; `width(0) = 0` (R47). -/
def maskWidth (m : Byte) : Nat := if m = 0 then 0 else m.toNat.log2 + 1

/-- The descriptor of a word; none if bits 31 to 24 are not zero (R108). -/
def Descriptor.ofWord (w : Word) : Option Descriptor :=
  if w.extractLsb' 24 8 = 0 then
    some { port := w.extractLsb' 0 8, offset := w.extractLsb' 8 8, mask := w.extractLsb' 16 8 }
  else none

/-- The descriptor word (R108). -/
def Descriptor.word (d : Descriptor) : Word := (0 : Byte) ++ d.mask ++ d.offset ++ d.port

/-- R47's well-formedness; `bit_mask <= 0xFF` holds of every byte. -/
def Descriptor.wellFormed (d : Descriptor) (nports : Nat) : Bool :=
  decide (d.p < nports) && decide (d.o ≤ 7) && decide (d.o + maskWidth d.mask ≤ 8)

/-- `GrpRead(h)` (R63), or why the launch is refused (R231). -/
def groupAt (par : Config) (nports : Nat) (h : Word) : Except Refusal Descriptor :=
  match storeAt par.groups h with
  | none => .error .unknownHandle
  | some w =>
    match Descriptor.ofWord w with
    | none => .error .illFormedDescriptor
    | some d => if d.wellFormed nports then .ok d else .error .illFormedDescriptor

end Sys2Proof.Machine
end

