-- ==== Sys2Proof/Machine/Flags.lean ====
section
/-! DEFINITION. The guards, the one flag `FAILF` they set, and the reports they make (spec/40_sequencer_common.md R132 to
R138, spec/60_exceptions.md R221 to R225, spec/30_encoding.md R110 to R113). -/

namespace Sys2Proof.Machine

/-- The seven errors (R113). -/
inductive ErrorKind where
  | uninitialized
  | invalidConfig
  | invalidIndex
  | invalidPointer
  | directionNotChangeable
  | modeNotChangeable
  | invalidMode
  deriving DecidableEq, Repr

/-- `error_code` (R113). -/
def ErrorKind.code : ErrorKind → Byte
  | .uninitialized => 0x01
  | .invalidConfig => 0x02
  | .invalidIndex => 0x03
  | .invalidPointer => 0x04
  | .directionNotChangeable => 0x05
  | .modeNotChangeable => 0x06
  | .invalidMode => 0x07

/-- `{module_id, instance_id, operation_id, error_code}` (R110). -/
def packReport (m inst op err : Byte) : Word := m ++ inst ++ op ++ err

/-- `module_id` (R111): opcodes `0x01..0x04` are the Pin Configuration Engine, module 1, `0x10..0x16` the Channel Access
Engine, module 2 (R92). -/
def moduleOf (opc : Byte) : Byte := if opc.toNat < 0x10 then 0x01 else 0x02

/-- The report a command with opcode `opc` makes of an error: instance 0, operation `OPC` (R111, R112). -/
def reportWord (opc : Byte) (e : ErrorKind) : Word := packReport (moduleOf opc) 0x00 opc e.code

/-- The eight guard predicates (R134). -/
inductive Guard where
  | cfg
  | init
  | pin
  | port
  | ptr
  | dirCh
  | modeCh
  | mode
  deriving DecidableEq, Repr

/-- The error a failing guard reports (R134). -/
def Guard.error : Guard → ErrorKind
  | .cfg => .invalidConfig
  | .init => .uninitialized
  | .pin => .invalidIndex
  | .port => .invalidIndex
  | .ptr => .invalidPointer
  | .dirCh => .directionNotChangeable
  | .modeCh => .modeNotChangeable
  | .mode => .invalidMode

/-- `G_DIRCH` and `G_MODECH`, the guards that `GUARDS = false` does not turn into a refusal (R138). -/
def Guard.mutability : Guard → Bool
  | .dirCh | .modeCh => true
  | .cfg | .init | .pin | .port | .ptr | .mode => false

/-- `IDX`, zero-extended (R99, R147). -/
def idxOf (cmd : Word) : Nat := (cmdIdx cmd).toNat

/-- `MSTATE = Initialized`. -/
def State.isInitialized (s : State) : Bool := s.mstate == .initialized

/-- `TblRead(CFG, IDX)`, where `G_INIT` and `G_PIN` hold (R136, R145). -/
def State.guardRecord (s : State) (cmd : Word) : Option PinRecord :=
  if s.isInitialized && decide (idxOf cmd < s.par.npins) then
    match recordAt s.par s.nports s.cfg (idxOf cmd) with
    | .ok r => some r
    | .error _ => none
  else none

/-- Whether the guard fails for the command `(cmd, arg)`: it is evaluable (R136) and its condition is false (R134). -/
def Guard.fails (s : State) (cmd arg : Word) : Guard → Bool
  | .cfg => arg == nullHandle
  | .init => !s.isInitialized
  | .pin => !decide (idxOf cmd < s.par.npins)
  | .port => !decide (idxOf cmd < s.nports)
  | .ptr => arg == nullHandle
  | .dirCh => (s.guardRecord cmd).any fun r => !r.dirChangeable
  | .modeCh => (s.guardRecord cmd).any fun r => !r.modeChangeable
  | .mode => !decide ((cmdVal cmd).toNat ≤ modeMax)

/-- The failing guards, in evaluation order. -/
def failingGuards (gs : List Guard) (s : State) (cmd arg : Word) : List Guard :=
  gs.filter (Guard.fails s cmd arg)

/-- The guards that report: every failing one with `REPORT_ALL`, only the first without (R133). -/
def reporting (par : Config) (failing : List Guard) : List Guard :=
  if par.reportAll then failing else failing.take 1

/-- The report words of one GUARD step, in guard order (R133, R223). -/
def reportsOf (par : Config) (cmd : Word) (failing : List Guard) : List Word :=
  (reporting par failing).map fun g => reportWord (cmdOpc cmd) g.error

/-- `Report(m, inst, op, err)` for each word: appended to `DIAG` (R221). -/
def State.report (s : State) (ws : List Word) : State := { s with diag := s.diag ++ ws }

/-- `FAILF[c] <- 1` (R133). -/
def State.setFailf (s : State) (c : Nat) : State := s.setCtx c { s.ctx c with failf := true }

end Sys2Proof.Machine
end

