-- ==== Sys2Proof/Machine/Sequencer.lean ====
section
/-! DEFINITION. The life of a command (spec/40_sequencer_common.md R130 to R151): Issue, the GUARD step, the micro-program
one item at a time, FIN and Complete, and the synchronous call that runs them all with no other agent between. The same
per-item functions serve the call and the micro-steps of Machine/Events.lean. -/

namespace Sys2Proof.Machine

/-! ### Micro-operations -/

/-- The value a write micro-op writes, a function of `TMP` (or, for an atomic update, of the value read). -/
inductive Datum where
  /-- A value fixed at Issue. -/
  | const (v : Word)
  /-- `TMP | (1 << b)` (R140, R144). -/
  | setBit (b : Nat)
  /-- `TMP & ~(1 << b)` (R141). -/
  | clrBit (b : Nat)
  /-- The nibble formula (R143). -/
  | putNibble (b : Bit) (c : BitVec 4)
  /-- The group formula with mask, value and offset (R196). -/
  | putGroup (m v : Word) (o : Nat)
  /-- `(TMP = 0) ? 1 : 0` (R197). -/
  | flip
  deriving DecidableEq, Repr

/-- The value written when `TMP` is `t`. -/
def Datum.eval (t : Word) : Datum → Word
  | .const v => v
  | .setBit b => setBitIn t b
  | .clrBit b => clrBitIn t b
  | .putNibble b c => putNibbleIn t b c
  | .putGroup m v o => putGroupIn t m v o
  | .flip => if t = 0 then 1 else 0

/-- One micro-op (R15): a read into `TMP`, a write of a datum, or an atomic update (R74). -/
inductive MicroOp where
  | load (l : Loc)
  | store (l : Loc) (d : Datum)
  | update (l : Loc) (d : Datum)
  deriving DecidableEq, Repr

/-- What context `c` does in one micro-op, the position aside. -/
def performOp (c : Nat) (op : MicroOp) (s : State) : Except Fault State :=
  match op with
  | .load l =>
    match s.load l with
    | .error f => .error f
    | .ok (v, s') => .ok (s'.setTmp c v)
  | .store l d => s.store l (d.eval (s.ctx c).tmp)
  | .update l d =>
    match s.load l with
    | .error f => .error f
    | .ok (v, s') => s'.store l (d.eval v)

/-! ### Macro-operations (R140 to R144) -/

/-- A read-modify-write of one word with a single-bit datum: two micro-ops, or one with `ATOMIC_BITOPS` (R74). -/
def bitUpdate (par : Config) (l : Loc) (d : Datum) : List MicroOp :=
  if par.atomicBitops then [.update l d] else [.load l, .store l d]

/-- `SetBit(p, K, b)` (R140). -/
def setBitOps (par : Config) (p : Nat) (k : Kind) (b : Bit) : List MicroOp :=
  bitUpdate par (.reg p k) (.setBit b.val)

/-- `ClrBit(p, K, b)` (R141). -/
def clrBitOps (par : Config) (p : Nat) (k : Kind) (b : Bit) : List MicroOp :=
  bitUpdate par (.reg p k) (.clrBit b.val)

/-- `PutBit(p, K, b, v)` (R142). -/
def putBitOps (par : Config) (p : Nat) (k : Kind) (b : Bit) (v : Bool) : List MicroOp :=
  if v then setBitOps par p k b else clrBitOps par p k b

/-- `PutNibble(p, b, c)`: always two micro-ops (R143). -/
def putNibbleOps (p : Nat) (b : Bit) (c : BitVec 4) : List MicroOp :=
  [.load (.reg p .muxsel), .store (.reg p .muxsel) (.putNibble b c)]

/-- `ClkSet(p)` (R144). -/
def clkSetOps (par : Config) (p : Nat) : List MicroOp := bitUpdate par .clken (.setBit p)

/-! ### Micro-programs -/

/-- An item: a micro-op at its position. -/
abbrev Item := Pos × MicroOp

/-- The micro-ops of one phase of record `n`, `SUB` counting from `sub` (R25). -/
def place (n : Nat) (ph : Phase) (sub : Nat) : List MicroOp → List Item
  | [] => []
  | op :: ops => (⟨n, ph, sub⟩, op) :: place n ph (sub + 1) ops

/-- What FIN puts into `RES`, a function of `TMP`. -/
inductive Result where
  /-- `RES <- 0` (R139). -/
  | zero
  /-- `(TMP != 0) ? 1 : 0` (R191, R197). -/
  | level
  /-- `RES <- TMP` (R193). -/
  | word
  /-- `(TMP >> o) & m` (R195). -/
  | group (m : Word) (o : Nat)
  deriving DecidableEq, Repr

/-- `RES` when `TMP` is `t`. -/
def Result.eval (t : Word) : Result → Word
  | .zero => 0
  | .level => if t ≠ 0 then 1 else 0
  | .word => t
  | .group m o => (t >>> o) &&& m

/-- The part of a command after its GUARD item: the items, the position of FIN, FIN's result. -/
structure Body where
  items : List Item
  finPos : Pos
  result : Result
  deriving DecidableEq, Repr

/-- The position of FIN when the command has no ACCESS micro-op and its record loop ended at `n`: `ACCESS` is the last
phase, and FIN stands there after that phase's micro-ops (log entry 7). -/
def finAt (n : Nat) : Pos := ⟨n, .access, 0⟩

/-- The body of a command whose micro-ops are all in phase ACCESS. -/
def accessBody (ops : List MicroOp) (res : Result) : Body where
  items := place 0 .access 0 ops
  finPos := ⟨0, .access, ops.length⟩
  result := res

/-- A command as the sequencer runs it. -/
structure Command where
  /-- `CMD`. -/
  cmd : Word
  /-- `ARG`. -/
  arg : Word
  /-- The command is `INIT`. -/
  isInit : Bool
  /-- The build has the command (R92 "present when"). -/
  present : Config → Bool
  /-- The guards in evaluation order (R135). -/
  guards : List Guard
  /-- The body, from the parameters, `NPORTS` and `CFG` only, so that no decision can depend on the Register Surface
  (R131, R148); or why the launch is refused (R231). -/
  body : Config → Nat → Word → Except Refusal Body

/-- The body in state `s`. -/
def Command.bodyIn (k : Command) (s : State) : Except Refusal Body := k.body s.par s.nports s.cfg

/-- The failing guards in state `s`. -/
def Command.failing (k : Command) (s : State) : List Guard := failingGuards k.guards s k.cmd k.arg

/-! ### Issue (R130, R149) -/

/-- The command word of `INIT` (R92). -/
def initWord : Word := 0x01000000

/-- The context holds an `INIT` that has not completed (R149). -/
def Ctx.holdsInit (x : Ctx) : Bool := x.pos.ph != .idle && x.cmd == initWord

/-- The contexts but `c`. -/
def State.others (s : State) (c : Nat) : List Ctx := s.ctxs.eraseIdx c

/-- `InitClash(c, cmd)` (R149). -/
def initClash (isInit : Bool) (c : Nat) (s : State) : Bool :=
  (isInit && (s.others c).any fun x => x.pos.ph != .idle) || (s.others c).any Ctx.holdsInit

/-- What Issue writes of a context, at phase `ph` (R130). -/
def Ctx.latch (x : Ctx) (cmd arg : Word) (ph : Phase) : Ctx :=
  { x with pos := ⟨0, ph, 0⟩, cmd := cmd, arg := arg, failf := false, ill := false }

/-- Issue of an illegal command (R120, R130): `ILL = 1`, `RES = 0`, straight to FINISH. -/
def issueIllegal (c : Nat) (cmd arg : Word) (s : State) : State :=
  s.setCtx c { (s.ctx c).latch cmd arg .finish with ill := true, res := 0 }

/-- Issue of a decoded command (R130): illegal if the build lacks it (R120), a fault if it overlaps an `INIT` (R149). -/
def issue (k : Command) (c : Nat) (s : State) : State :=
  if k.present s.par then
    if initClash k.isInit c s then s.markFault .initReentered
    else s.setCtx c ((s.ctx c).latch k.cmd k.arg .guard)
  else issueIllegal c k.cmd k.arg s

/-- Issue is enabled: the context exists and is idle (R130). -/
def State.canIssue (s : State) (c : Nat) : Bool :=
  decide (c < s.nctx) && (s.ctx c).pos.ph == .idle

/-! ### GUARD (R132 to R138) -/

/-- The position of the head of `items`, or FIN's. -/
def headPos (fin : Pos) : List Item → Pos
  | [] => fin
  | (q, _) :: _ => q

/-- The GUARD step when no guard stands in the way: the launch is refused, or the context goes on to its first
micro-op; `INIT` latches `CFG` (R162). DESIGN CHOICE (log entry 10): a refused `INIT` leaves `CFG` as it was. -/
def enterBody (k : Command) (c : Nat) (s : State) : State :=
  match k.bodyIn s with
  | .error r => s.markRefused r
  | .ok b =>
    let s' := if k.isInit then { s with cfg := k.arg } else s
    s'.setPos c (headPos b.finPos b.items)

/-- The GUARD step of a command with failing guards: reports, `FAILF`, on to the degraded FIN (R133, R137, R225). -/
def failGuards (k : Command) (c : Nat) (failing : List Guard) (s : State) : State :=
  ((s.report (reportsOf s.par k.cmd failing)).setFailf c).setPos c (finAt 0)

/-- The GUARD step (R132); with `GUARDS = false` a failing non-mutability guard is a refusal and nothing is reported
(R138). -/
def guardStep (k : Command) (c : Nat) (s : State) : State :=
  if s.par.guards then
    if (k.failing s).isEmpty then enterBody k c s else failGuards k c (k.failing s) s
  else if (k.failing s).any fun g => !g.mutability then s.markRefused .undefinedAccess
  else enterBody k c s

/-! ### Items and FIN -/

/-- One micro-op of context `c` and the advance to `q`; a fault marks the state and changes nothing else (R230). -/
def itemStep (c : Nat) (op : MicroOp) (q : Pos) (s : State) : State :=
  match performOp c op s with
  | .error f => s.markFault f
  | .ok s' => s'.setPos c q

/-- FIN (R137, R139, R168): `RES`, `PH <- FINISH`, and for `INIT` `MSTATE <- Initialized`. -/
def finStep (k : Command) (c : Nat) (res : Result) (s : State) : State :=
  let x := s.ctx c
  let s' := if k.isInit then { s with mstate := .initialized } else s
  s'.setCtx c { x with res := res.eval x.tmp, pos := { x.pos with ph := .finish } }

/-- FIN in its degraded form: the default result, 0 for every command, and nothing else (R137). -/
def finDegraded (c : Nat) (s : State) : State :=
  let x := s.ctx c
  s.setCtx c { x with res := 0, pos := { x.pos with ph := .finish } }

/-- `Complete(c)` (R139). -/
def complete (c : Nat) (s : State) : State :=
  let x := s.ctx c
  { s.setCtx c { x with pos := { x.pos with ph := .idle } } with responses := s.responses ++ [⟨c, x.res, x.ill⟩] }

/-! ### One own step of a context (R131) -/

/-- The micro-op at position `at_` and the position after it. -/
def nextItem (fin at_ : Pos) : List Item → Option (MicroOp × Pos)
  | [] => none
  | (q, op) :: rest => if q = at_ then some (op, headPos fin rest) else nextItem fin at_ rest

/-- The own step of context `c`, which holds command `k` past its GUARD item. -/
def bodyStep (k : Command) (c : Nat) (s : State) : State :=
  if (s.ctx c).failf then
    if (s.ctx c).pos = finAt 0 then finDegraded c s else s.markRefused .offProgram
  else
    match k.bodyIn s with
    | .error _ => s.markRefused .offProgram
    | .ok b =>
      match nextItem b.finPos (s.ctx c).pos b.items with
      | some (op, q) => itemStep c op q s
      | none => if (s.ctx c).pos = b.finPos then finStep k c b.result s else s.markRefused .offProgram

/-- The one enabled own step of a running context that holds command `k` (R131). -/
def ownStep (k : Command) (c : Nat) (s : State) : State :=
  if (s.ctx c).pos.ph = .guard then guardStep k c s else bodyStep k c s

/-! ### The synchronous call -/

/-- The items of a body one after another, while the state is not marked. -/
def runItems (c : Nat) (fin : Pos) : List Item → State → State
  | [], s => s
  | (_, op) :: rest, s => (itemStep c op (headPos fin rest) s).andThen (runItems c fin rest)

/-- Everything of a command after its GUARD item. -/
def runBody (k : Command) (c : Nat) (s : State) : State :=
  if (s.ctx c).failf then finDegraded c s
  else
    match k.bodyIn s with
    | .error _ => s.markRefused .offProgram
    | .ok b => (runItems c b.finPos b.items s).andThen (finStep k c b.result)

/-- Every own step of a command just issued, and Complete; an illegal command has no own step (R120, R131, R139). -/
def runIssued (k : Command) (c : Nat) (s : State) : State :=
  if (s.ctx c).pos.ph = .finish then complete c s
  else ((guardStep k c s).andThen (runBody k c)).andThen (complete c)

/-- A synchronous call of command `k` on context `s.cur`: Issue, every own step, Complete, no other agent between (R71,
R131; D0: "every call is synchronous"). A marked state steps no more (R230); a busy context takes no Issue (R130). -/
def call (k : Command) (s : State) : Host.Outcome State Fault Refusal :=
  match s.faulted, s.refused with
  | some f, _ => .fault f
  | none, some r => .refused r
  | none, none =>
    if s.canIssue s.cur then .next ((issue k s.cur s).andThen (runIssued k s.cur))
    else .refused .eventNotEnabled

end Sys2Proof.Machine
end

