-- ==== Sys2Proof/Machine/Channel.lean ====
section
/-! DEFINITION. The Channel Access Engine (spec/42_channel_access.md R190 to R199): READ_CH, WRITE_CH, READ_PORT,
WRITE_PORT, READ_GROUP, WRITE_GROUP, FLIP_CH. It touches `DATA` and its alias words only (R190). -/

namespace Sys2Proof.Machine

/-- The alias word of the pin a record names (R145). -/
def PinRecord.aliasWord (r : PinRecord) : Loc := .aliasBit r.p r.bit

/-! ### READ_CH (R191) -/

/-- `READ_CH pin` as the sequencer runs it. -/
def readChCommand (pin : BitVec 16) (arg : Word) : Command where
  cmd := cmdOf (.readCh pin arg)
  arg := arg
  isInit := false
  present := fun _ => true
  guards := [.init, .pin]
  body := fun par nports cfg =>
    match recordAt par nports cfg pin.toNat with
    | .error r => .error r
    | .ok r => .ok (accessBody [.load r.aliasWord] .level)

/-- `READ_CH pin`. -/
def execReadCh (pin : BitVec 16) (arg : Word) (s : State) : Host.Outcome State Fault Refusal :=
  call (readChCommand pin arg) s

/-! ### WRITE_CH (R192) -/

/-- `WRITE_CH pin, level` as the sequencer runs it. -/
def writeChCommand (l : Level) (pin : BitVec 16) (arg : Word) : Command where
  cmd := cmdOf (.writeCh l pin arg)
  arg := arg
  isInit := false
  present := fun _ => true
  guards := [.init, .pin]
  body := fun par nports cfg =>
    match recordAt par nports cfg pin.toNat with
    | .error r => .error r
    | .ok r => .ok (accessBody [.store r.aliasWord (.const (if l.bit then 1 else 0))] .zero)

/-- `WRITE_CH pin, level`. -/
def execWriteCh (l : Level) (pin : BitVec 16) (arg : Word) (s : State) : Host.Outcome State Fault Refusal :=
  call (writeChCommand l pin arg) s

/-! ### READ_PORT (R193) -/

/-- `READ_PORT port` as the sequencer runs it. -/
def readPortCommand (port : BitVec 16) (arg : Word) : Command where
  cmd := cmdOf (.readPort port arg)
  arg := arg
  isInit := false
  present := fun _ => true
  guards := [.init, .port]
  body := fun _ _ _ => .ok (accessBody [.load (.reg port.toNat .data)] .word)

/-- `READ_PORT port`. -/
def execReadPort (port : BitVec 16) (arg : Word) (s : State) : Host.Outcome State Fault Refusal :=
  call (readPortCommand port arg) s

/-! ### WRITE_PORT (R194) -/

/-- `WRITE_PORT port, value` as the sequencer runs it. -/
def writePortCommand (port : BitVec 16) (value : Word) : Command where
  cmd := cmdOf (.writePort port value)
  arg := value
  isInit := false
  present := fun _ => true
  guards := [.init, .port]
  body := fun _ _ _ => .ok (accessBody [.store (.reg port.toNat .data) (.const value)] .zero)

/-- `WRITE_PORT port, value`. -/
def execWritePort (port : BitVec 16) (value : Word) (s : State) : Host.Outcome State Fault Refusal :=
  call (writePortCommand port value) s

/-! ### READ_GROUP (R195) -/

/-- `READ_GROUP h` as the sequencer runs it. -/
def readGroupCommand (h : Word) : Command where
  cmd := cmdOf (.readGroup h)
  arg := h
  isInit := false
  present := fun _ => true
  guards := [.init, .ptr]
  body := fun par nports _ =>
    match groupAt par nports h with
    | .error r => .error r
    | .ok d => .ok (accessBody [.load (.reg d.p .data)] (.group d.m d.o))

/-- `READ_GROUP h`. -/
def execReadGroup (h : Word) (s : State) : Host.Outcome State Fault Refusal := call (readGroupCommand h) s

/-! ### WRITE_GROUP (R196) -/

/-- `WRITE_GROUP h, value` as the sequencer runs it: always two micro-ops. -/
def writeGroupCommand (value : BitVec 16) (h : Word) : Command where
  cmd := cmdOf (.writeGroup value h)
  arg := h
  isInit := false
  present := fun _ => true
  guards := [.init, .ptr]
  body := fun par nports _ =>
    match groupAt par nports h with
    | .error r => .error r
    | .ok d =>
      .ok (accessBody
        [.load (.reg d.p .data), .store (.reg d.p .data) (.putGroup d.m (value.setWidth 32) d.o)] .zero)

/-- `WRITE_GROUP h, value`. -/
def execWriteGroup (value : BitVec 16) (h : Word) (s : State) : Host.Outcome State Fault Refusal :=
  call (writeGroupCommand value h) s

/-! ### FLIP_CH (R197) -/

/-- `FLIP_CH pin` as the sequencer runs it: read, write, read; present with `HAS_FLIP`. -/
def flipChCommand (pin : BitVec 16) (arg : Word) : Command where
  cmd := cmdOf (.flipCh pin arg)
  arg := arg
  isInit := false
  present := fun par => par.hasFlip
  guards := [.init, .pin]
  body := fun par nports cfg =>
    match recordAt par nports cfg pin.toNat with
    | .error r => .error r
    | .ok r => .ok (accessBody [.load r.aliasWord, .store r.aliasWord .flip, .load r.aliasWord] .level)

/-- `FLIP_CH pin`. -/
def execFlipCh (pin : BitVec 16) (arg : Word) (s : State) : Host.Outcome State Fault Refusal :=
  call (flipChCommand pin arg) s

end Sys2Proof.Machine
end

