-- ==== Sys2Proof/Machine/PinConfig.lean ====
section
/-! DEFINITION. The Pin Configuration Engine (spec/41_pin_config.md R160 to R175): INIT, SET_DIR, SET_MODE, REFRESH_DIR. -/

namespace Sys2Proof.Machine

/-! ### The phases of a record -/

/-- Step 2, phase UNLOCK, of a protected pin: `U0`, then `SetBit(p, COMMIT, b)` (R167). -/
def unlockOps (par : Config) (p : Nat) (b : Bit) : List MicroOp :=
  .store (.reg p .lock) (.const par.unlockKey) :: setBitOps par p .commit b

/-- Step 4, phase RESP: the opposite bit is cleared first (R165). -/
def resistorOps (par : Config) (p : Nat) (b : Bit) : Resistor → List MicroOp
  | .pullUp => clrBitOps par p .pdr b ++ setBitOps par p .pur b
  | .pullDown => clrBitOps par p .pur b ++ setBitOps par p .pdr b
  | .none => clrBitOps par p .pur b ++ clrBitOps par p .pdr b

/-- Step 5, phase FUNCP: the function-select sequence (R166). -/
def functionOps (par : Config) (p : Nat) (b : Bit) (m : Mode) : List MicroOp :=
  match m with
  | .gpio =>
    clrBitOps par p .afen b ++ putNibbleOps p b m.wire ++ clrBitOps par p .amsel b ++ setBitOps par p .den b
  | .analog =>
    clrBitOps par p .afen b ++ putNibbleOps p b m.wire ++ setBitOps par p .amsel b ++ clrBitOps par p .den b
  | .alt _ =>
    setBitOps par p .afen b ++ putNibbleOps p b m.wire ++ clrBitOps par p .amsel b ++ setBitOps par p .den b

/-- Steps 2 to 5 of record `n`, a pin that is not reserved (R161). -/
def pinItems (par : Config) (n : Nat) (r : PinRecord) : List Item :=
  place n .unlock 0 (if par.isProtected r.p r.bit then unlockOps par r.p r.bit else []) ++
  place n .dirp 0 (putBitOps par r.p .dir r.bit r.direction.bit) ++
  place n .datap 0 (if r.direction = .output then putBitOps par r.p .data r.bit r.initial.bit else []) ++
  place n .resp 0 (if r.direction = .input then resistorOps par r.p r.bit r.resistor else []) ++
  place n .funcp 0 (functionOps par r.p r.bit r.mode)

/-- The items of record `n` in the INIT pass: step 1 always, the others unless the pin is reserved (R161, R163). -/
def recordItems (par : Config) (n : Nat) (r : PinRecord) : List Item :=
  place n .clk 0 (clkSetOps par r.p) ++ (if par.isReserved r.p r.bit then [] else pinItems par n r)

/-- The items of the INIT pass from record `n` on, in table order (R161). -/
def initItems (par : Config) (n : Nat) : List PinRecord → List Item
  | [] => []
  | r :: rs => recordItems par n r ++ initItems par (n + 1) rs

/-- `PutBit(p, DIR, b, v)` for one pin, nothing for a reserved one (R163, R172, R174). -/
def directionOps (par : Config) (r : PinRecord) (d : Dir) : List MicroOp :=
  if par.isReserved r.p r.bit then [] else putBitOps par r.p .dir r.bit d.bit

/-- The items of REFRESH_DIR from record `n` on (R174). -/
def refreshItems (par : Config) (n : Nat) : List PinRecord → List Item
  | [] => []
  | r :: rs => place n .dirp 0 (directionOps par r r.direction) ++ refreshItems par (n + 1) rs

/-! ### INIT (R161 to R171) -/

/-- The body of INIT over the records of its table. -/
def initBody (par : Config) (rs : List PinRecord) : Body where
  items := initItems par 0 rs
  finPos := finAt rs.length
  result := .zero

/-- `INIT h` as the sequencer runs it. -/
def initCommand (h : Word) : Command where
  cmd := cmdOf (.init h)
  arg := h
  isInit := true
  present := fun _ => true
  guards := [.cfg]
  body := fun par nports _ =>
    match tableAt par nports h with
    | .error r => .error r
    | .ok rs => .ok (initBody par rs)

/-- `INIT h`. -/
def execInit (h : Word) (s : State) : Host.Outcome State Fault Refusal := call (initCommand h) s

/-! ### SET_DIR (R172) -/

/-- The body of SET_DIR for the pin of record `r`. -/
def setDirBody (par : Config) (d : Dir) (r : PinRecord) : Body where
  items := place 0 .dirp 0 (directionOps par r d)
  finPos := finAt 0
  result := .zero

/-- `SET_DIR pin, direction` as the sequencer runs it. -/
def setDirCommand (d : Dir) (pin : BitVec 16) (arg : Word) : Command where
  cmd := cmdOf (.setDir d pin arg)
  arg := arg
  isInit := false
  present := fun _ => true
  guards := [.init, .pin, .dirCh]
  body := fun par nports cfg =>
    match recordAt par nports cfg pin.toNat with
    | .error r => .error r
    | .ok r => .ok (setDirBody par d r)

/-- `SET_DIR pin, direction`. -/
def execSetDir (d : Dir) (pin : BitVec 16) (arg : Word) (s : State) : Host.Outcome State Fault Refusal :=
  call (setDirCommand d pin arg) s

/-! ### SET_MODE (R173) -/

/-- The body of SET_MODE for the pin of record `r`: step 5 of INIT, unless the pin is reserved. -/
def setModeBody (par : Config) (m : Mode) (r : PinRecord) : Body where
  items := place 0 .funcp 0 (if par.isReserved r.p r.bit then [] else functionOps par r.p r.bit m)
  finPos := finAt 0
  result := .zero

/-- `SET_MODE pin, mode` as the sequencer runs it; present with `HAS_SET_MODE`. A code that is no mode never gets past
`G_MODE` (R134, R138). -/
def setModeCommand (code : Byte) (pin : BitVec 16) (arg : Word) : Command where
  cmd := cmdOf (.setMode code pin arg)
  arg := arg
  isInit := false
  present := fun par => par.hasSetMode
  guards := [.init, .pin, .modeCh, .mode]
  body := fun par nports cfg =>
    match recordAt par nports cfg pin.toNat with
    | .error r => .error r
    | .ok r =>
      match Mode.ofCode code with
      | some m => .ok (setModeBody par m r)
      | none => .error .undefinedAccess

/-- `SET_MODE pin, mode`. -/
def execSetMode (code : Byte) (pin : BitVec 16) (arg : Word) (s : State) : Host.Outcome State Fault Refusal :=
  call (setModeCommand code pin arg) s

/-! ### REFRESH_DIR (R174) -/

/-- The body of REFRESH_DIR over the records of the table `CFG` names. -/
def refreshBody (par : Config) (rs : List PinRecord) : Body where
  items := refreshItems par 0 rs
  finPos := finAt rs.length
  result := .zero

/-- `REFRESH_DIR` as the sequencer runs it. -/
def refreshDirCommand (arg : Word) : Command where
  cmd := cmdOf (.refreshDir arg)
  arg := arg
  isInit := false
  present := fun _ => true
  guards := [.init]
  body := fun par nports cfg =>
    match tableAt par nports cfg with
    | .error r => .error r
    | .ok rs => .ok (refreshBody par rs)

/-- `REFRESH_DIR`. -/
def execRefreshDir (arg : Word) (s : State) : Host.Outcome State Fault Refusal := call (refreshDirCommand arg) s

end Sys2Proof.Machine
end

