-- ==== Sys2Proof/Machine/Dispatch.lean ====
section
/-! DEFINITION. One arm per command of spec/opcode_table.json: the synchronous call of it. -/

namespace Sys2Proof.Machine

/-- The synchronous call of command `i` on context `s.cur`. -/
def exec (i : Instr) (s : State) : Host.Outcome State Fault Refusal :=
  match i with
  | .init h => Sys2Proof.Machine.execInit h s
  | .setDir d pin arg => Sys2Proof.Machine.execSetDir d pin arg s
  | .setMode code pin arg => Sys2Proof.Machine.execSetMode code pin arg s
  | .refreshDir arg => Sys2Proof.Machine.execRefreshDir arg s
  | .readCh pin arg => Sys2Proof.Machine.execReadCh pin arg s
  | .writeCh l pin arg => Sys2Proof.Machine.execWriteCh l pin arg s
  | .readPort port arg => Sys2Proof.Machine.execReadPort port arg s
  | .writePort port value => Sys2Proof.Machine.execWritePort port value s
  | .readGroup h => Sys2Proof.Machine.execReadGroup h s
  | .writeGroup value h => Sys2Proof.Machine.execWriteGroup value h s
  | .flipCh pin arg => Sys2Proof.Machine.execFlipCh pin arg s

end Sys2Proof.Machine
end

