-- ==== Sys2Proof/Machine/Events.lean ====
section
/-! DEFINITION. The events of an agenda at micro-step granularity (spec/40_sequencer_common.md R130, R131, R139, R150;
spec/20_memory.md R71, R76): one Issue, one own step of a context, one Complete, one ENV access; and how a call event is
fetched. -/

namespace Sys2Proof.Machine

/-- The command the sequencer runs for a decoded instruction. -/
def commandOf : Instr → Command
  | .init h => initCommand h
  | .setDir d pin arg => setDirCommand d pin arg
  | .setMode code pin arg => setModeCommand code pin arg
  | .refreshDir arg => refreshDirCommand arg
  | .readCh pin arg => readChCommand pin arg
  | .writeCh l pin arg => writeChCommand l pin arg
  | .readPort port arg => readPortCommand port arg
  | .writePort port value => writePortCommand port value
  | .readGroup h => readGroupCommand h
  | .writeGroup value h => writeGroupCommand value h
  | .flipCh pin arg => flipChCommand pin arg

/-- `Issue(c, cmd, arg)` (R130). -/
def issueEvent (c : Nat) (cmd arg : Word) (s : State) : Host.Outcome State Fault Refusal :=
  if s.canIssue c then
    match decode cmd arg with
    | .error _ => .next (issueIllegal c cmd arg s)
    | .ok i => .next (issue (commandOf i) c s)
  else .refused .eventNotEnabled

/-- The next own step of context `c` (R131). -/
def advanceEvent (c : Nat) (s : State) : Host.Outcome State Fault Refusal :=
  if (s.ctx c).running then
    match decode (s.ctx c).cmd (s.ctx c).arg with
    | .error _ => .refused .offProgram
    | .ok i => .next (ownStep (commandOf i) c s)
  else .refused .eventNotEnabled

/-- `Complete(c)` (R139). -/
def completeEvent (c : Nat) (s : State) : Host.Outcome State Fault Refusal :=
  if (s.ctx c).pos.ph = .finish then .next (complete c s) else .refused .eventNotEnabled

/-- One ENV access (R76): with the primitives' own semantics, clock fault and gates included. A read hands back its
value (R282). -/
def envEvent (a : EnvAccess) (s : State) : Host.Outcome State Fault Refusal :=
  if s.par.env then
    match a with
    | .read l =>
      match s.load l with
      | .error f => .next (s.markFault f)
      | .ok (v, s') => .next { s' with envReads := s'.envReads ++ [v] }
    | .write l v =>
      match s.store l v with
      | .error f => .next (s.markFault f)
      | .ok s' => .next s'
  else .refused .eventNotEnabled

/-- The synchronous call of a word pair that decodes to no command: Issue and Complete, no own step (R120, R232). -/
def callIllegal (cmd arg : Word) (s : State) : Host.Outcome State Fault Refusal :=
  if s.canIssue s.cur then .next (complete s.cur (issueIllegal s.cur cmd arg s)) else .refused .eventNotEnabled

/-- The lowest-numbered running context among `xs`, which start at context `c`. -/
def firstRunning (c : Nat) : List Ctx → Option Nat
  | [] => none
  | x :: xs => if x.running then some c else firstRunning (c + 1) xs

/-- What happens when the agenda is empty (log entry 4): the lowest-numbered running context takes its own step; with
none running the block waits for the first Issue (R260). -/
def idleStep (s : State) : Host.Outcome State Fault Refusal :=
  match firstRunning 0 s.ctxs with
  | some c => advanceEvent c s
  | none => .next s

/-- The state in which a call event of context `c` runs its command: the event is taken off the agenda. -/
def State.fetchCall (s : State) (c : Nat) (rest : List Event) : State := { s with agenda := rest, cur := c }

/-- The agenda with a call of `(cmd, arg)` on context `s.cur` put before everything else. -/
def State.pushCall (s : State) (cmd arg : Word) : State :=
  { s with agenda := .call s.cur cmd arg :: s.agenda }

end Sys2Proof.Machine
end

