-- ==== Sys2Proof/Machine/Step.lean ====
section
/-! DEFINITION. One step of the machine: the head of the agenda happens (spec/40_sequencer_common.md R150). A marked state
steps no more (spec/60_exceptions.md R230, R231). -/

namespace Sys2Proof.Machine

/-- A call event: the pair is decoded and the command run to its completion. -/
def stepCall (cmd arg : Word) (s : State) : Host.Outcome State Fault Refusal :=
  match decode cmd arg with
  | .error _ => callIllegal cmd arg s
  | .ok i => exec i s

/-- The event `e`, already off the agenda. -/
def stepEvent (e : Event) (rest : List Event) (s : State) : Host.Outcome State Fault Refusal :=
  match e with
  | .call c cmd arg => stepCall cmd arg (s.fetchCall c rest)
  | .issue c cmd arg => issueEvent c cmd arg { s with agenda := rest }
  | .advance c => advanceEvent c { s with agenda := rest }
  | .complete c => completeEvent c { s with agenda := rest }
  | .env a => envEvent a { s with agenda := rest }

/-- One step. -/
def step (s : State) : Host.Outcome State Fault Refusal :=
  match s.faulted, s.refused with
  | some f, _ => .fault f
  | none, some r => .refused r
  | none, none =>
    match s.agenda with
    | [] => idleStep s
    | e :: rest => stepEvent e rest s

/-- `s` with the instruction whose bits are `w` placed where the next step takes it from: a call event at the head of
the agenda (log entry 4). -/
def State.withFetchWord (s : State) (nbits w : Nat) : State :=
  s.pushCall (tableWords nbits w).1 (tableWords nbits w).2

end Sys2Proof.Machine
end

