-- ==== Sys2Proof/WellFormed.lean ====
section
/-! DEFINITION. Which commands a build has (spec/30_encoding.md R92, R101): `SET_MODE` only with `HAS_SET_MODE`,
`FLIP_CH` only with `HAS_FLIP`. Every other field is typed, so nothing else can be ill-formed. A command the build lacks
is an illegal command (R120). -/

namespace Sys2Proof

/-- The command exists in the build `par` (R92 "present when"). -/
def Instr.wellFormed (par : Config) : Instr → Bool
  | .setMode _ _ _ => par.hasSetMode
  | .flipCh _ _ => par.hasFlip
  | .init _ | .setDir _ _ _ | .refreshDir _ | .readCh _ _ | .writeCh _ _ _ | .readPort _ _ | .writePort _ _
  | .readGroup _ | .writeGroup _ _ => true

end Sys2Proof
end

