-- ==== Sys2Proof/Safety.lean ====
section
/-! DEFINITION. What claims speak of: the named premises of spec/70_reset_and_hazards.md R283, the end of a run (R151), the
state a command leaves when it has its effect, and the invariants of the machine. -/

namespace Sys2Proof.Machine

/-! ### Runs -/

/-- The run from `s` passes through `t`: the agenda of `s` is the schedule (log entry 4). -/
def Reaches (s t : State) : Prop := ∃ k, Host.Core.run Sys2Proof.core k s = .next t

/-- The word pair an event gives a context. -/
def Event.pair : Event → Option (Word × Word)
  | .call _ cmd arg | .issue _ cmd arg => some (cmd, arg)
  | .advance _ | .complete _ | .env _ => none

/-- The pair context `x` holds, if it is not idle. -/
def Ctx.pair (x : Ctx) : Option (Word × Word) := if x.pos.ph = .idle then none else some (x.cmd, x.arg)

/-- The commands of the run from `s`: those in flight and those on the agenda. -/
def State.pairs (s : State) : List (Word × Word) := s.ctxs.filterMap Ctx.pair ++ s.agenda.filterMap Event.pair

/-- The command the next step starts and its context: an enabled Issue or call at the head of the agenda (R130). -/
def State.starting (s : State) : Option (Nat × Word × Word) :=
  match s.agenda with
  | .call c cmd arg :: _ | .issue c cmd arg :: _ => if s.live && s.canIssue c then some (c, cmd, arg) else none
  | [] | .advance _ :: _ | .complete _ :: _ | .env _ :: _ => none

/-- The command context `c` has in flight: the one it holds, or the one the next step starts on it. -/
def State.commandOn (s : State) (c : Nat) : Option (Word × Word) :=
  match (s.ctx c).pair, s.starting with
  | some q, _ => some q
  | none, some (d, q) => if d = c then some q else none
  | none, none => none

/-- The word a micro-op accesses. -/
def MicroOp.loc : MicroOp → Loc
  | .load l | .store l _ | .update l _ => l

/-- The word is a register or an alias word of port `p`. -/
def Loc.onPort (p : Nat) : Loc → Bool
  | .reg q _ | .aliasBit q _ => q == p
  | .clken => false

/-- The command accesses port `p`: its guards let it through and some micro-op is on the port. -/
def Command.touches (k : Command) (s : State) (p : Nat) : Bool :=
  k.present s.par && !(s.par.guards && !(k.failing s).isEmpty) &&
    match k.bodyIn s with
    | .ok b => b.items.any fun item => item.2.loc.onPort p
    | .error _ => false

/-- Context `c` has a command in flight that accesses port `p`. -/
def State.touchesPort (s : State) (p c : Nat) : Bool :=
  match s.commandOn c with
  | none => false
  | some (cmd, arg) =>
    match decode cmd arg with
    | .ok i => (commandOf i).touches s p
    | .error _ => false

/-! ### Named premises (R283) -/

/-- `AtReset`: the state of R45 for some parameters and some draw, with any agenda: what the host and ENV will do and in
which order is no state of the block (R28, log entry 4). -/
def AtReset (s : State) : Prop := ∃ par d agenda, s = { State.resetWith par d with agenda := agenda }

/-- `NoFault` and `NoRefuse`. -/
abbrev Unmarked (s : State) : Prop := s.faulted = none ∧ s.refused = none

/-- `AllIdle`: nothing in flight. -/
abbrev AllIdle (s : State) : Prop := ∀ x ∈ s.ctxs, x.pos.ph = .idle

/-- A run has ended (R151): every command completed, every context idle, no mark. DESIGN CHOICE (log entry 18): the agenda
is empty, so that ENV accesses still scheduled after the last command hold off the end; R151 does not name them. -/
abbrev RunEnded (s : State) : Prop := s.agenda = [] ∧ AllIdle s ∧ Unmarked s

/-- The table `h` names, if any, is well-formed (R46). -/
def tableOk (s : State) (h : Word) : Bool :=
  (storeAt s.par.tables h).isNone || (tableAt s.par s.nports h).isOk

/-- The descriptor `h` names, if any, is well-formed (R47). -/
def groupOk (s : State) (h : Word) : Bool :=
  (storeAt s.par.groups h).isNone || (groupAt s.par s.nports h).isOk

/-- Whatever the handle operand of the command names is well-formed. -/
def handleOk (s : State) : Instr → Bool
  | .init h => tableOk s h
  | .readGroup h | .writeGroup _ h => groupOk s h
  | .setDir _ _ _ | .setMode _ _ _ | .refreshDir _ | .readCh _ _ | .writeCh _ _ _ | .readPort _ _ | .writePort _ _
  | .flipCh _ _ => true

/-- `WellFormedStores`: every table and descriptor a handle of the run names is well-formed; the handles are `CFG` and
those of the run's commands. -/
def wellFormedStores (s : State) : Bool :=
  tableOk s s.cfg && s.pairs.all fun q =>
    match decode q.1 q.2 with
    | .ok i => handleOk s i
    | .error _ => true

/-- One word pair is a command of the build (R120). -/
def Legal (par : Config) (cmd arg : Word) : Bool :=
  match decode cmd arg with
  | .ok i => i.wellFormed par
  | .error _ => false

/-- `Legal`: no command of the run is illegal. -/
def legalRun (s : State) : Bool := s.pairs.all fun q => Legal s.par q.1 q.2

/-- The word an ENV access touches. -/
def EnvAccess.loc : EnvAccess → Loc
  | .read l => l
  | .write l _ => l

/-- The two words share storage: they are the same, or one is `DATA` of a port and the other an alias word of it
(R40). -/
def Loc.overlaps : Loc → Loc → Bool
  | .reg p .data, .aliasBit q _ | .aliasBit p _, .reg q .data => p == q
  | l, m => l == m

/-- A command of a run by name: its context, and its place in that context's list of commands, counted from 0 by the
responses the context has given (R151: the next is issued only after the previous one completed). -/
structure CommandName where
  ctx : Nat
  place : Nat
  deriving DecidableEq, Repr

/-- How many commands of context `c` have completed. -/
def State.completed (s : State) (c : Nat) : Nat := (s.responses.filter fun r => r.ctx == c).length

/-- The command has completed. -/
def CommandName.done (q : CommandName) (s : State) : Bool := decide (q.place < s.completed q.ctx)

/-- The command is in flight: its context holds it, from Issue to Complete. -/
def CommandName.during (q : CommandName) (s : State) : Bool :=
  (s.ctx q.ctx).pos.ph != .idle && q.place == s.completed q.ctx

/-- The next step is this ENV access: its event heads the agenda and is enabled (R76). -/
def State.nextEnv (s : State) : Option EnvAccess :=
  match s.agenda with
  | .env a :: _ => if s.live && s.par.env then some a else none
  | [] | .call _ _ _ :: _ | .issue _ _ _ :: _ | .advance _ :: _ | .complete _ :: _ => none

/-- `EnvOff` for the commands `names` of the run from `s`: no ENV step while one of them is in flight. -/
def EnvOff (names : List CommandName) (s : State) : Prop :=
  ∀ t, Reaches s t → ∀ a, t.nextEnv = some a → ∀ q ∈ names, q.during t = false

/-- `EnvQuiet(X)` for the commands `names` of the run from `s`: no ENV step that touches a word of `X`, under either of
its names, while one of them is in flight. -/
def EnvQuiet (xs : List Loc) (names : List CommandName) (s : State) : Prop :=
  ∀ t, Reaches s t → ∀ a, t.nextEnv = some a → ∀ q ∈ names, q.during t = true → xs.any a.loc.overlaps = false

/-- The same during and between the commands `names`, as the laws of R198 ask: from when one of them has been issued until
all have completed. -/
def EnvQuietBetween (xs : List Loc) (names : List CommandName) (s : State) : Prop :=
  ∀ t, Reaches s t → ∀ a, t.nextEnv = some a →
    (names.any fun q => q.during t || q.done t) = true → (names.all fun q => q.done t) = false →
    xs.any a.loc.overlaps = false

/-- `Serial`: at no point of the run from `s` are two commands in flight. -/
def Serial (s : State) : Prop :=
  ∀ t, Reaches s t → ∀ c d, c ≠ d → t.commandOn c = none ∨ t.commandOn d = none

/-- `SerialOn(p)`: at no point of the run from `s` are two commands in flight that access port `p`. -/
def SerialOn (p : Nat) (s : State) : Prop :=
  ∀ t, Reaches s t → ∀ c d, c ≠ d → t.touchesPort p c = false ∨ t.touchesPort p d = false

/-- The clock of a port that exists is on, in this state. -/
abbrev Clocked (s : State) (p : Nat) : Prop := p < s.nports ∧ s.clken.getLsbD p = true

/-- `Clocked(p)`: the clock of the port is on throughout the run from `s`. -/
def ClockedThroughout (p : Nat) (s : State) : Prop := ∀ t, Reaches s t → Clocked t p

/-- The next step issues an `INIT`, alone or in a call. -/
def State.startsInit (s : State) : Bool := s.starting.any fun x => x.2.1 == initWord

/-- The next step completes an `INIT h` whose guard held: its Complete, or the call of it. -/
def State.completesInit (h : Word) (s : State) : Bool :=
  s.live && match s.agenda with
  | .complete c :: _ =>
    (s.ctx c).pos.ph == .finish && (s.ctx c).cmd == initWord && (s.ctx c).arg == h && !(s.ctx c).failf
  | .call c cmd arg :: _ => s.canIssue c && cmd == initWord && arg == h && h != nullHandle
  | [] | .issue _ _ _ :: _ | .advance _ :: _ | .env _ :: _ => false

/-- A run from `s` in which no step issues an `INIT`. -/
inductive RunsWithoutInit (s : State) : State → Prop where
  | refl : RunsWithoutInit s s
  | tail {t u : State} : RunsWithoutInit s t → t.startsInit = false → step t = .next u → RunsWithoutInit s u

/-- `InitDone(h)` at `s`, in the run from the reset state `r`: that run passes through a state `a` whose step completes an
`INIT h` with its guard holding, and goes on to `s` without an `INIT` being issued, not even one that only reports or is
still in flight. So the module is initialized and `CFG` is `h`, which is said too. -/
def InitDone (r : State) (h : Word) (s : State) : Prop :=
  AtReset r ∧ s.mstate = .initialized ∧ s.cfg = h ∧
    ∃ a b, Reaches r a ∧ a.completesInit h = true ∧ step a = .next b ∧ Unmarked b ∧ RunsWithoutInit b s

/-! ### Premises on one state -/

/-- Context `s.cur` can take a command other than `INIT`: no mark, the context is idle, no other context holds an
`INIT` (R130, R149). -/
abbrev Ready (s : State) : Prop :=
  Unmarked s ∧ s.canIssue s.cur = true ∧ (s.others s.cur).any Ctx.holdsInit = false

/-- Context `s.cur` can take an `INIT`: no mark, the context is idle, and so is every other (R130, R149). -/
abbrev ReadyForInit (s : State) : Prop :=
  Unmarked s ∧ s.canIssue s.cur = true ∧ (s.others s.cur).any (fun x => x.pos.ph != .idle) = false

/-- Every pin that is not in `PROTECTED` has its commit bit set, as reset leaves it and every command keeps it (R38). -/
abbrev CommitOpen (s : State) : Prop :=
  ∀ p < s.nports, ∀ b : Bit, s.par.isProtected p b = false → (s.port p).commit.getLsbD b.val = true

/-! ### What a command leaves -/

/-- `Writable(p, b, K)` (R66). -/
def State.isWritable (s : State) (p : Nat) (k : Kind) (b : Bit) : Bool :=
  ((s.port p).writable s.par k).getLsbD b.val

/-- A configuration byte after bit `b` was put to `v`, if it is writable (R57, R140, R141). -/
def gatedPut (w : Bool) (old : Byte) (b : Bit) (v : Bool) : Byte := if w then putByteBit old b v else old

/-- `s` after command `i` completed on context `s.cur` with its effect on registers already in `s`: the context is idle
at `fin` with `i` latched, `TMP` and `RES` as given, and the host has `(RES, 0)` (R130, R139). -/
def State.answered (s : State) (i : Instr) (fin : Pos) (tmp res : Word) : State :=
  { s.setCtx s.cur
      { pos := { fin with ph := .idle }, cmd := cmdOf i, arg := argOf i, tmp := tmp, res := res, failf := false,
        ill := false } with
    responses := s.responses ++ [⟨s.cur, res, false⟩] }

/-- `s` after command `i` completed on context `s.cur` with a failed guard: the reports `ws` were made, `FAILF` is set,
`RES = 0`, the host has `(0, 0)`, and nothing else moved (R137, R225). -/
def State.degraded (s : State) (i : Instr) (ws : List Word) : State :=
  { s.setCtx s.cur
      { pos := { finAt 0 with ph := .idle }, cmd := cmdOf i, arg := argOf i, tmp := (s.ctx s.cur).tmp, res := 0,
        failf := true, ill := false } with
    diag := s.diag ++ ws
    responses := s.responses ++ [⟨s.cur, 0, false⟩] }

/-- `s` after an illegal command `(cmd, arg)` completed on context `s.cur`: `RES = 0`, `ILL = 1`, the host has `(0, 1)`,
and nothing else moved (R120, R232). -/
def State.answeredIllegal (s : State) (cmd arg : Word) : State :=
  { s.setCtx s.cur
      { pos := ⟨0, .idle, 0⟩, cmd := cmd, arg := arg, tmp := (s.ctx s.cur).tmp, res := 0, failf := false, ill := true } with
    responses := s.responses ++ [⟨s.cur, 0, true⟩] }

/-- `s` after the GUARD step of command `i` on context `s.cur` refused the launch: the pair is latched, the mark is set
and there is no response (R130, R231). DESIGN CHOICE (log entry 10): nothing else moved, `CFG` among it. -/
def State.refusedAtGuard (s : State) (i : Instr) (r : Refusal) : State :=
  { s.setCtx s.cur
      { s.ctx s.cur with pos := ⟨0, .guard, 0⟩, cmd := cmdOf i, arg := argOf i, failf := false, ill := false } with
    refused := some r }

/-- The seven configuration kinds agree on pin `(p, b)` in two states: six bits and the pin's nibble of `MUXSEL`. -/
abbrev samePinConfig (s t : State) (p : Nat) (b : Bit) : Prop :=
  (t.port p).dir.getLsbD b.val = (s.port p).dir.getLsbD b.val ∧
  (t.port p).afen.getLsbD b.val = (s.port p).afen.getLsbD b.val ∧
  (t.port p).pur.getLsbD b.val = (s.port p).pur.getLsbD b.val ∧
  (t.port p).pdr.getLsbD b.val = (s.port p).pdr.getLsbD b.val ∧
  (t.port p).den.getLsbD b.val = (s.port p).den.getLsbD b.val ∧
  (t.port p).amsel.getLsbD b.val = (s.port p).amsel.getLsbD b.val ∧
  (t.port p).muxsel.extractLsb' (4 * b.val) 4 = (s.port p).muxsel.extractLsb' (4 * b.val) 4

/-- Two states agree on everything but the surface, the contexts, the responses and the model's own fields: no report,
no change of module state, no mark. -/
abbrev sameModule (s t : State) : Prop :=
  t.par = s.par ∧ t.mstate = s.mstate ∧ t.cfg = s.cfg ∧ t.diag = s.diag ∧ t.faulted = s.faulted ∧
  t.refused = s.refused ∧ t.envReads = s.envReads ∧ t.agenda = s.agenda ∧ t.cur = s.cur ∧ t.draws = s.draws ∧
  t.nports = s.nports

/-- The last record of pin `(p, b)` in the table that has `f`, in table order (R46, R171 a). -/
def lastRecord (p : Nat) (b : Bit) (f : PinRecord → Bool) : List PinRecord → Option PinRecord
  | [] => none
  | r :: rs =>
    match lastRecord p b f rs with
    | some r' => some r'
    | none => if r.p = p ∧ r.bit = b ∧ f r = true then some r else none

/-- Every record. -/
def anyRecord (_ : PinRecord) : Bool := true

/-- The records with direction `d`. -/
def hasDirection (d : Dir) (r : PinRecord) : Bool := r.direction == d

/-- No two records name the same pin (R46, R262). -/
abbrev UniquePins (rs : List PinRecord) : Prop := (rs.map fun r => (r.port, r.bit)).Nodup

/-- No later record of its pin that has `f` overrules record `r`: so with unique pins, and for the last such record of the
pin otherwise. -/
abbrev NotOverruled (rs : List PinRecord) (f : PinRecord → Bool) (r : PinRecord) : Prop :=
  UniquePins rs ∨ lastRecord r.p r.bit f rs = some r

/-- The own steps of command `k` issued in state `s`, Issue and Complete excluded (R280): none for an illegal command,
GUARD and FIN for a failed guard, else GUARD, the micro-ops and FIN. -/
def ownSteps (k : Command) (s : State) : Nat :=
  if k.present s.par then
    if s.par.guards && !(k.failing s).isEmpty then 2
    else
      match k.bodyIn s with
      | .ok b => b.items.length + 2
      | .error _ => 1
  else 0

/-! ### Invariants -/

/-- The position of a context is one its micro-program has (R25, R131). -/
def onProgram (s : State) (x : Ctx) : Prop :=
  match x.pos.ph with
  | .idle | .finish => True
  | .guard => x.pos = ⟨0, .guard, 0⟩ ∧ x.failf = false ∧ Legal s.par x.cmd x.arg = true
  | .clk | .unlock | .dirp | .datap | .resp | .funcp | .access =>
    ∃ i, decode x.cmd x.arg = .ok i ∧ i.wellFormed s.par = true ∧
      if x.failf then x.pos = finAt 0
      else ∃ b, (commandOf i).bodyIn s = .ok b ∧ (x.pos = b.finPos ∨ ∃ op, (x.pos, op) ∈ b.items) ∧
        ((commandOf i).isInit = true → s.cfg = x.arg)

/-- `REC` stops at `NPINS` and `SUB` is at most 7 (R25). -/
abbrev posBounded (par : Config) (x : Ctx) : Prop := x.pos.record ≤ par.npins ∧ x.pos.sub ≤ 7

/-- The context holds no command that could run: it is idle, or holds an illegal command that has finished, which
Issue admits at any time (R130). -/
def Ctx.quiet (x : Ctx) : Bool := x.pos.ph == .idle || (x.pos.ph == .finish && x.ill)

/-- An `INIT` in flight is alone (R149). -/
abbrev InitExclusive (s : State) : Prop :=
  ∀ c < s.nctx, (s.ctx c).holdsInit = true → (s.others c).all Ctx.quiet = true

/-- The machine's invariant: every context stands inside its micro-program, positions are bounded, an `INIT` is alone,
and once initialized `CFG` names a well-formed table (R21, R22, R25, R131, R149). -/
def Inv (s : State) : Prop :=
  (∀ x ∈ s.ctxs, onProgram s x ∧ posBounded s.par x) ∧ InitExclusive s ∧
  (s.mstate = .initialized → (tableAt s.par s.nports s.cfg).isOk = true)

end Sys2Proof.Machine
end

