-- ==== Sys2Proof/Certificates/Slice0/Obligations.lean ====
section
/-! DEFINITION. The statements for the provers, from the numbered rules of spec/. -/

open Sys2Proof Sys2Proof.Machine

/-! ### Encodings -/

/-- Every command, with every operand at every value, is what its own words decode to, and a word pair that decodes is
the encoding of what it decodes to (R90 to R101). -/
def Obligations.EncodedCommandsDecodeToThemselves : Prop :=
  (∀ i : Instr, decode (cmdOf i) (argOf i) = .ok i) ∧
  ∀ (cmd arg : Word) (i : Instr), decode cmd arg = .ok i → cmdOf i = cmd ∧ argOf i = arg

/-- The words the decoder takes are exactly those that match a row of spec/opcode_table.json, whatever `ARG` is (R101,
R120, R121); the rows of `SET_MODE` and `FLIP_CH` are present with their build option (R92). -/
def Obligations.LegalWordsAreTheTableRows : Prop :=
  ∀ (par : Config) (cmd arg : Word),
    Legal par cmd arg = true ↔
      ([(0x01000000, 0xFFFFFFFF), (0x02000000, 0xFFFE0000), (0x04000000, 0xFFFFFFFF), (0x10000000, 0xFFFF0000),
        (0x11000000, 0xFFFE0000), (0x12000000, 0xFFFF0000), (0x13000000, 0xFFFF0000), (0x14000000, 0xFFFFFFFF),
        (0x15000000, 0xFFFF0000)] : List (Word × Word)).any (fun r => cmd &&& r.2 == r.1) = true ∨
      (par.hasSetMode = true ∧ cmd &&& 0xFF000000 = 0x03000000) ∨
      (par.hasFlip = true ∧ cmd &&& 0xFFFF0000 = 0x16000000)

/-- Words written out from spec/95_test_vectors.md section 2.1. -/
def Obligations.WrittenOutWordsDecode : Prop :=
  decode 0x01000000 0x00001000 = .ok (.init 0x1000) ∧
  decode 0x02010003 0 = .ok (.setDir .output 3 0) ∧
  decode 0x03070002 0 = .ok (.setMode 7 2 0) ∧
  decode 0x04000000 5 = .ok (.refreshDir 5) ∧
  decode 0x10000005 0xDEADBEEF = .ok (.readCh 5 0xDEADBEEF) ∧
  decode 0x11010005 0 = .ok (.writeCh .high 5 0) ∧
  decode 0x15000003 0x00003100 = .ok (.writeGroup 3 0x3100) ∧
  decode 0x02020000 0 = .error .valueTooLarge ∧
  decode 0x10010000 0 = .error .mustBeZero ∧
  decode 0x05000000 0 = .error (.unusedOpcode 5)

/-- The record word and the record are two forms of one thing, and a word decodes exactly when `RES` is not 3, `MODE`
is at most `MODE_MAX` and bits 31 to 25 are zero (R105, R106). -/
def Obligations.RecordWordsRoundTrip : Prop :=
  (∀ (w : Word) (r : PinRecord), PinRecord.ofWord w = some r → r.word = w) ∧
  (∀ r : PinRecord, r.mode ≠ .alt 0 → PinRecord.ofWord r.word = some r) ∧
  ∀ w : Word, (PinRecord.ofWord w).isSome = true ↔
    w.extractLsb' 20 2 ≠ 3#2 ∧ (w.extractLsb' 8 8).toNat ≤ modeMax ∧ w.extractLsb' 25 7 = 0#7

/-- `width(m)` is the position of the highest set bit plus one, and a descriptor is well-formed as R47 says. -/
def Obligations.DescriptorWellFormedness : Prop :=
  maskWidth 0 = 0 ∧
  (∀ m : Byte, m ≠ 0 →
    ∃ j, maskWidth m = j + 1 ∧ m.getLsbD j = true ∧ ∀ i, j < i → m.getLsbD i = false) ∧
  ∀ (d : Descriptor) (n : Nat),
    d.wellFormed n = true ↔ d.port.toNat < n ∧ d.mask.toNat ≤ 0xFF ∧ d.offset.toNat ≤ 7 ∧
      d.offset.toNat + maskWidth d.mask ≤ 8

/-! ### The access primitives -/

/-- `RegRead` (R56): the zero-extended usable bits, the whole `MUXSEL`; no state changes. The `LOCK` clause is the
model's choice (log entry 6): the draw of R37 is the free value of the draw counter, and the counter, a field of the
model's own, advances. -/
def Obligations.RegReadReturnsTheStoredWord : Prop :=
  ∀ (s : State) (p : Nat), Clocked s p →
    regRead s p .data = .ok ((s.port p).data.setWidth 32, s) ∧
    regRead s p .dir = .ok ((s.port p).dir.setWidth 32, s) ∧
    regRead s p .afen = .ok ((s.port p).afen.setWidth 32, s) ∧
    regRead s p .pur = .ok ((s.port p).pur.setWidth 32, s) ∧
    regRead s p .pdr = .ok ((s.port p).pdr.setWidth 32, s) ∧
    regRead s p .den = .ok ((s.port p).den.setWidth 32, s) ∧
    regRead s p .commit = .ok ((s.port p).commit.setWidth 32, s) ∧
    regRead s p .amsel = .ok ((s.port p).amsel.setWidth 32, s) ∧
    regRead s p .muxsel = .ok ((s.port p).muxsel, s) ∧
    regRead s p .lock = .ok (Config.freeWord s.draws, { s with draws := s.draws + 1 })

/-- `RegWrite` (R57), bit by bit: what each kind stores, and that nothing else of the machine changes. -/
def Obligations.RegWriteStoresWhatIsWritable : Prop :=
  ∀ (s : State) (p : Nat) (k : Kind) (v : Word), Clocked s p →
    ∃ t, regWrite s p k v = .ok t ∧ t = s.setPort p (t.port p) ∧
      (∀ k', k' ≠ k → (t.port p).stored k' = (s.port p).stored k') ∧
      (k = .lock → ((t.port p).locked = false ↔ v = s.par.unlockKey)) ∧
      (k = .commit → (t.port p).commit = if (s.port p).locked then (s.port p).commit else v.setWidth 8) ∧
      (k = .data → (t.port p).data = v.setWidth 8) ∧
      (k = .dir ∨ k = .afen ∨ k = .pur ∨ k = .pdr ∨ k = .den ∨ k = .amsel → ∀ b : Bit,
        ((t.port p).stored k).getLsbD b.val =
          if s.par.gates k = false ∨ (s.port p).commit.getLsbD b.val = true then v.getLsbD b.val
          else ((s.port p).stored k).getLsbD b.val) ∧
      (k = .muxsel → ∀ b : Bit,
        (t.port p).muxsel.extractLsb' (4 * b.val) 4 =
          if s.par.gates .muxsel = false ∨ (s.port p).commit.getLsbD b.val = true then v.extractLsb' (4 * b.val) 4
          else (s.port p).muxsel.extractLsb' (4 * b.val) 4)

/-- The clock check (R65, R230): an access to a register or alias word of a port whose clock bit is 0 is
`Fault(ClockOff(p))`, and a micro-op that makes one sets the mark and changes nothing else. -/
def Obligations.UnclockedAccessFaults : Prop :=
  ∀ (s : State) (p : Nat) (l : Loc) (v : Word), p < s.nports → s.clken.getLsbD p = false →
    ((∃ k, l = .reg p k) ∨ ∃ b, l = .aliasBit p b) →
    s.load l = .error (.clockOff p) ∧ s.store l v = .error (.clockOff p) ∧
    ∀ (c : Nat) (q : Pos) (d : Datum),
      itemStep c (.load l) q s = s.markFault (.clockOff p) ∧
      itemStep c (.store l d) q s = s.markFault (.clockOff p) ∧
      itemStep c (.update l d) q s = s.markFault (.clockOff p)

/-- A port or group command on a port whose clock bit is 0 (R190, R65, R230): the call ends marked
`Fault(ClockOff(p))`, with no response, and no register, report or module state has changed. -/
def Obligations.UnclockedPortCommandsFault : Prop :=
  ∀ (s : State) (i : Instr) (p : Nat), Ready s → s.mstate = .initialized → p < s.nports → s.clken.getLsbD p = false →
    ((∃ port a, port.toNat = p ∧ (i = .readPort port a ∨ i = .writePort port a)) ∨
      ∃ h d v, groupAt s.par s.nports h = .ok d ∧ d.p = p ∧ (i = .readGroup h ∨ i = .writeGroup v h)) →
    ∃ t, exec i s = .next t ∧ t.faulted = some (.clockOff p) ∧ t.ports = s.ports ∧ t.clken = s.clken ∧
      t.diag = s.diag ∧ t.mstate = s.mstate ∧ t.cfg = s.cfg ∧ t.responses = s.responses ∧
      ∀ c, c ≠ s.cur → t.ctx c = s.ctx c

/-- The lock state machine (R67): a write to `LOCK[p]` unlocks with the key and locks with any other value, from
either state; no write to another word moves it; after reset every port is locked. -/
def Obligations.LockMovesOnlyOnLockWrites : Prop :=
  (∀ (s : State) (p : Nat) (v : Word), Clocked s p →
    ∃ t, regWrite s p .lock v = .ok t ∧ (t.port p).locked = !(v == s.par.unlockKey)) ∧
  (∀ (s t : State) (p : Nat) (l : Loc) (v : Word), l ≠ .reg p .lock → s.store l v = .ok t →
    (t.port p).locked = (s.port p).locked) ∧
  ∀ (par : Config) (d : ResetDraw) (p : Nat), ((State.resetWith par d).port p).locked = true

/-- Commit (R68): while locked a `COMMIT` write stores nothing; the three micro-ops of the protocol make the protected
fields of `(p, b)` writable. -/
def Obligations.KeyThenCommitMakesAPinWritable : Prop :=
  (∀ (s : State) (p : Nat) (v : Word), Clocked s p → (s.port p).locked = true → regWrite s p .commit v = .ok s) ∧
  ∀ (s : State) (p : Nat) (b : Bit), Clocked s p →
    ∃ t u w, regWrite s p .lock s.par.unlockKey = .ok t ∧
      regRead t p .commit = .ok (u, t) ∧
      regWrite t p .commit (setBitIn u b.val) = .ok w ∧
      (∀ k, w.isWritable p k b = true) ∧
      ∀ b' : Bit, b' ≠ b → (w.port p).commit.getLsbD b'.val = (s.port p).commit.getLsbD b'.val

/-- The alias view (R60, R61): a read returns 0 or 1, the data bit; a write takes bit 0 of the word and changes that
data bit and nothing else. -/
def Obligations.AliasWordsReachOneDataBit : Prop :=
  ∀ (s : State) (p : Nat) (b : Bit) (v : Word), Clocked s p →
    aliasRead s p b = .ok (if (s.port p).data.getLsbD b.val then 1 else 0) ∧
    ∃ t, aliasWrite s p b v = .ok t ∧
      t = s.setPort p { s.port p with data := (t.port p).data } ∧
      (t.port p).data.getLsbD b.val = v.getLsbD 0 ∧
      ∀ b' : Bit, b' ≠ b → (t.port p).data.getLsbD b'.val = (s.port p).data.getLsbD b'.val

/-- `CLKEN` is plain storage of 32 bits, always accessible (R58, R59). -/
def Obligations.ClkenIsPlainStorage : Prop :=
  ∀ (s : State) (v : Word),
    s.load .clken = .ok (s.clken, s) ∧ s.store .clken v = .ok (clkWrite s v) ∧ clkRead (clkWrite s v) = v ∧
    ∀ p, (clkWrite s v).port p = s.port p

/-- The numeric map (R12, R53): under its constraints, an access by address is the access to the word mapped there.
That addresses have 32 bits and their sums wrap is the model's choice (log entry 17). -/
def Obligations.NumericMapReachesTheSameWords : Prop :=
  ∀ (s : State) (l : Loc) (v : Word), addressMapOk s.par.addr s.nports → l ∈ allLocs s.nports →
    memRead s (addrOf s.par.addr l) = s.load l ∧ memWrite s (addrOf s.par.addr l) v = s.store l v

/-- A step of `ENV` (R76, R282): one access with the primitives' own semantics, taken when its event heads the agenda
(log entry 4). A read hands its value to `ENV` and changes no register; a write stores what the primitive stores,
gates included; an access to an unclocked port marks `Fault(ClockOff(p))` and changes nothing else (R65, R230). With
`ENV` off there is no such step. -/
def Obligations.EnvAccessesUseThePrimitives : Prop :=
  ∀ (s : State) (l : Loc) (v : Word) (rest : List Event), Unmarked s →
    let s' : State := { s with agenda := rest }
    (s.par.env = true → s.agenda = .env (.read l) :: rest →
      (∀ w t, s'.load l = .ok (w, t) →
        step s = .next { t with envReads := s.envReads ++ [w] } ∧ t.ports = s.ports ∧ t.clken = s.clken) ∧
      ∀ f, s'.load l = .error f → step s = .next (s'.markFault f)) ∧
    (s.par.env = true → s.agenda = .env (.write l v) :: rest →
      (∀ t, s'.store l v = .ok t → step s = .next t) ∧
      ∀ f, s'.store l v = .error f → step s = .next (s'.markFault f)) ∧
    (∀ p k, l = .reg p k → Clocked s p → s'.store l v = .ok (s'.setPort p ((s.port p).write s.par k v))) ∧
    (∀ p, (∃ k, l = .reg p k) ∨ (∃ b, l = .aliasBit p b) → p < s.nports → s.clken.getLsbD p = false →
      s'.load l = .error (.clockOff p) ∧ s'.store l v = .error (.clockOff p)) ∧
    (s.par.env = false → ∀ a, s.agenda = .env a :: rest → step s = .refused .eventNotEnabled)

/-! ### The read-modify-write formulas -/

/-- `PutNibble` is one read and one write of `MUXSEL`, and its formula clears exactly the four bits of the pin and
puts the code there; the rule's worked example (R143). -/
def Obligations.PutNibbleChangesOneNibble : Prop :=
  (∀ (t : Word) (b : Bit) (c : BitVec 4) (i : Nat), i < 32 →
    (putNibbleIn t b c).getLsbD i = if i / 4 = b.val then c.getLsbD (i % 4) else t.getLsbD i) ∧
  (∀ (p : Nat) (b : Bit) (c : BitVec 4),
    putNibbleOps p b c = [.load (.reg p .muxsel), .store (.reg p .muxsel) (.putNibble b c)] ∧
    ∀ t : Word, (Datum.putNibble b c).eval t = putNibbleIn t b c) ∧
  putNibbleIn 0x87654321 2 0xA = 0x87654A21

/-! ### The sequencer -/

/-- A call event whose pair decodes runs exec of the decoded command on the named context, the event off the agenda.
That a call is one event of the agenda is the model's choice (log entry 4). -/
def Obligations.StepRunsTheDecodedCommand : Prop :=
  ∀ (s : State) (c : Nat) (cmd arg : Word) (rest : List Event) (i : Instr), Unmarked s →
    s.agenda = .call c cmd arg :: rest → decode cmd arg = .ok i →
    step s = exec i { s with agenda := rest, cur := c }

/-- An illegal pair (R120, R232): the call completes with `RES = 0`, `ILL = 1`, and nothing else changes. The call
event is the model's choice (log entry 4). -/
def Obligations.IllegalPairsCompleteWithIll : Prop :=
  ∀ (s : State) (c : Nat) (cmd arg : Word) (rest : List Event), Unmarked s →
    s.agenda = .call c cmd arg :: rest → s.canIssue c = true → Legal s.par cmd arg = false →
    step s = .next ((s.fetchCall c rest).answeredIllegal cmd arg)

/-- Issue of a pair (R130, R149): illegal, clashing with an `INIT`, or on to GUARD with the pair latched. -/
def Obligations.IssueLatchesThePair : Prop :=
  ∀ (s : State) (c : Nat) (cmd arg : Word) (rest : List Event), Unmarked s →
    s.agenda = .issue c cmd arg :: rest → s.canIssue c = true →
    (Legal s.par cmd arg = false →
      step s = .next ({ s with agenda := rest }.setCtx c
        { pos := ⟨0, .finish, 0⟩, cmd := cmd, arg := arg, tmp := (s.ctx c).tmp, res := 0, failf := false,
          ill := true })) ∧
    (Legal s.par cmd arg = true → initClash (cmd == initWord) c s = true →
      step s = .next ({ s with agenda := rest }.markFault .initReentered)) ∧
    (Legal s.par cmd arg = true → initClash (cmd == initWord) c s = false →
      step s = .next ({ s with agenda := rest }.setCtx c
        { pos := ⟨0, .guard, 0⟩, cmd := cmd, arg := arg, tmp := (s.ctx c).tmp, res := (s.ctx c).res, failf := false,
          ill := false }))

/-- What an overlap is (R149): an `INIT` while some other context is not idle, or any command while some other context
holds an `INIT`. Such an Issue, and such a call, is `Fault(InitReentered)` and changes nothing else (R230). -/
def Obligations.OverlappingInitFaults : Prop :=
  (∀ (isInit : Bool) (c : Nat) (s : State), initClash isInit c s = true ↔
    ∃ d x, d ≠ c ∧ s.ctxs[d]? = some x ∧ x.pos.ph ≠ .idle ∧ (isInit = true ∨ x.cmd = initWord)) ∧
  ∀ (i : Instr) (s : State), Unmarked s → s.canIssue s.cur = true → i.wellFormed s.par = true →
    initClash (commandOf i).isInit s.cur s = true → exec i s = .next (s.markFault .initReentered)

/-- Complete (R139): the host gets `(RES, ILL)`, the context is idle, nothing else changes. -/
def Obligations.CompleteHandsOverTheResponse : Prop :=
  ∀ (s : State) (c : Nat) (rest : List Event), Unmarked s → s.agenda = .complete c :: rest →
    (s.ctx c).pos.ph = .finish →
    step s = .next
      { s.setCtx c { s.ctx c with pos := { (s.ctx c).pos with ph := .idle } } with
        agenda := rest
        responses := s.responses ++ [⟨c, (s.ctx c).res, (s.ctx c).ill⟩] }

/-- A synchronous call that ends unmarked is its own micro-steps taken one after another: Issue, `ownSteps` own steps,
Complete (R131, R139, R280). The agenda is the model's choice (log entry 4). -/
def Obligations.CallIsItsMicroSteps : Prop :=
  ∀ (i : Instr) (s t : State) (rest : List Event), exec i s = .next t → Unmarked t →
    Host.Core.run Sys2Proof.core (ownSteps (commandOf i) s + 2)
      { s with
        agenda := .issue s.cur (cmdOf i) (argOf i) ::
          (List.replicate (ownSteps (commandOf i) s) (.advance s.cur) ++ .complete s.cur :: rest) } =
      .next { t with agenda := rest }

/-- The numbers of micro-ops (R280). -/
def Obligations.MicroOpCounts : Prop :=
  ∀ (par : Config) (n p : Nat) (b : Bit) (k : Kind) (v : Bool) (c : BitVec 4) (m : Mode) (r : PinRecord)
    (res : Resistor),
    let two := if par.atomicBitops then 1 else 2
    (setBitOps par p k b).length = two ∧ (clrBitOps par p k b).length = two ∧ (putBitOps par p k b v).length = two ∧
    (clkSetOps par p).length = two ∧ (putNibbleOps p b c).length = 2 ∧ (unlockOps par p b).length = 1 + two ∧
    (resistorOps par p b res).length = 2 * two ∧ (functionOps par p b m).length = 3 * two + 2 ∧
    (par.isReserved r.p r.bit = true → (recordItems par n r).length = two) ∧
    (par.isReserved r.p r.bit = false →
      (recordItems par n r).length =
        (if par.isProtected r.p r.bit then 1 + two else 0) +
          (if r.direction = .output then 3 * two else 4 * two) + (3 * two + 2))

/-- A command one of whose guards fails, with `GUARDS` on: its reports, `FAILF`, the default result 0, and no access
and no other change (R132, R133, R137, R225). -/
def Obligations.FailedGuardsOnlyReport : Prop :=
  ∀ (i : Instr) (s : State), Unmarked s → s.canIssue s.cur = true → i.wellFormed s.par = true →
    initClash (commandOf i).isInit s.cur s = false → s.par.guards = true → (commandOf i).failing s ≠ [] →
    exec i s = .next (s.degraded i (reportsOf s.par (cmdOf i) ((commandOf i).failing s)))

/-- Before initialization every command but `INIT` only reports, `Uninitialized` first (R240, R135, R198 e). -/
def Obligations.UninitializedCommandsOnlyReport : Prop :=
  ∀ (i : Instr) (s : State), Ready s → i.wellFormed s.par = true → s.par.guards = true →
    s.mstate = .notInitialized → (∀ h, i ≠ .init h) →
    ∃ more, exec i s = .next (s.degraded i (reportWord (cmdOpc (cmdOf i)) .uninitialized :: more))

/-- `INIT NULL` reports `InvalidConfig`, `0x01000102`, and has no other effect, initialized or not (R162). -/
def Obligations.InitOfNullOnlyReports : Prop :=
  ∀ s : State, ReadyForInit s → s.par.guards = true →
    exec (.init nullHandle) s = .next (s.degraded (.init nullHandle) [0x01000102])

/-- The report words of the table of R222. -/
def Obligations.ReportWordTable : Prop :=
  (∀ h, reportWord (cmdOpc (cmdOf (.init h))) .invalidConfig = 0x01000102) ∧
  (∀ d pin a, reportWord (cmdOpc (cmdOf (.setDir d pin a))) .uninitialized = 0x01000201 ∧
    reportWord (cmdOpc (cmdOf (.setDir d pin a))) .invalidIndex = 0x01000203 ∧
    reportWord (cmdOpc (cmdOf (.setDir d pin a))) .directionNotChangeable = 0x01000205) ∧
  (∀ m pin a, reportWord (cmdOpc (cmdOf (.setMode m pin a))) .uninitialized = 0x01000301 ∧
    reportWord (cmdOpc (cmdOf (.setMode m pin a))) .invalidIndex = 0x01000303 ∧
    reportWord (cmdOpc (cmdOf (.setMode m pin a))) .modeNotChangeable = 0x01000306 ∧
    reportWord (cmdOpc (cmdOf (.setMode m pin a))) .invalidMode = 0x01000307) ∧
  (∀ a, reportWord (cmdOpc (cmdOf (.refreshDir a))) .uninitialized = 0x01000401) ∧
  (∀ pin a, reportWord (cmdOpc (cmdOf (.readCh pin a))) .uninitialized = 0x02001001 ∧
    reportWord (cmdOpc (cmdOf (.readCh pin a))) .invalidIndex = 0x02001003) ∧
  (∀ l pin a, reportWord (cmdOpc (cmdOf (.writeCh l pin a))) .uninitialized = 0x02001101 ∧
    reportWord (cmdOpc (cmdOf (.writeCh l pin a))) .invalidIndex = 0x02001103) ∧
  (∀ port a, reportWord (cmdOpc (cmdOf (.readPort port a))) .uninitialized = 0x02001201 ∧
    reportWord (cmdOpc (cmdOf (.readPort port a))) .invalidIndex = 0x02001203) ∧
  (∀ port v, reportWord (cmdOpc (cmdOf (.writePort port v))) .uninitialized = 0x02001301 ∧
    reportWord (cmdOpc (cmdOf (.writePort port v))) .invalidIndex = 0x02001303) ∧
  (∀ h, reportWord (cmdOpc (cmdOf (.readGroup h))) .uninitialized = 0x02001401 ∧
    reportWord (cmdOpc (cmdOf (.readGroup h))) .invalidPointer = 0x02001404) ∧
  (∀ v h, reportWord (cmdOpc (cmdOf (.writeGroup v h))) .uninitialized = 0x02001501 ∧
    reportWord (cmdOpc (cmdOf (.writeGroup v h))) .invalidPointer = 0x02001504) ∧
  (∀ pin a, reportWord (cmdOpc (cmdOf (.flipCh pin a))) .uninitialized = 0x02001601 ∧
    reportWord (cmdOpc (cmdOf (.flipCh pin a))) .invalidIndex = 0x02001603)

/-- Which guards of each command fail, in evaluation order (R134, R135, R136), at every state and operand; which error
a guard reports (R134), and how many report (R133). The mutability guards are evaluated only where the module is
initialized and the index in range. -/
def Obligations.GuardsFailInOrder : Prop :=
  (∀ (s : State) (pin port v : BitVec 16) (h a : Word) (d : Dir) (l : Level) (code : Byte),
    let notInit := if s.mstate = .initialized then [] else [Guard.init]
    let badPin := if pin.toNat < s.par.npins then [] else [Guard.pin]
    let badPort := if port.toNat < s.nports then [] else [Guard.port]
    let badPtr := if h = nullHandle then [Guard.ptr] else []
    let badMode := if code.toNat ≤ modeMax then [] else [Guard.mode]
    (commandOf (.init h)).failing s = (if h = nullHandle then [.cfg] else []) ∧
    (commandOf (.refreshDir a)).failing s = notInit ∧
    (commandOf (.readCh pin a)).failing s = notInit ++ badPin ∧
    (commandOf (.writeCh l pin a)).failing s = notInit ++ badPin ∧
    (commandOf (.flipCh pin a)).failing s = notInit ++ badPin ∧
    (commandOf (.readPort port a)).failing s = notInit ++ badPort ∧
    (commandOf (.writePort port a)).failing s = notInit ++ badPort ∧
    (commandOf (.readGroup h)).failing s = notInit ++ badPtr ∧
    (commandOf (.writeGroup v h)).failing s = notInit ++ badPtr ∧
    (notInit ++ badPin ≠ [] →
      (commandOf (.setDir d pin a)).failing s = notInit ++ badPin ∧
      (commandOf (.setMode code pin a)).failing s = notInit ++ badPin ++ badMode) ∧
    ∀ r, s.mstate = .initialized → recordAt s.par s.nports s.cfg pin.toNat = .ok r → pin.toNat < s.par.npins →
      (commandOf (.setDir d pin a)).failing s = (if r.dirChangeable then [] else [.dirCh]) ∧
      (commandOf (.setMode code pin a)).failing s = (if r.modeChangeable then [] else [.modeCh]) ++ badMode) ∧
  (Guard.error .cfg = .invalidConfig ∧ Guard.error .init = .uninitialized ∧ Guard.error .pin = .invalidIndex ∧
    Guard.error .port = .invalidIndex ∧ Guard.error .ptr = .invalidPointer ∧
    Guard.error .dirCh = .directionNotChangeable ∧ Guard.error .modeCh = .modeNotChangeable ∧
    Guard.error .mode = .invalidMode) ∧
  ∀ (par : Config) (cmd : Word) (g : Guard) (gs : List Guard),
    reportsOf par cmd [] = [] ∧
    reportsOf par cmd (g :: gs) =
      reportWord (cmdOpc cmd) g.error ::
        (if par.reportAll then gs.map fun g' => reportWord (cmdOpc cmd) g'.error else [])

/-- `GUARDS = false` (R138): a failing guard other than a mutability guard is `Refuse(UndefinedAccess)` at the GUARD
step, nothing is reported and `FAILF` is left; otherwise the command goes on as with no guard failing. That the refused
step changes nothing but the mark is the model's choice (log entry 10). -/
def Obligations.StrippedGuardsRefuseUndefinedAccess : Prop :=
  ∀ (k : Command) (c : Nat) (s : State), s.par.guards = false →
    ((∃ g ∈ k.failing s, g.mutability = false) → guardStep k c s = s.markRefused .undefinedAccess) ∧
    ((∀ g ∈ k.failing s, g.mutability = true) → guardStep k c s = enterBody k c s) ∧
    (guardStep k c s).diag = s.diag ∧ ((guardStep k c s).ctx c).failf = (s.ctx c).failf

/-- What a call refuses at its GUARD step because of the stores (R231, R46, R47, R108): `INIT` and the group commands
with a non-null handle that names nothing, or an ill-formed table or descriptor. The pair was latched by Issue (R130).
That the refused GUARD step sets the mark and changes nothing else, so that a refused `INIT` leaves `CFG` as it was
although R162 writes `CFG` in that step, is the model's choice (log entry 10): R231 does not say it. That a table of
another length is ill-formed too is the model's choice (log entry 12). -/
def Obligations.GuardStepRefusesBadStores : Prop :=
  (∀ (s : State) (h : Word) (r : Refusal), ReadyForInit s → h ≠ nullHandle → tableAt s.par s.nports h = .error r →
    exec (.init h) s = .next (s.refusedAtGuard (.init h) r)) ∧
  (∀ (s : State) (h : Word) (v : BitVec 16) (r : Refusal), Ready s → s.mstate = .initialized → h ≠ nullHandle →
    groupAt s.par s.nports h = .error r →
    exec (.readGroup h) s = .next (s.refusedAtGuard (.readGroup h) r) ∧
    exec (.writeGroup v h) s = .next (s.refusedAtGuard (.writeGroup v h) r)) ∧
  ∀ (par : Config) (nports : Nat) (h : Word), h ≠ nullHandle →
    (par.tables.lookup h = none → tableAt par nports h = .error .unknownHandle) ∧
    (∀ ws, par.tables.lookup h = some ws → (∃ w ∈ ws, PinRecord.ofWord w = none) →
      tableAt par nports h = .error .illFormedTable) ∧
    (∀ ws w q, par.tables.lookup h = some ws → w ∈ ws → PinRecord.ofWord w = some q → nports ≤ q.p →
      tableAt par nports h = .error .illFormedTable) ∧
    (par.groups.lookup h = none → groupAt par nports h = .error .unknownHandle) ∧
    (∀ w : Word, par.groups.lookup h = some w → w.extractLsb' 24 8 ≠ 0#8 →
      groupAt par nports h = .error .illFormedDescriptor) ∧
    (∀ w d, par.groups.lookup h = some w → Descriptor.ofWord w = some d → d.wellFormed nports = false →
      groupAt par nports h = .error .illFormedDescriptor)

/-- A marked state steps no more, by an event or by a call (R230, R24). That the outcome carries the mark's reason is
the model's choice (log entry 10). -/
def Obligations.MarkedStatesStepNoMore : Prop :=
  ∀ (s : State) (i : Instr),
    (∀ f, s.faulted = some f → step s = .fault f ∧ exec i s = .fault f) ∧
    (∀ r, s.faulted = none → s.refused = some r → step s = .refused r ∧ exec i s = .refused r)

/-! ### The channel commands -/

/-- `READ_CH` (R191): the data bit through the alias word, and nothing else changes. Where the idle context's `REC`
and `SUB` stand afterwards is the model's choice (log entry 7). -/
def Obligations.ReadChReturnsTheDataBit : Prop :=
  ∀ (s : State) (pin : BitVec 16) (arg : Word) (r : PinRecord), Ready s → s.mstate = .initialized →
    recordAt s.par s.nports s.cfg pin.toNat = .ok r → Clocked s r.p →
    exec (.readCh pin arg) s = .next
      (s.answered (.readCh pin arg) ⟨0, .access, 1⟩
        (if (s.port r.p).data.getLsbD r.bit.val then 1 else 0)
        (if (s.port r.p).data.getLsbD r.bit.val then 1 else 0))

/-- `WRITE_CH` (R192): exactly the one data bit. For `REC` and `SUB` afterwards see log entry 7, the model's choice.
-/
def Obligations.WriteChSetsTheDataBit : Prop :=
  ∀ (s : State) (l : Level) (pin : BitVec 16) (arg : Word) (r : PinRecord), Ready s → s.mstate = .initialized →
    recordAt s.par s.nports s.cfg pin.toNat = .ok r → Clocked s r.p →
    exec (.writeCh l pin arg) s = .next
      ((s.setPort r.p { s.port r.p with data := putByteBit (s.port r.p).data r.bit l.bit }).answered
        (.writeCh l pin arg) ⟨0, .access, 1⟩ (s.ctx s.cur).tmp 0)

/-- `READ_PORT` (R193): the port's data byte, zero-extended. For `REC` and `SUB` afterwards see log entry 7, the
model's choice. -/
def Obligations.ReadPortReturnsTheDataByte : Prop :=
  ∀ (s : State) (port : BitVec 16) (arg : Word), Ready s → s.mstate = .initialized → Clocked s port.toNat →
    exec (.readPort port arg) s = .next
      (s.answered (.readPort port arg) ⟨0, .access, 1⟩ ((s.port port.toNat).data.setWidth 32)
        ((s.port port.toNat).data.setWidth 32))

/-- `WRITE_PORT` (R194): all eight data bits, the rest of the value dropped. For `REC` and `SUB` afterwards see log
entry 7, the model's choice. -/
def Obligations.WritePortReplacesTheDataByte : Prop :=
  ∀ (s : State) (port : BitVec 16) (value : Word), Ready s → s.mstate = .initialized → Clocked s port.toNat →
    exec (.writePort port value) s = .next
      ((s.setPort port.toNat { s.port port.toNat with data := value.setWidth 8 }).answered (.writePort port value)
        ⟨0, .access, 1⟩ (s.ctx s.cur).tmp 0)

/-- `READ_GROUP` (R195): `(DATA >> bit_offset) & bit_mask`. For `REC` and `SUB` afterwards see log entry 7, the
model's choice. -/
def Obligations.ReadGroupReturnsTheMaskedBits : Prop :=
  ∀ (s : State) (h : Word) (d : Descriptor), Ready s → s.mstate = .initialized →
    groupAt s.par s.nports h = .ok d → Clocked s d.p →
    exec (.readGroup h) s = .next
      (s.answered (.readGroup h) ⟨0, .access, 1⟩ ((s.port d.p).data.setWidth 32)
        (((s.port d.p).data.setWidth 32 >>> d.o) &&& d.m))

/-- `WRITE_GROUP` (R196): the masked bits at the offset, the others as they were. For `REC` and `SUB` afterwards see
log entry 7, the model's choice. -/
def Obligations.WriteGroupWritesTheMaskedBits : Prop :=
  ∀ (s : State) (value : BitVec 16) (h : Word) (d : Descriptor), Ready s → s.mstate = .initialized →
    groupAt s.par s.nports h = .ok d → Clocked s d.p →
    ∃ t, exec (.writeGroup value h) s = .next t ∧
      t = (s.setPort d.p { s.port d.p with data := (t.port d.p).data }).answered (.writeGroup value h)
        ⟨0, .access, 2⟩ ((s.port d.p).data.setWidth 32) 0 ∧
      ∀ b : Bit, (t.port d.p).data.getLsbD b.val =
        if d.o ≤ b.val ∧ d.mask.getLsbD (b.val - d.o) = true then value.getLsbD (b.val - d.o)
        else (s.port d.p).data.getLsbD b.val

/-- `FLIP_CH` (R197): the data bit toggled, the level after the toggle returned. For `REC` and `SUB` afterwards see
log entry 7, the model's choice. -/
def Obligations.FlipChTogglesTheDataBit : Prop :=
  ∀ (s : State) (pin : BitVec 16) (arg : Word) (r : PinRecord), Ready s → s.par.hasFlip = true →
    s.mstate = .initialized → recordAt s.par s.nports s.cfg pin.toNat = .ok r → Clocked s r.p →
    exec (.flipCh pin arg) s = .next
      ((s.setPort r.p
          { s.port r.p with
            data := putByteBit (s.port r.p).data r.bit (!(s.port r.p).data.getLsbD r.bit.val) }).answered
        (.flipCh pin arg) ⟨0, .access, 3⟩
        (if (s.port r.p).data.getLsbD r.bit.val then 0 else 1)
        (if (s.port r.p).data.getLsbD r.bit.val then 0 else 1))

/-- The round trip (R198 a): after `WRITE_CH pin, x`, `READ_CH pin` returns `x`. -/
def Obligations.WriteThenReadReturnsTheLevel : Prop :=
  ∀ (s t u : State) (l : Level) (pin : BitVec 16) (a a' : Word), Unmarked t → Unmarked u →
    s.mstate = .initialized → pin.toNat < s.par.npins →
    exec (.writeCh l pin a) s = .next t → exec (.readCh pin a') t = .next u →
    u.responses = t.responses ++ [⟨s.cur, if l.bit then 1 else 0, false⟩]

/-- The involution (R198 b): `FLIP_CH` twice restores every register, and the two results are complements. -/
def Obligations.FlipTwiceRestoresTheLevel : Prop :=
  ∀ (s t u : State) (pin : BitVec 16) (a a' : Word), Unmarked t → Unmarked u →
    s.mstate = .initialized → pin.toNat < s.par.npins → s.par.hasFlip = true →
    exec (.flipCh pin a) s = .next t → exec (.flipCh pin a') t = .next u →
    u.ports = s.ports ∧ u.clken = s.clken ∧
    ∃ x : Bool, u.responses = s.responses ++
      [⟨s.cur, if x then 1 else 0, false⟩, ⟨s.cur, if x then 0 else 1, false⟩]

/-- The group round trip (R198 d): after `WRITE_GROUP h, v`, `READ_GROUP h` returns `v & bit_mask`. -/
def Obligations.GroupWriteThenReadReturnsMaskedValue : Prop :=
  ∀ (s t u : State) (v : BitVec 16) (h : Word) (d : Descriptor), Unmarked t → Unmarked u →
    s.mstate = .initialized → groupAt s.par s.nports h = .ok d →
    exec (.writeGroup v h) s = .next t → exec (.readGroup h) t = .next u →
    u.responses = t.responses ++ [⟨s.cur, v.setWidth 32 &&& d.m, false⟩]

/-! ### The pin configuration commands -/

/-- `SET_DIR` of a pin that is not reserved (R172): the one direction bit, where it is writable; with `GUARDS = false`
whether or not the record allows it (R138). For `REC` and `SUB` afterwards see log entry 7, for `TMP` with
`ATOMIC_BITOPS` log entry 13, the model's choices. -/
def Obligations.SetDirWritesTheDirectionBit : Prop :=
  ∀ (s : State) (d : Dir) (pin : BitVec 16) (arg : Word) (r : PinRecord), Ready s → s.mstate = .initialized →
    recordAt s.par s.nports s.cfg pin.toNat = .ok r → (s.par.guards = true → r.dirChangeable = true) →
    s.par.isReserved r.p r.bit = false → Clocked s r.p →
    exec (.setDir d pin arg) s = .next
      ((s.setPort r.p
          { s.port r.p with
            dir := gatedPut (s.isWritable r.p .dir r.bit) (s.port r.p).dir r.bit d.bit }).answered
        (.setDir d pin arg) (finAt 0)
        (if s.par.atomicBitops then (s.ctx s.cur).tmp else (s.port r.p).dir.setWidth 32) 0)

/-- `SET_DIR` and `SET_MODE` of a reserved pin (R163): guards pass, no access, no report. For `REC` and `SUB`
afterwards see log entry 7, the model's choice. -/
def Obligations.RuntimeMutatorsSkipReservedPins : Prop :=
  ∀ (s : State) (d : Dir) (code : Byte) (m : Mode) (pin : BitVec 16) (arg : Word) (r : PinRecord), Ready s →
    s.mstate = .initialized → recordAt s.par s.nports s.cfg pin.toNat = .ok r →
    s.par.isReserved r.p r.bit = true →
    ((s.par.guards = true → r.dirChangeable = true) →
      exec (.setDir d pin arg) s = .next (s.answered (.setDir d pin arg) (finAt 0) (s.ctx s.cur).tmp 0)) ∧
    (s.par.hasSetMode = true → Mode.ofCode code = some m → (s.par.guards = true → r.modeChangeable = true) →
      exec (.setMode code pin arg) s = .next (s.answered (.setMode code pin arg) (finAt 0) (s.ctx s.cur).tmp 0))

/-- `SET_MODE` of a pin that is not reserved (R173, R166): the function-select end state of its mode on the pin's bits
and nibble, where they are writable, and nothing else. For `REC` and `SUB` afterwards see log entry 7, for `TMP` with
`ATOMIC_BITOPS` log entry 13, the model's choices. -/
def Obligations.SetModeSelectsTheFunction : Prop :=
  ∀ (s : State) (code : Byte) (m : Mode) (pin : BitVec 16) (arg : Word) (r : PinRecord), Ready s →
    s.par.hasSetMode = true → s.mstate = .initialized → Mode.ofCode code = some m →
    recordAt s.par s.nports s.cfg pin.toNat = .ok r → (s.par.guards = true → r.modeChangeable = true) →
    s.par.isReserved r.p r.bit = false → Clocked s r.p →
    exec (.setMode code pin arg) s = .next
      ((s.setPort r.p
          { s.port r.p with
            afen := gatedPut (s.isWritable r.p .afen r.bit) (s.port r.p).afen r.bit
              (match m with | .alt _ => true | .gpio => false | .analog => false)
            muxsel := if s.isWritable r.p .muxsel r.bit then putNibbleIn (s.port r.p).muxsel r.bit m.wire
              else (s.port r.p).muxsel
            amsel := gatedPut (s.isWritable r.p .amsel r.bit) (s.port r.p).amsel r.bit
              (match m with | .analog => true | .gpio => false | .alt _ => false)
            den := gatedPut (s.isWritable r.p .den r.bit) (s.port r.p).den r.bit
              (match m with | .analog => false | .gpio => true | .alt _ => true) }).answered
        (.setMode code pin arg) (finAt 0)
        (if s.par.atomicBitops then (s.port r.p).muxsel else (s.port r.p).den.setWidth 32) 0)

/-- `REFRESH_DIR` (R174): the direction bit of every pin of the table that is not reserved, changeable or not, and no
other bit; of a pin listed twice the last record's (R46). Only the ports it accesses need their clock. -/
def Obligations.RefreshDirRestoresDirections : Prop :=
  ∀ (s : State) (arg : Word) (rs : List PinRecord), Ready s → s.mstate = .initialized →
    tableAt s.par s.nports s.cfg = .ok rs →
    (∀ r ∈ rs, s.par.isReserved r.p r.bit = false → Clocked s r.p) →
    ∃ t, exec (.refreshDir arg) s = .next t ∧ sameModule s t ∧ t.clken = s.clken ∧
      t.responses = s.responses ++ [⟨s.cur, 0, false⟩] ∧
      (t.ctx s.cur).pos.ph = .idle ∧ (t.ctx s.cur).res = 0 ∧ (∀ c, c ≠ s.cur → t.ctx c = s.ctx c) ∧
      (∀ q k, k ≠ .dir → (t.port q).stored k = (s.port q).stored k) ∧
      (∀ r ∈ rs, NotOverruled rs anyRecord r → s.par.isReserved r.p r.bit = false →
        s.isWritable r.p .dir r.bit = true → (t.port r.p).dir.getLsbD r.bit.val = r.direction.bit) ∧
      (∀ q (b : Bit),
        (∀ r ∈ rs, (r.p, r.bit) = (q, b) → s.par.isReserved q b = true ∨ s.isWritable q .dir b = false) →
        (t.port q).dir.getLsbD b.val = (s.port q).dir.getLsbD b.val)

/-- What a completed `INIT` guarantees (R262), for every choice of `PROTECTED_REGS`, and that it completes unmarked
(R161): the clock check cannot fail in it. With a pin listed twice the later record wins on every bit both write (R171
a): the last record gives the direction and the function, the last output record the data bit, the last input record
the resistors. -/
def Obligations.InitProgramsEveryPin : Prop :=
  ∀ (s : State) (h : Word) (rs : List PinRecord), ReadyForInit s → tableAt s.par s.nports h = .ok rs →
    s.nports ≤ 32 → CommitOpen s →
    ∃ t, exec (.init h) s = .next t ∧ Unmarked t ∧ t.mstate = .initialized ∧ t.cfg = h ∧ t.diag = s.diag ∧
      t.responses = s.responses ++ [⟨s.cur, 0, false⟩] ∧ (t.ctx s.cur).pos.ph = .idle ∧
      ∀ r ∈ rs, t.clken.getLsbD r.p = true ∧
        (s.par.isReserved r.p r.bit = false →
          (s.par.isProtected r.p r.bit = true →
            (t.port r.p).locked = false ∧ (t.port r.p).commit.getLsbD r.bit.val = true) ∧
          (r.direction = .output → NotOverruled rs (hasDirection .output) r →
            (t.port r.p).data.getLsbD r.bit.val = r.initial.bit) ∧
          (r.direction = .input → NotOverruled rs (hasDirection .input) r →
            (t.port r.p).pur.getLsbD r.bit.val = decide (r.resistor = .pullUp) ∧
            (t.port r.p).pdr.getLsbD r.bit.val = decide (r.resistor = .pullDown)) ∧
          (NotOverruled rs anyRecord r →
            (t.port r.p).dir.getLsbD r.bit.val = r.direction.bit ∧
            (t.port r.p).afen.getLsbD r.bit.val =
              (match r.mode with | .alt _ => true | .gpio => false | .analog => false) ∧
            (t.port r.p).muxsel.extractLsb' (4 * r.bit.val) 4 = r.mode.wire ∧
            (t.port r.p).amsel.getLsbD r.bit.val =
              (match r.mode with | .analog => true | .gpio => false | .alt _ => false) ∧
            (t.port r.p).den.getLsbD r.bit.val =
              (match r.mode with | .analog => false | .gpio => true | .alt _ => true)))

/-- What `INIT` leaves alone, also when it stops at a mark (R263): every configuration and data bit of a pin with no
record that is not reserved, `PUR` and `PDR` of a pin all of whose records are outputs, `DATA` of a pin all of whose
records are inputs, `CLKEN` of ports no record names, the lock state of ports with no protected record, the commit bit
of a pin that is not protected; and the other contexts and the rest of the state. -/
def Obligations.InitLeavesOtherPinsAlone : Prop :=
  ∀ (s t : State) (h : Word) (rs : List PinRecord), exec (.init h) s = .next t →
    tableAt s.par s.nports h = .ok rs →
    (∀ q (b : Bit), (∀ r ∈ rs, (r.p, r.bit) = (q, b) → s.par.isReserved q b = true) →
      samePinConfig s t q b ∧ (t.port q).data.getLsbD b.val = (s.port q).data.getLsbD b.val ∧
      (t.port q).commit.getLsbD b.val = (s.port q).commit.getLsbD b.val) ∧
    (∀ q (b : Bit), (∀ r ∈ rs, (r.p, r.bit) = (q, b) → r.direction = .output) →
      (t.port q).pur.getLsbD b.val = (s.port q).pur.getLsbD b.val ∧
      (t.port q).pdr.getLsbD b.val = (s.port q).pdr.getLsbD b.val) ∧
    (∀ q (b : Bit), (∀ r ∈ rs, (r.p, r.bit) = (q, b) → r.direction = .input) →
      (t.port q).data.getLsbD b.val = (s.port q).data.getLsbD b.val) ∧
    (∀ q, (∀ r ∈ rs, r.p ≠ q) → t.clken.getLsbD q = s.clken.getLsbD q) ∧
    (∀ q, (∀ r ∈ rs, r.p = q → s.par.isProtected q r.bit = true → s.par.isReserved q r.bit = true) →
      (t.port q).locked = (s.port q).locked) ∧
    (∀ q (b : Bit), s.par.isProtected q b = false →
      (t.port q).commit.getLsbD b.val = (s.port q).commit.getLsbD b.val) ∧
    (∀ c, c ≠ s.cur → t.ctx c = s.ctx c) ∧
    t.par = s.par ∧ t.nports = s.nports ∧ t.envReads = s.envReads ∧ t.agenda = s.agenda ∧ t.cur = s.cur ∧
    t.draws = s.draws

/-- A second `INIT` with the same table leaves the registers of one (R170), whatever the table holds. -/
def Obligations.InitTwiceIsInitOnce : Prop :=
  ∀ (s t u : State) (h : Word), exec (.init h) s = .next t → Unmarked t → exec (.init h) t = .next u →
    Unmarked u ∧ u.ports = t.ports ∧ u.clken = t.clken ∧ u.mstate = t.mstate ∧
      ((h ≠ nullHandle ∨ s.par.guards = false) → u.cfg = t.cfg ∧ u.diag = t.diag ∧ u.mstate = .initialized)

/-! ### The whole machine -/

/-- `MSTATE` is never left once `Initialized` (R21, R240), by any step of any agent. -/
def Obligations.InitializedIsNeverLeft : Prop :=
  ∀ s t : State, step s = .next t → s.mstate = .initialized → t.mstate = .initialized

/-- `DIAG`, the responses and the marks only grow; the parameters, `NPORTS` and `NCTX` never change (R23, R24, R28).
-/
def Obligations.HistoryGrowsAndParametersStay : Prop :=
  ∀ s t : State, step s = .next t →
    s.diag <+: t.diag ∧ s.responses <+: t.responses ∧ s.envReads <+: t.envReads ∧ t.par = s.par ∧
    t.nports = s.nports ∧ t.nctx = s.nctx

/-- Reserved pins are never reconfigured by any command (R163, R49, R273), also when it stops at a mark. -/
def Obligations.ReservedPinsAreNeverReconfigured : Prop :=
  ∀ (i : Instr) (s t : State) (p : Nat) (b : Bit), s.par.isReserved p b = true → exec i s = .next t →
    samePinConfig s t p b

/-- The two resistor bits of a pin are never both set by a command (R34, R165): from a state in which they are not,
also when it stops at a mark. -/
def Obligations.ResistorBitsStayExclusive : Prop :=
  ∀ (i : Instr) (s t : State) (p : Nat) (b : Bit), CommitOpen s → exec i s = .next t →
    ¬((s.port p).pur.getLsbD b.val = true ∧ (s.port p).pdr.getLsbD b.val = true) →
    ¬((t.port p).pur.getLsbD b.val = true ∧ (t.port p).pdr.getLsbD b.val = true)

/-- No command clears a `CLKEN` bit or a commit bit, and none relocks a port (R59, R68, R270). -/
def Obligations.CommandsNeverWithdrawAccess : Prop :=
  ∀ (i : Instr) (s t : State) (p : Nat) (b : Bit), exec i s = .next t →
    (s.clken.getLsbD p = true → t.clken.getLsbD p = true) ∧
    ((s.port p).commit.getLsbD b.val = true → (t.port p).commit.getLsbD b.val = true) ∧
    ((s.port p).locked = false → (t.port p).locked = false)

/-- That pins outside `PROTECTED` are committed holds at reset and is kept by every command (R38, R45). -/
def Obligations.UnprotectedPinsStayCommitted : Prop :=
  (∀ par d, CommitOpen (State.resetWith par d)) ∧
  ∀ (i : Instr) (s t : State), CommitOpen s → exec i s = .next t → CommitOpen t

/-- Which words a command other than `INIT` writes (R52, R175, R190): none of `CLKEN`, `LOCK`, `COMMIT`, `PUR`, `PDR`;
the channel commands only `DATA`; the mutators never `DATA`. -/
def Obligations.CommandsWriteOnlyTheirKinds : Prop :=
  ∀ (i : Instr) (s t : State), (∀ h, i ≠ .init h) → exec i s = .next t →
    t.clken = s.clken ∧ t.mstate = s.mstate ∧ t.cfg = s.cfg ∧
    ∀ q k, (t.port q).stored k ≠ (s.port q).stored k →
      match i with
      | .setDir _ _ _ | .refreshDir _ => k = .dir
      | .setMode _ _ _ => k = .afen ∨ k = .muxsel ∨ k = .amsel ∨ k = .den
      | .writeCh _ _ _ | .writePort _ _ | .writeGroup _ _ | .flipCh _ _ => k = .data
      | .readCh _ _ | .readPort _ _ | .readGroup _ | .init _ => False

/-- What a command reports, and whether it is refused, does not depend on the contents of the ports (R148). -/
def Obligations.ReportsDoNotDependOnThePorts : Prop :=
  ∀ (i : Instr) (s t t' : State) (ports : List PortRegs), ports.length = s.ports.length →
    exec i s = .next t → exec i { s with ports := ports } = .next t' →
    t'.diag = t.diag ∧ t'.faulted = t.faulted ∧ t'.refused = t.refused ∧ t'.mstate = t.mstate ∧ t'.cfg = t.cfg ∧
    t'.clken = t.clken ∧ (t'.ctx s.cur).pos = (t.ctx s.cur).pos

/-- The invariant holds after reset, for every parameter set and draw, and is kept by every step, of every agent, from
every state that has it (R21, R22, R25, R131, R149). -/
def Obligations.EveryStepKeepsTheInvariant : Prop :=
  (∀ par d, Inv (State.resetWith par d)) ∧ ∀ s t : State, Inv s → step s = .next t → Inv t

/-- No context that holds a command is ever without an enabled step, and each own step moves its position on (R131,
R150); only the launch refusals of R231 may come of it, not the model's own `offProgram` (log entry 10). -/
def Obligations.RunningContextsAlwaysAdvance : Prop :=
  ∀ (s : State) (c : Nat) (rest : List Event), Inv s → Unmarked s → c < s.nctx → (s.ctx c).running = true →
    ∃ t, step { s with agenda := .advance c :: rest } = .next t ∧ t.refused ≠ some .offProgram ∧
      (Unmarked t → (t.ctx c).pos ≠ (s.ctx c).pos)

/-- The state after reset (R45), for every parameter set and every draw: what the rule gives, and the draw everywhere
else. -/
def Obligations.ResetState : Prop :=
  ∀ par d, let s := State.resetWith par d
    s.mstate = .notInitialized ∧ s.cfg = nullHandle ∧ s.diag = [] ∧ s.faulted = none ∧ s.refused = none ∧
    s.nports = d.ports.length ∧ s.nctx = d.ctxs.length ∧
    (∀ x ∈ s.ctxs, x.pos.ph = .idle ∧ x.pos.record = 0 ∧ x.pos.sub = 0 ∧ x.failf = false ∧ x.ill = false) ∧
    (∀ (c : Nat) (x : CtxDraw), d.ctxs[c]? = some x →
      (s.ctx c).cmd = x.cmd ∧ (s.ctx c).arg = x.arg ∧ (s.ctx c).tmp = x.tmp ∧ (s.ctx c).res = x.res) ∧
    (∀ p < s.nports, (s.port p).locked = true ∧
      ∀ b : Bit, (s.port p).commit.getLsbD b.val = !par.isProtected p b) ∧
    s.clken = d.clken ∧
    ∀ (p : Nat) (x : PortDraw), d.ports[p]? = some x →
      (s.port p).data = x.data ∧ (s.port p).dir = x.dir ∧ (s.port p).afen = x.afen ∧ (s.port p).pur = x.pur ∧
      (s.port p).pdr = x.pdr ∧ (s.port p).den = x.den ∧ (s.port p).amsel = x.amsel ∧ (s.port p).muxsel = x.muxsel

/-- The lost update (R266), by three steps of the machine: context `c` stands at the read of a `WRITE_GROUP`, context
`c'` at the write of a `WRITE_CH` on a bit of the same port outside the group; `c` reads, `c'` writes, `c` writes
back. The bit is at the written level in between and back at its old value afterwards; the bits of the group are
written. Where the micro-ops stand is log entry 7, the order of steps is the agenda (log entry 4). -/
def Obligations.InterleavedChannelWriteIsLost : Prop :=
  ∀ (s : State) (c c' : Nat) (x y : Ctx) (h arg : Word) (v pin : BitVec 16) (l : Level) (d : Descriptor)
    (r : PinRecord) (rest : List Event),
    Unmarked s → c ≠ c' → s.ctxs[c]? = some x → s.ctxs[c']? = some y →
    x.cmd = cmdOf (.writeGroup v h) → x.arg = h → x.failf = false → x.pos = ⟨0, .access, 0⟩ →
    y.cmd = cmdOf (.writeCh l pin arg) → y.arg = arg → y.failf = false → y.pos = ⟨0, .access, 0⟩ →
    groupAt s.par s.nports h = .ok d → recordAt s.par s.nports s.cfg pin.toNat = .ok r → r.p = d.p → Clocked s d.p →
    ¬(d.o ≤ r.bit.val ∧ d.mask.getLsbD (r.bit.val - d.o) = true) →
    s.agenda = .advance c :: .advance c' :: .advance c :: rest →
    ∃ t u w, step s = .next t ∧ step t = .next u ∧ step u = .next w ∧
      t.ports = s.ports ∧
      (u.port d.p).data.getLsbD r.bit.val = l.bit ∧
      (w.port d.p).data.getLsbD r.bit.val = (s.port d.p).data.getLsbD r.bit.val ∧
      (∀ b : Bit, d.o ≤ b.val ∧ d.mask.getLsbD (b.val - d.o) = true →
        (w.port d.p).data.getLsbD b.val = v.getLsbD (b.val - d.o)) ∧
      (w.ctx c).pos = ⟨0, .access, 2⟩ ∧ (w.ctx c').pos = ⟨0, .access, 1⟩ ∧ w.agenda = rest
end

