-- ==== Sys2Proof/Laws/Bits.lean ====
section
/-! SUPPORT. What the bit formulas of Machine/Ops.lean do, bit by bit. -/

namespace Sys2Proof.Machine

theorem mergeByte_bit (m o n : Byte) (i : Nat) :
    (mergeByte m o n).getLsbD i = if m.getLsbD i then n.getLsbD i else o.getLsbD i := by
  by_cases hi : i < 8
  · cases h : m.getLsbD i <;> simp [-BitVec.getLsbD_eq_getElem, mergeByte, h, hi]
  · simp [-BitVec.getLsbD_eq_getElem, BitVec.getLsbD_of_ge _ _ (Nat.le_of_not_lt hi)]

theorem putByteBit_bit (d : Byte) (b : Bit) (v : Bool) (i : Nat) (hi : i < 8) :
    (putByteBit d b v).getLsbD i = if i = b.val then v else d.getLsbD i := by
  have hb := b.isLt
  cases v
  · by_cases h : i = b.val
    · simp [-BitVec.getLsbD_eq_getElem, putByteBit, h]
    · rcases Nat.lt_or_ge i b.val with h1 | h1
      · simp [-BitVec.getLsbD_eq_getElem, putByteBit, h, h1, hi]
      · have : i - b.val ≠ 0 := by omega
        simp [-BitVec.getLsbD_eq_getElem, putByteBit, h, hi, this]
  · by_cases h : i = b.val
    · subst h; simp [-BitVec.getLsbD_eq_getElem, putByteBit]
    · rcases Nat.lt_or_ge i b.val with h1 | h1
      · simp [-BitVec.getLsbD_eq_getElem, putByteBit, h, h1]
      · have : i - b.val ≠ 0 := by omega
        simp [-BitVec.getLsbD_eq_getElem, putByteBit, h, this]

theorem setBitIn_bit (t : Word) (b i : Nat) (hi : i < 32) :
    (setBitIn t b).getLsbD i = (t.getLsbD i || decide (i = b)) := by
  rcases Nat.lt_trichotomy i b with h | h | h
  · have : i ≠ b := by omega
    simp [-BitVec.getLsbD_eq_getElem, setBitIn, h, this]
  · subst h; simp [-BitVec.getLsbD_eq_getElem, setBitIn, hi]
  · have h1 : ¬ i < b := by omega
    have h2 : i - b ≠ 0 := by omega
    have h3 : i ≠ b := by omega
    simp [-BitVec.getLsbD_eq_getElem, setBitIn, h2, h3]

theorem clrBitIn_bit (t : Word) (b i : Nat) (hi : i < 32) :
    (clrBitIn t b).getLsbD i = (t.getLsbD i && !decide (i = b)) := by
  rcases Nat.lt_trichotomy i b with h | h | h
  · have : i ≠ b := by omega
    simp [-BitVec.getLsbD_eq_getElem, clrBitIn, h, this, hi]
  · subst h; simp [-BitVec.getLsbD_eq_getElem, clrBitIn, hi]
  · have h1 : ¬ i < b := by omega
    have h2 : i - b ≠ 0 := by omega
    have h3 : i ≠ b := by omega
    simp [-BitVec.getLsbD_eq_getElem, clrBitIn, h2, h3, hi]

/-- The byte that a single-bit update of a byte register writes (R140 to R142). -/
theorem bitFormula_byte (d : Byte) (b : Bit) (v : Bool) :
    (if v then setBitIn (d.setWidth 32) b.val else clrBitIn (d.setWidth 32) b.val).setWidth 8 = putByteBit d b v := by
  apply BitVec.eq_of_getLsbD_eq
  intro i hi
  rw [putByteBit_bit _ _ _ _ hi]
  have h32 : i < 32 := by omega
  have hb : b.val < 32 := by omega
  cases v <;> by_cases h : i = b.val <;>
    simp [-BitVec.getLsbD_eq_getElem, setBitIn_bit, clrBitIn_bit, h32, hb, hi, h]

theorem mergeByte_putByteBit (w d : Byte) (b : Bit) (v : Bool) :
    mergeByte w d (putByteBit d b v) = gatedPut (w.getLsbD b.val) d b v := by
  apply BitVec.eq_of_getLsbD_eq
  intro i hi
  rw [mergeByte_bit, gatedPut]
  by_cases h : i = b.val
  · subst h; split <;> simp [-BitVec.getLsbD_eq_getElem, *]
  · split <;> split <;> simp [-BitVec.getLsbD_eq_getElem, putByteBit_bit, hi, h]

theorem gatedPut_bit (w : Bool) (d : Byte) (b : Bit) (v : Bool) (i : Nat) (hi : i < 8) :
    (gatedPut w d b v).getLsbD i = if w = true ∧ i = b.val then v else d.getLsbD i := by
  cases w <;> simp [-BitVec.getLsbD_eq_getElem, gatedPut, putByteBit_bit, hi]

theorem spreadNibbles_bit (m : Byte) (i : Nat) (hi : i < 32) :
    (spreadNibbles m).getLsbD i = m.getLsbD (i / 4) := by
  have key : ∀ b : Nat, b < 8 →
      ((if m.getLsbD b then 0xF#32 <<< (4 * b) else 0#32).getLsbD i) = (m.getLsbD b && decide (i / 4 = b)) := by
    intro b hb
    cases hm : m.getLsbD b
    · simp
    · have hF : ∀ k : Nat, (0xF#32).getLsbD k = decide (k < 4) := by
        intro k
        by_cases hk : k < 32
        · revert k; decide
        · have : ¬ k < 4 := by omega
          simp [-BitVec.getLsbD_eq_getElem, this, BitVec.getLsbD_of_ge _ _ (Nat.le_of_not_lt hk)]
      simp [-BitVec.getLsbD_eq_getElem, hi, hF]
      by_cases h : i / 4 = b
      · have h1 : ¬ i < 4 * b := by omega
        have h2 : i - 4 * b < 4 := by omega
        simp [-BitVec.getLsbD_eq_getElem, h, h1, h2]
      · rcases Nat.lt_or_ge i (4 * b) with h1 | h1
        · simp [-BitVec.getLsbD_eq_getElem, h, h1]
        · have h2 : ¬ i - 4 * b < 4 := by omega
          simp [-BitVec.getLsbD_eq_getElem, h, h2]
  have hd : i / 4 < 8 := by omega
  simp only [spreadNibbles, BitVec.getLsbD_or]
  have e := fun b hb => key b hb
  have e0 := e 0 (by omega); have e1 := e 1 (by omega); have e2 := e 2 (by omega); have e3 := e 3 (by omega)
  have e4 := e 4 (by omega); have e5 := e 5 (by omega); have e6 := e 6 (by omega); have e7 := e 7 (by omega)
  simp only [Fin.isValue, show ((0 : Bit).val) = 0 from rfl, show ((1 : Bit).val) = 1 from rfl,
    show ((2 : Bit).val) = 2 from rfl, show ((3 : Bit).val) = 3 from rfl, show ((4 : Bit).val) = 4 from rfl,
    show ((5 : Bit).val) = 5 from rfl, show ((6 : Bit).val) = 6 from rfl, show ((7 : Bit).val) = 7 from rfl]
  rw [show (0 : Word) = 0#32 from rfl, e0, e1, e2, e3, e4, e5, e6, e7]
  generalize i / 4 = j at hd
  interval_cases j <;> simp

theorem mergeNibbles_bit (m : Byte) (o n : Word) (i : Nat) (hi : i < 32) :
    (mergeNibbles m o n).getLsbD i = if m.getLsbD (i / 4) then n.getLsbD i else o.getLsbD i := by
  cases h : m.getLsbD (i / 4) <;> simp [-BitVec.getLsbD_eq_getElem, mergeNibbles, spreadNibbles_bit, hi, h]

theorem putNibbleIn_bit (t : Word) (b : Bit) (c : BitVec 4) (i : Nat) (hi : i < 32) :
    (putNibbleIn t b c).getLsbD i = if i / 4 = b.val then c.getLsbD (i % 4) else t.getLsbD i := by
  have hF : ∀ k : Nat, (0xF#32).getLsbD k = decide (k < 4) := by
    intro k
    by_cases hk : k < 32
    · revert k; decide
    · have : ¬ k < 4 := by omega
      simp [-BitVec.getLsbD_eq_getElem, this, BitVec.getLsbD_of_ge _ _ (Nat.le_of_not_lt hk)]
  by_cases h : i / 4 = b.val
  · have h1 : ¬ i < 4 * b.val := by omega
    have h2 : i - 4 * b.val = i % 4 := by omega
    have h3 : i % 4 < 4 := Nat.mod_lt _ (by omega)
    have h4 : i - 4 * b.val < 32 := by omega
    simp [-BitVec.getLsbD_eq_getElem, putNibbleIn, hi, hF, h, h1, h2, h3]
    omega
  · rcases Nat.lt_or_ge i (4 * b.val) with h1 | h1
    · simp [-BitVec.getLsbD_eq_getElem, putNibbleIn, hi, hF, h, h1]
    · have h2 : ¬ i - 4 * b.val < 4 := by omega
      have h3 : ¬ i < 4 * b.val := by omega
      simp [-BitVec.getLsbD_eq_getElem, putNibbleIn, hi, hF, h, h2, h3, BitVec.getLsbD_of_ge c _ (Nat.le_of_not_lt h2)]

theorem mergeNibbles_putNibbleIn (w : Byte) (o : Word) (b : Bit) (c : BitVec 4) :
    mergeNibbles w o (putNibbleIn o b c) = if w.getLsbD b.val then putNibbleIn o b c else o := by
  apply BitVec.eq_of_getLsbD_eq
  intro i hi
  rw [mergeNibbles_bit _ _ _ _ hi]
  by_cases h : i / 4 = b.val
  · rw [h]; split <;> rfl
  · split <;> split <;> simp [-BitVec.getLsbD_eq_getElem, putNibbleIn_bit, hi, h]

theorem putNibbleIn_nibble (t : Word) (b b' : Bit) (c : BitVec 4) :
    (putNibbleIn t b c).extractLsb' (4 * b'.val) 4 =
      if b' = b then c else t.extractLsb' (4 * b'.val) 4 := by
  apply BitVec.eq_of_getLsbD_eq
  intro i hi
  have hb := b'.isLt
  have h1 : (4 * b'.val + i) / 4 = b'.val := by omega
  have h2 : (4 * b'.val + i) % 4 = i := by omega
  have h3 : 4 * b'.val + i < 32 := by omega
  by_cases h : b' = b
  · subst h; simp [-BitVec.getLsbD_eq_getElem, BitVec.getLsbD_extractLsb', hi, putNibbleIn_bit _ _ _ _ h3, h1, h2]
  · have h' : b'.val ≠ b.val := fun e => h (Fin.ext e)
    simp [-BitVec.getLsbD_eq_getElem, BitVec.getLsbD_extractLsb', hi, putNibbleIn_bit _ _ _ _ h3, h1, h, h']

theorem mergeNibbles_nibble (m : Byte) (o n : Word) (b : Bit) :
    (mergeNibbles m o n).extractLsb' (4 * b.val) 4 =
      if m.getLsbD b.val then n.extractLsb' (4 * b.val) 4 else o.extractLsb' (4 * b.val) 4 := by
  apply BitVec.eq_of_getLsbD_eq
  intro i hi
  have hb := b.isLt
  have h1 : (4 * b.val + i) / 4 = b.val := by omega
  have h3 : 4 * b.val + i < 32 := by omega
  cases h : m.getLsbD b.val <;> simp [-BitVec.getLsbD_eq_getElem, BitVec.getLsbD_extractLsb', hi, mergeNibbles_bit _ _ _ _ h3, h1, h]

/-- Two bytes with the same eight bits are the same. -/
theorem byte_ext (x y : Byte) (h : ∀ b : Bit, x.getLsbD b.val = y.getLsbD b.val) : x = y :=
  BitVec.eq_of_getLsbD_eq fun i hi => h ⟨i, hi⟩

/-- Two words with the same eight nibbles are the same. -/
theorem word_ext_nibbles (x y : Word)
    (h : ∀ b : Bit, x.extractLsb' (4 * b.val) 4 = y.extractLsb' (4 * b.val) 4) : x = y := by
  apply BitVec.eq_of_getLsbD_eq
  intro i hi
  have hd : i / 4 < 8 := by omega
  have e := congrArg (fun v : BitVec 4 => v.getLsbD (i % 4)) (h ⟨i / 4, hd⟩)
  have hm : i % 4 < 4 := Nat.mod_lt _ (by omega)
  have hs : 4 * (i / 4) + i % 4 = i := by omega
  simpa [BitVec.getLsbD_extractLsb', hm, hs] using e

theorem oneBit_bit (f : Bool) (b : Bit) (i : Nat) (hi : i < 8) :
    ((if f then 0#8 else 1#8 <<< b.val).getLsbD i) = (!f && decide (i = b.val)) := by
  cases f
  · rcases Nat.lt_trichotomy i b.val with h | h | h
    · have : i ≠ b.val := by omega
      simp [-BitVec.getLsbD_eq_getElem, h, this]
    · subst h; simp
    · have h1 : i ≠ b.val := by omega
      have h2 : i - b.val ≠ 0 := by omega
      simp [-BitVec.getLsbD_eq_getElem, h1, h2]
  · simp

/-- The commit bits after reset (R38, R45). -/
theorem commitReset_bit (par : Config) (p : Nat) (b : Bit) :
    (commitReset par p).getLsbD b.val = !par.isProtected p b := by
  have e := fun a : Bit => oneBit_bit (par.isProtected p a) a b.val b.isLt
  simp only [commitReset, BitVec.getLsbD_or]
  rw [show (0 : Byte) = 0#8 from rfl, e, e, e, e, e, e, e, e]
  fin_cases b <;> simp

end Sys2Proof.Machine
end

