-- ==== Sys2Proof/Laws/State.lean ====
section
/-! SUPPORT. The small lemmas of State: for each update, what it leaves in each field, true by definition; and what reading
a context or a port gives after an update. -/

namespace Sys2Proof.Machine

/-! ### setCtx -/

@[simp] theorem State.setCtx_par (s : State) (c : Nat) (x : Ctx) : (s.setCtx c x).par = s.par := rfl
@[simp] theorem State.setCtx_mstate (s : State) (c : Nat) (x : Ctx) : (s.setCtx c x).mstate = s.mstate := rfl
@[simp] theorem State.setCtx_cfg (s : State) (c : Nat) (x : Ctx) : (s.setCtx c x).cfg = s.cfg := rfl
@[simp] theorem State.setCtx_diag (s : State) (c : Nat) (x : Ctx) : (s.setCtx c x).diag = s.diag := rfl
@[simp] theorem State.setCtx_faulted (s : State) (c : Nat) (x : Ctx) : (s.setCtx c x).faulted = s.faulted := rfl
@[simp] theorem State.setCtx_refused (s : State) (c : Nat) (x : Ctx) : (s.setCtx c x).refused = s.refused := rfl
@[simp] theorem State.setCtx_ctxs (s : State) (c : Nat) (x : Ctx) : (s.setCtx c x).ctxs = s.ctxs.set c x := rfl
@[simp] theorem State.setCtx_clken (s : State) (c : Nat) (x : Ctx) : (s.setCtx c x).clken = s.clken := rfl
@[simp] theorem State.setCtx_ports (s : State) (c : Nat) (x : Ctx) : (s.setCtx c x).ports = s.ports := rfl
@[simp] theorem State.setCtx_responses (s : State) (c : Nat) (x : Ctx) : (s.setCtx c x).responses = s.responses := rfl
@[simp] theorem State.setCtx_envReads (s : State) (c : Nat) (x : Ctx) : (s.setCtx c x).envReads = s.envReads := rfl
@[simp] theorem State.setCtx_agenda (s : State) (c : Nat) (x : Ctx) : (s.setCtx c x).agenda = s.agenda := rfl
@[simp] theorem State.setCtx_cur (s : State) (c : Nat) (x : Ctx) : (s.setCtx c x).cur = s.cur := rfl
@[simp] theorem State.setCtx_draws (s : State) (c : Nat) (x : Ctx) : (s.setCtx c x).draws = s.draws := rfl

/-! ### setTmp -/

@[simp] theorem State.setTmp_par (s : State) (c : Nat) (v : Word) : (s.setTmp c v).par = s.par := rfl
@[simp] theorem State.setTmp_mstate (s : State) (c : Nat) (v : Word) : (s.setTmp c v).mstate = s.mstate := rfl
@[simp] theorem State.setTmp_cfg (s : State) (c : Nat) (v : Word) : (s.setTmp c v).cfg = s.cfg := rfl
@[simp] theorem State.setTmp_diag (s : State) (c : Nat) (v : Word) : (s.setTmp c v).diag = s.diag := rfl
@[simp] theorem State.setTmp_faulted (s : State) (c : Nat) (v : Word) : (s.setTmp c v).faulted = s.faulted := rfl
@[simp] theorem State.setTmp_refused (s : State) (c : Nat) (v : Word) : (s.setTmp c v).refused = s.refused := rfl
@[simp] theorem State.setTmp_clken (s : State) (c : Nat) (v : Word) : (s.setTmp c v).clken = s.clken := rfl
@[simp] theorem State.setTmp_ports (s : State) (c : Nat) (v : Word) : (s.setTmp c v).ports = s.ports := rfl
@[simp] theorem State.setTmp_responses (s : State) (c : Nat) (v : Word) : (s.setTmp c v).responses = s.responses := rfl
@[simp] theorem State.setTmp_envReads (s : State) (c : Nat) (v : Word) : (s.setTmp c v).envReads = s.envReads := rfl
@[simp] theorem State.setTmp_agenda (s : State) (c : Nat) (v : Word) : (s.setTmp c v).agenda = s.agenda := rfl
@[simp] theorem State.setTmp_cur (s : State) (c : Nat) (v : Word) : (s.setTmp c v).cur = s.cur := rfl
@[simp] theorem State.setTmp_draws (s : State) (c : Nat) (v : Word) : (s.setTmp c v).draws = s.draws := rfl

/-! ### setPos -/

@[simp] theorem State.setPos_par (s : State) (c : Nat) (q : Pos) : (s.setPos c q).par = s.par := rfl
@[simp] theorem State.setPos_mstate (s : State) (c : Nat) (q : Pos) : (s.setPos c q).mstate = s.mstate := rfl
@[simp] theorem State.setPos_cfg (s : State) (c : Nat) (q : Pos) : (s.setPos c q).cfg = s.cfg := rfl
@[simp] theorem State.setPos_diag (s : State) (c : Nat) (q : Pos) : (s.setPos c q).diag = s.diag := rfl
@[simp] theorem State.setPos_faulted (s : State) (c : Nat) (q : Pos) : (s.setPos c q).faulted = s.faulted := rfl
@[simp] theorem State.setPos_refused (s : State) (c : Nat) (q : Pos) : (s.setPos c q).refused = s.refused := rfl
@[simp] theorem State.setPos_clken (s : State) (c : Nat) (q : Pos) : (s.setPos c q).clken = s.clken := rfl
@[simp] theorem State.setPos_ports (s : State) (c : Nat) (q : Pos) : (s.setPos c q).ports = s.ports := rfl
@[simp] theorem State.setPos_responses (s : State) (c : Nat) (q : Pos) : (s.setPos c q).responses = s.responses := rfl
@[simp] theorem State.setPos_envReads (s : State) (c : Nat) (q : Pos) : (s.setPos c q).envReads = s.envReads := rfl
@[simp] theorem State.setPos_agenda (s : State) (c : Nat) (q : Pos) : (s.setPos c q).agenda = s.agenda := rfl
@[simp] theorem State.setPos_cur (s : State) (c : Nat) (q : Pos) : (s.setPos c q).cur = s.cur := rfl
@[simp] theorem State.setPos_draws (s : State) (c : Nat) (q : Pos) : (s.setPos c q).draws = s.draws := rfl

/-! ### setFailf -/

@[simp] theorem State.setFailf_par (s : State) (c : Nat) : (s.setFailf c).par = s.par := rfl
@[simp] theorem State.setFailf_mstate (s : State) (c : Nat) : (s.setFailf c).mstate = s.mstate := rfl
@[simp] theorem State.setFailf_cfg (s : State) (c : Nat) : (s.setFailf c).cfg = s.cfg := rfl
@[simp] theorem State.setFailf_diag (s : State) (c : Nat) : (s.setFailf c).diag = s.diag := rfl
@[simp] theorem State.setFailf_faulted (s : State) (c : Nat) : (s.setFailf c).faulted = s.faulted := rfl
@[simp] theorem State.setFailf_refused (s : State) (c : Nat) : (s.setFailf c).refused = s.refused := rfl
@[simp] theorem State.setFailf_clken (s : State) (c : Nat) : (s.setFailf c).clken = s.clken := rfl
@[simp] theorem State.setFailf_ports (s : State) (c : Nat) : (s.setFailf c).ports = s.ports := rfl
@[simp] theorem State.setFailf_responses (s : State) (c : Nat) : (s.setFailf c).responses = s.responses := rfl
@[simp] theorem State.setFailf_envReads (s : State) (c : Nat) : (s.setFailf c).envReads = s.envReads := rfl
@[simp] theorem State.setFailf_agenda (s : State) (c : Nat) : (s.setFailf c).agenda = s.agenda := rfl
@[simp] theorem State.setFailf_cur (s : State) (c : Nat) : (s.setFailf c).cur = s.cur := rfl
@[simp] theorem State.setFailf_draws (s : State) (c : Nat) : (s.setFailf c).draws = s.draws := rfl

/-! ### setPort -/

@[simp] theorem State.setPort_par (s : State) (p : Nat) (r : PortRegs) : (s.setPort p r).par = s.par := rfl
@[simp] theorem State.setPort_mstate (s : State) (p : Nat) (r : PortRegs) : (s.setPort p r).mstate = s.mstate := rfl
@[simp] theorem State.setPort_cfg (s : State) (p : Nat) (r : PortRegs) : (s.setPort p r).cfg = s.cfg := rfl
@[simp] theorem State.setPort_diag (s : State) (p : Nat) (r : PortRegs) : (s.setPort p r).diag = s.diag := rfl
@[simp] theorem State.setPort_faulted (s : State) (p : Nat) (r : PortRegs) : (s.setPort p r).faulted = s.faulted := rfl
@[simp] theorem State.setPort_refused (s : State) (p : Nat) (r : PortRegs) : (s.setPort p r).refused = s.refused := rfl
@[simp] theorem State.setPort_ctxs (s : State) (p : Nat) (r : PortRegs) : (s.setPort p r).ctxs = s.ctxs := rfl
@[simp] theorem State.setPort_clken (s : State) (p : Nat) (r : PortRegs) : (s.setPort p r).clken = s.clken := rfl
@[simp] theorem State.setPort_ports (s : State) (p : Nat) (r : PortRegs) : (s.setPort p r).ports = s.ports.set p r := rfl
@[simp] theorem State.setPort_responses (s : State) (p : Nat) (r : PortRegs) : (s.setPort p r).responses = s.responses := rfl
@[simp] theorem State.setPort_envReads (s : State) (p : Nat) (r : PortRegs) : (s.setPort p r).envReads = s.envReads := rfl
@[simp] theorem State.setPort_agenda (s : State) (p : Nat) (r : PortRegs) : (s.setPort p r).agenda = s.agenda := rfl
@[simp] theorem State.setPort_cur (s : State) (p : Nat) (r : PortRegs) : (s.setPort p r).cur = s.cur := rfl
@[simp] theorem State.setPort_draws (s : State) (p : Nat) (r : PortRegs) : (s.setPort p r).draws = s.draws := rfl

/-! ### report -/

@[simp] theorem State.report_par (s : State) (ws : List Word) : (s.report ws).par = s.par := rfl
@[simp] theorem State.report_mstate (s : State) (ws : List Word) : (s.report ws).mstate = s.mstate := rfl
@[simp] theorem State.report_cfg (s : State) (ws : List Word) : (s.report ws).cfg = s.cfg := rfl
@[simp] theorem State.report_diag (s : State) (ws : List Word) : (s.report ws).diag = s.diag ++ ws := rfl
@[simp] theorem State.report_faulted (s : State) (ws : List Word) : (s.report ws).faulted = s.faulted := rfl
@[simp] theorem State.report_refused (s : State) (ws : List Word) : (s.report ws).refused = s.refused := rfl
@[simp] theorem State.report_ctxs (s : State) (ws : List Word) : (s.report ws).ctxs = s.ctxs := rfl
@[simp] theorem State.report_clken (s : State) (ws : List Word) : (s.report ws).clken = s.clken := rfl
@[simp] theorem State.report_ports (s : State) (ws : List Word) : (s.report ws).ports = s.ports := rfl
@[simp] theorem State.report_responses (s : State) (ws : List Word) : (s.report ws).responses = s.responses := rfl
@[simp] theorem State.report_envReads (s : State) (ws : List Word) : (s.report ws).envReads = s.envReads := rfl
@[simp] theorem State.report_agenda (s : State) (ws : List Word) : (s.report ws).agenda = s.agenda := rfl
@[simp] theorem State.report_cur (s : State) (ws : List Word) : (s.report ws).cur = s.cur := rfl
@[simp] theorem State.report_draws (s : State) (ws : List Word) : (s.report ws).draws = s.draws := rfl

/-! ### markFault -/

@[simp] theorem State.markFault_par (s : State) (r : Fault) : (s.markFault r).par = s.par := rfl
@[simp] theorem State.markFault_mstate (s : State) (r : Fault) : (s.markFault r).mstate = s.mstate := rfl
@[simp] theorem State.markFault_cfg (s : State) (r : Fault) : (s.markFault r).cfg = s.cfg := rfl
@[simp] theorem State.markFault_diag (s : State) (r : Fault) : (s.markFault r).diag = s.diag := rfl
@[simp] theorem State.markFault_faulted (s : State) (r : Fault) : (s.markFault r).faulted = some (s.faulted.getD r) := rfl
@[simp] theorem State.markFault_refused (s : State) (r : Fault) : (s.markFault r).refused = s.refused := rfl
@[simp] theorem State.markFault_ctxs (s : State) (r : Fault) : (s.markFault r).ctxs = s.ctxs := rfl
@[simp] theorem State.markFault_clken (s : State) (r : Fault) : (s.markFault r).clken = s.clken := rfl
@[simp] theorem State.markFault_ports (s : State) (r : Fault) : (s.markFault r).ports = s.ports := rfl
@[simp] theorem State.markFault_responses (s : State) (r : Fault) : (s.markFault r).responses = s.responses := rfl
@[simp] theorem State.markFault_envReads (s : State) (r : Fault) : (s.markFault r).envReads = s.envReads := rfl
@[simp] theorem State.markFault_agenda (s : State) (r : Fault) : (s.markFault r).agenda = s.agenda := rfl
@[simp] theorem State.markFault_cur (s : State) (r : Fault) : (s.markFault r).cur = s.cur := rfl
@[simp] theorem State.markFault_draws (s : State) (r : Fault) : (s.markFault r).draws = s.draws := rfl

/-! ### markRefused -/

@[simp] theorem State.markRefused_par (s : State) (r : Refusal) : (s.markRefused r).par = s.par := rfl
@[simp] theorem State.markRefused_mstate (s : State) (r : Refusal) : (s.markRefused r).mstate = s.mstate := rfl
@[simp] theorem State.markRefused_cfg (s : State) (r : Refusal) : (s.markRefused r).cfg = s.cfg := rfl
@[simp] theorem State.markRefused_diag (s : State) (r : Refusal) : (s.markRefused r).diag = s.diag := rfl
@[simp] theorem State.markRefused_faulted (s : State) (r : Refusal) : (s.markRefused r).faulted = s.faulted := rfl
@[simp] theorem State.markRefused_refused (s : State) (r : Refusal) : (s.markRefused r).refused = some (s.refused.getD r) := rfl
@[simp] theorem State.markRefused_ctxs (s : State) (r : Refusal) : (s.markRefused r).ctxs = s.ctxs := rfl
@[simp] theorem State.markRefused_clken (s : State) (r : Refusal) : (s.markRefused r).clken = s.clken := rfl
@[simp] theorem State.markRefused_ports (s : State) (r : Refusal) : (s.markRefused r).ports = s.ports := rfl
@[simp] theorem State.markRefused_responses (s : State) (r : Refusal) : (s.markRefused r).responses = s.responses := rfl
@[simp] theorem State.markRefused_envReads (s : State) (r : Refusal) : (s.markRefused r).envReads = s.envReads := rfl
@[simp] theorem State.markRefused_agenda (s : State) (r : Refusal) : (s.markRefused r).agenda = s.agenda := rfl
@[simp] theorem State.markRefused_cur (s : State) (r : Refusal) : (s.markRefused r).cur = s.cur := rfl
@[simp] theorem State.markRefused_draws (s : State) (r : Refusal) : (s.markRefused r).draws = s.draws := rfl

/-! ### answered -/

@[simp] theorem State.answered_par (s : State) (i : Instr) (q : Pos) (tmp res : Word) : (s.answered i q tmp res).par = s.par := rfl
@[simp] theorem State.answered_mstate (s : State) (i : Instr) (q : Pos) (tmp res : Word) : (s.answered i q tmp res).mstate = s.mstate := rfl
@[simp] theorem State.answered_cfg (s : State) (i : Instr) (q : Pos) (tmp res : Word) : (s.answered i q tmp res).cfg = s.cfg := rfl
@[simp] theorem State.answered_diag (s : State) (i : Instr) (q : Pos) (tmp res : Word) : (s.answered i q tmp res).diag = s.diag := rfl
@[simp] theorem State.answered_faulted (s : State) (i : Instr) (q : Pos) (tmp res : Word) : (s.answered i q tmp res).faulted = s.faulted := rfl
@[simp] theorem State.answered_refused (s : State) (i : Instr) (q : Pos) (tmp res : Word) : (s.answered i q tmp res).refused = s.refused := rfl
@[simp] theorem State.answered_clken (s : State) (i : Instr) (q : Pos) (tmp res : Word) : (s.answered i q tmp res).clken = s.clken := rfl
@[simp] theorem State.answered_ports (s : State) (i : Instr) (q : Pos) (tmp res : Word) : (s.answered i q tmp res).ports = s.ports := rfl
@[simp] theorem State.answered_responses (s : State) (i : Instr) (q : Pos) (tmp res : Word) : (s.answered i q tmp res).responses = s.responses ++ [⟨s.cur, res, false⟩] := rfl
@[simp] theorem State.answered_envReads (s : State) (i : Instr) (q : Pos) (tmp res : Word) : (s.answered i q tmp res).envReads = s.envReads := rfl
@[simp] theorem State.answered_agenda (s : State) (i : Instr) (q : Pos) (tmp res : Word) : (s.answered i q tmp res).agenda = s.agenda := rfl
@[simp] theorem State.answered_cur (s : State) (i : Instr) (q : Pos) (tmp res : Word) : (s.answered i q tmp res).cur = s.cur := rfl
@[simp] theorem State.answered_draws (s : State) (i : Instr) (q : Pos) (tmp res : Word) : (s.answered i q tmp res).draws = s.draws := rfl

/-! ### fetchCall -/

@[simp] theorem State.fetchCall_par (s : State) (c : Nat) (rest : List Event) : (s.fetchCall c rest).par = s.par := rfl
@[simp] theorem State.fetchCall_mstate (s : State) (c : Nat) (rest : List Event) : (s.fetchCall c rest).mstate = s.mstate := rfl
@[simp] theorem State.fetchCall_cfg (s : State) (c : Nat) (rest : List Event) : (s.fetchCall c rest).cfg = s.cfg := rfl
@[simp] theorem State.fetchCall_diag (s : State) (c : Nat) (rest : List Event) : (s.fetchCall c rest).diag = s.diag := rfl
@[simp] theorem State.fetchCall_faulted (s : State) (c : Nat) (rest : List Event) : (s.fetchCall c rest).faulted = s.faulted := rfl
@[simp] theorem State.fetchCall_refused (s : State) (c : Nat) (rest : List Event) : (s.fetchCall c rest).refused = s.refused := rfl
@[simp] theorem State.fetchCall_ctxs (s : State) (c : Nat) (rest : List Event) : (s.fetchCall c rest).ctxs = s.ctxs := rfl
@[simp] theorem State.fetchCall_clken (s : State) (c : Nat) (rest : List Event) : (s.fetchCall c rest).clken = s.clken := rfl
@[simp] theorem State.fetchCall_ports (s : State) (c : Nat) (rest : List Event) : (s.fetchCall c rest).ports = s.ports := rfl
@[simp] theorem State.fetchCall_responses (s : State) (c : Nat) (rest : List Event) : (s.fetchCall c rest).responses = s.responses := rfl
@[simp] theorem State.fetchCall_envReads (s : State) (c : Nat) (rest : List Event) : (s.fetchCall c rest).envReads = s.envReads := rfl
@[simp] theorem State.fetchCall_agenda (s : State) (c : Nat) (rest : List Event) : (s.fetchCall c rest).agenda = rest := rfl
@[simp] theorem State.fetchCall_cur (s : State) (c : Nat) (rest : List Event) : (s.fetchCall c rest).cur = c := rfl
@[simp] theorem State.fetchCall_draws (s : State) (c : Nat) (rest : List Event) : (s.fetchCall c rest).draws = s.draws := rfl

/-! ### Reading contexts and ports -/

@[simp] theorem State.setCtx_nports (s : State) (c : Nat) (x : Ctx) : (s.setCtx c x).nports = s.nports := rfl
@[simp] theorem State.setTmp_nports (s : State) (c : Nat) (v : Word) : (s.setTmp c v).nports = s.nports := rfl
@[simp] theorem State.setPos_nports (s : State) (c : Nat) (q : Pos) : (s.setPos c q).nports = s.nports := rfl
@[simp] theorem State.setPort_nports (s : State) (p : Nat) (r : PortRegs) : (s.setPort p r).nports = s.nports := by
  simp [State.nports]
@[simp] theorem State.setCtx_nctx (s : State) (c : Nat) (x : Ctx) : (s.setCtx c x).nctx = s.nctx := by
  simp [State.nctx]
@[simp] theorem State.setTmp_nctx (s : State) (c : Nat) (v : Word) : (s.setTmp c v).nctx = s.nctx := by
  simp [State.setTmp]
@[simp] theorem State.setPos_nctx (s : State) (c : Nat) (q : Pos) : (s.setPos c q).nctx = s.nctx := by
  simp [State.setPos]
@[simp] theorem State.setPort_nctx (s : State) (p : Nat) (r : PortRegs) : (s.setPort p r).nctx = s.nctx := rfl

theorem State.ctx_setCtx_same (s : State) (c : Nat) (x : Ctx) (h : c < s.nctx) : (s.setCtx c x).ctx c = x := by
  have h' : c < s.ctxs.length := h
  simp [State.ctx, h']

theorem State.ctx_setCtx_other (s : State) (c d : Nat) (x : Ctx) (h : c ≠ d) : (s.setCtx c x).ctx d = s.ctx d := by
  simp [State.ctx, List.getElem?_set_ne h]

@[simp] theorem State.ctx_setPort (s : State) (p : Nat) (r : PortRegs) (c : Nat) : (s.setPort p r).ctx c = s.ctx c := rfl
@[simp] theorem State.ctx_report (s : State) (ws : List Word) (c : Nat) : (s.report ws).ctx c = s.ctx c := rfl
@[simp] theorem State.ctx_markFault (s : State) (r : Fault) (c : Nat) : (s.markFault r).ctx c = s.ctx c := rfl
@[simp] theorem State.ctx_markRefused (s : State) (r : Refusal) (c : Nat) : (s.markRefused r).ctx c = s.ctx c := rfl

theorem State.port_setPort_same (s : State) (p : Nat) (r : PortRegs) (h : p < s.nports) : (s.setPort p r).port p = r := by
  have h' : p < s.ports.length := h
  simp [State.port, h']

theorem State.port_setPort_other (s : State) (p q : Nat) (r : PortRegs) (h : p ≠ q) :
    (s.setPort p r).port q = s.port q := by
  simp [State.port, List.getElem?_set_ne h]

@[simp] theorem State.port_setCtx (s : State) (c : Nat) (x : Ctx) (p : Nat) : (s.setCtx c x).port p = s.port p := rfl
@[simp] theorem State.port_setTmp (s : State) (c : Nat) (v : Word) (p : Nat) : (s.setTmp c v).port p = s.port p := rfl
@[simp] theorem State.port_setPos (s : State) (c : Nat) (q : Pos) (p : Nat) : (s.setPos c q).port p = s.port p := rfl
@[simp] theorem State.port_report (s : State) (ws : List Word) (p : Nat) : (s.report ws).port p = s.port p := rfl
@[simp] theorem State.port_markFault (s : State) (r : Fault) (p : Nat) : (s.markFault r).port p = s.port p := rfl
@[simp] theorem State.port_markRefused (s : State) (r : Refusal) (p : Nat) : (s.markRefused r).port p = s.port p := rfl

theorem State.setCtx_setCtx (s : State) (c : Nat) (x y : Ctx) : (s.setCtx c x).setCtx c y = s.setCtx c y := by
  simp [State.setCtx]

theorem State.setPort_setPort (s : State) (p : Nat) (x y : PortRegs) : (s.setPort p x).setPort p y = s.setPort p y := by
  simp [State.setPort]

theorem State.setPort_setCtx (s : State) (p : Nat) (r : PortRegs) (c : Nat) (x : Ctx) :
    (s.setPort p r).setCtx c x = (s.setCtx c x).setPort p r := rfl

theorem State.setPort_port (s : State) (p : Nat) (h : p < s.nports) : s.setPort p (s.port p) = s := by
  have h' : p < s.ports.length := h
  have : s.ports.set p s.ports[p] = s.ports := List.set_getElem_self h'
  simp [State.setPort, State.port, h', this]

/-! ### Marks -/

theorem State.live_iff (s : State) : s.live = true ↔ Unmarked s := by
  simp [State.live, Unmarked]

@[simp] theorem State.markFault_not_live (s : State) (r : Fault) : (s.markFault r).live = false := by
  simp [State.live]

@[simp] theorem State.markRefused_not_live (s : State) (r : Refusal) : (s.markRefused r).live = false := by
  simp [State.live]

@[simp] theorem State.setCtx_live (s : State) (c : Nat) (x : Ctx) : (s.setCtx c x).live = s.live := rfl
@[simp] theorem State.setTmp_live (s : State) (c : Nat) (v : Word) : (s.setTmp c v).live = s.live := rfl
@[simp] theorem State.setPos_live (s : State) (c : Nat) (q : Pos) : (s.setPos c q).live = s.live := rfl
@[simp] theorem State.setFailf_live (s : State) (c : Nat) : (s.setFailf c).live = s.live := rfl
@[simp] theorem State.setPort_live (s : State) (p : Nat) (r : PortRegs) : (s.setPort p r).live = s.live := rfl
@[simp] theorem State.report_live (s : State) (ws : List Word) : (s.report ws).live = s.live := rfl

theorem State.andThen_of_live (s : State) (f : State → State) (h : s.live = true) : s.andThen f = f s := by
  simp [State.andThen, h]

theorem State.andThen_of_marked (s : State) (f : State → State) (h : s.live = false) : s.andThen f = s := by
  simp [State.andThen, h]

end Sys2Proof.Machine
end

