-- ==== Sys2Proof/Laws/Ops.lean ====
section
/-! SUPPORT. Everything the access primitives and one micro-op can do, said once. -/

namespace Sys2Proof.Machine

/-! ### The clock check -/

theorem State.denied_of_clocked (s : State) (p : Nat) (h : Clocked s p) : s.denied p = none := by
  simp [State.denied, h.1, h.2]

theorem State.denied_eq_none (s : State) (p : Nat) : s.denied p = none ↔ Clocked s p := by
  unfold State.denied Clocked
  split
  · split <;> simp_all
  · simp_all

theorem State.denied_of_clockOff (s : State) (p : Nat) (h : p < s.nports) (hc : s.clken.getLsbD p = false) :
    s.denied p = some (.clockOff p) := by
  simp [State.denied, h, hc]

/-! ### Loads and stores -/

/-- A load moves nothing but the draw counter, and that only for a `LOCK` read. -/
theorem State.load_ok {s t : State} {l : Loc} {v : Word} (h : s.load l = .ok (v, t)) :
    t = s ∨ ((∃ p, l = .reg p .lock) ∧ t = { s with draws := s.draws + 1 }) := by
  cases l with
  | reg p k =>
    simp only [State.load, regRead] at h
    split at h
    · cases h
    · cases k <;> simp at h <;> simp [h]
  | clken => simp only [State.load] at h; cases h; exact .inl rfl
  | aliasBit p b =>
    simp only [State.load] at h
    split at h
    · cases h; exact .inl rfl
    · cases h

/-- A store to a register changes that port only, by `PortRegs.write`; to `CLKEN`, `CLKEN` only; to an alias word, one
data bit of the port only. -/
theorem State.store_ok {s t : State} {l : Loc} {v : Word} (h : s.store l v = .ok t) :
    (∃ p k, l = .reg p k ∧ Clocked s p ∧ t = s.setPort p ((s.port p).write s.par k v)) ∨
    (l = .clken ∧ t = { s with clken := v }) ∨
    (∃ p b, l = .aliasBit p b ∧ Clocked s p ∧
      t = s.setPort p { s.port p with data := putByteBit (s.port p).data b (v.getLsbD 0) }) := by
  cases l with
  | reg p k =>
    simp only [State.store, regWrite] at h
    split at h
    · cases h
    · rename_i hd
      cases h
      exact .inl ⟨p, k, rfl, (s.denied_eq_none p).1 hd, rfl⟩
  | clken => cases h; exact .inr (.inl ⟨rfl, rfl⟩)
  | aliasBit p b =>
    simp only [State.store, aliasWrite] at h
    split at h
    · cases h
    · rename_i hd
      cases h
      exact .inr (.inr ⟨p, b, rfl, (s.denied_eq_none p).1 hd, rfl⟩)

theorem regRead_of_clocked (s : State) (p : Nat) (k : Kind) (h : Clocked s p) (hk : k ≠ .lock) :
    regRead s p k = .ok ((s.port p).stored k, s) := by
  have hd := s.denied_of_clocked p h
  cases k <;> first | exact absurd rfl hk | simp [regRead, hd]

theorem regWrite_of_clocked (s : State) (p : Nat) (k : Kind) (v : Word) (h : Clocked s p) :
    regWrite s p k v = .ok (s.setPort p ((s.port p).write s.par k v)) := by
  simp [regWrite, State.denied_of_clocked s p h]

theorem aliasRead_of_clocked (s : State) (p : Nat) (b : Bit) (h : Clocked s p) :
    aliasRead s p b = .ok (if (s.port p).data.getLsbD b.val then 1 else 0) := by
  simp [aliasRead, State.denied_of_clocked s p h]

theorem aliasWrite_of_clocked (s : State) (p : Nat) (b : Bit) (v : Word) (h : Clocked s p) :
    aliasWrite s p b v =
      .ok (s.setPort p { s.port p with data := putByteBit (s.port p).data b (v.getLsbD 0) }) := by
  simp [aliasWrite, State.denied_of_clocked s p h]

/-! ### What a register write stores -/

/-- A write of one kind leaves every other kind of the port. -/
theorem PortRegs.write_stored_other (par : Config) (k k' : Kind) (v : Word) (r : PortRegs) (h : k' ≠ k) :
    (r.write par k v).stored k' = r.stored k' := by
  cases k <;> cases k' <;>
    first | exact absurd rfl h | rfl | (simp only [PortRegs.write, PortRegs.stored]; split <;> rfl)

@[simp] theorem PortRegs.write_locked (par : Config) (k : Kind) (v : Word) (r : PortRegs) (h : k ≠ .lock) :
    (r.write par k v).locked = r.locked := by
  cases k <;> first | exact absurd rfl h | rfl | (simp only [PortRegs.write]; split <;> rfl)

theorem PortRegs.write_dir_bit (par : Config) (r : PortRegs) (b : Bit) (v : Bool) :
    r.write par .dir (if v then setBitIn (r.dir.setWidth 32) b.val else clrBitIn (r.dir.setWidth 32) b.val) =
      { r with dir := gatedPut ((r.writable par .dir).getLsbD b.val) r.dir b v } := by
  simp only [PortRegs.write, bitFormula_byte, mergeByte_putByteBit]

theorem PortRegs.write_afen_bit (par : Config) (r : PortRegs) (b : Bit) (v : Bool) :
    r.write par .afen (if v then setBitIn (r.afen.setWidth 32) b.val else clrBitIn (r.afen.setWidth 32) b.val) =
      { r with afen := gatedPut ((r.writable par .afen).getLsbD b.val) r.afen b v } := by
  simp only [PortRegs.write, bitFormula_byte, mergeByte_putByteBit]

theorem PortRegs.write_pur_bit (par : Config) (r : PortRegs) (b : Bit) (v : Bool) :
    r.write par .pur (if v then setBitIn (r.pur.setWidth 32) b.val else clrBitIn (r.pur.setWidth 32) b.val) =
      { r with pur := gatedPut ((r.writable par .pur).getLsbD b.val) r.pur b v } := by
  simp only [PortRegs.write, bitFormula_byte, mergeByte_putByteBit]

theorem PortRegs.write_pdr_bit (par : Config) (r : PortRegs) (b : Bit) (v : Bool) :
    r.write par .pdr (if v then setBitIn (r.pdr.setWidth 32) b.val else clrBitIn (r.pdr.setWidth 32) b.val) =
      { r with pdr := gatedPut ((r.writable par .pdr).getLsbD b.val) r.pdr b v } := by
  simp only [PortRegs.write, bitFormula_byte, mergeByte_putByteBit]

theorem PortRegs.write_den_bit (par : Config) (r : PortRegs) (b : Bit) (v : Bool) :
    r.write par .den (if v then setBitIn (r.den.setWidth 32) b.val else clrBitIn (r.den.setWidth 32) b.val) =
      { r with den := gatedPut ((r.writable par .den).getLsbD b.val) r.den b v } := by
  simp only [PortRegs.write, bitFormula_byte, mergeByte_putByteBit]

theorem PortRegs.write_amsel_bit (par : Config) (r : PortRegs) (b : Bit) (v : Bool) :
    r.write par .amsel (if v then setBitIn (r.amsel.setWidth 32) b.val else clrBitIn (r.amsel.setWidth 32) b.val) =
      { r with amsel := gatedPut ((r.writable par .amsel).getLsbD b.val) r.amsel b v } := by
  simp only [PortRegs.write, bitFormula_byte, mergeByte_putByteBit]

theorem PortRegs.write_data_bit (par : Config) (r : PortRegs) (b : Bit) (v : Bool) :
    r.write par .data (if v then setBitIn (r.data.setWidth 32) b.val else clrBitIn (r.data.setWidth 32) b.val) =
      { r with data := putByteBit r.data b v } := by
  simp only [PortRegs.write, bitFormula_byte]

theorem PortRegs.write_commit_bit (par : Config) (r : PortRegs) (b : Bit) (v : Bool) (h : r.locked = false) :
    r.write par .commit
        (if v then setBitIn (r.commit.setWidth 32) b.val else clrBitIn (r.commit.setWidth 32) b.val) =
      { r with commit := putByteBit r.commit b v } := by
  simp [PortRegs.write, bitFormula_byte, h]

theorem PortRegs.write_muxsel_nibble (par : Config) (r : PortRegs) (b : Bit) (c : BitVec 4) :
    r.write par .muxsel (putNibbleIn r.muxsel b c) =
      { r with
        muxsel := if (r.writable par .muxsel).getLsbD b.val then putNibbleIn r.muxsel b c else r.muxsel } := by
  simp only [PortRegs.write, mergeNibbles_putNibbleIn]

end Sys2Proof.Machine
end

