-- ==== Sys2Proof/Laws/PerInstr.lean ====
section
/-! SUPPORT. Facts about a command as syntax, one lemma per constructor. -/

namespace Sys2Proof.Laws.EncodesItsRow

/-- The row of spec/opcode_table.json a command belongs to, as its match and its mask (R92 to R98). -/
def row : Instr → Word × Word
  | .init _ => (0x01000000, 0xFFFFFFFF)
  | .setDir _ _ _ => (0x02000000, 0xFFFE0000)
  | .setMode _ _ _ => (0x03000000, 0xFF000000)
  | .refreshDir _ => (0x04000000, 0xFFFFFFFF)
  | .readCh _ _ => (0x10000000, 0xFFFF0000)
  | .writeCh _ _ _ => (0x11000000, 0xFFFE0000)
  | .readPort _ _ => (0x12000000, 0xFFFF0000)
  | .writePort _ _ => (0x13000000, 0xFFFF0000)
  | .readGroup _ => (0x14000000, 0xFFFFFFFF)
  | .writeGroup _ _ => (0x15000000, 0xFFFF0000)
  | .flipCh _ _ => (0x16000000, 0xFFFF0000)

/-- The command word lies in the row: it agrees with the row's match wherever the mask looks. -/
def Statement (i : Instr) : Prop := cmdOf i &&& (row i).2 = (row i).1

/-- The free low half of a row. -/
theorem low_half (opc val : Byte) (x : BitVec 16) : cmdWord opc val x &&& 0xFFFF0000 = cmdWord opc val 0 := by
  apply BitVec.eq_of_getLsbD_eq
  intro k hk
  have hm : (0xFFFF0000 : Word).getLsbD k = decide (16 ≤ k) := by
    revert hk; revert k; decide
  by_cases h : k < 16
  · simp only [cmdWord, BitVec.getLsbD_and, BitVec.getLsbD_append, hm]
    simp [h]
  · simp only [cmdWord, BitVec.getLsbD_and, BitVec.getLsbD_append, hm]
    simp [h]
    omega

/-- A mask that looks at less of the upper half than `low_half` does. -/
theorem narrower (m : Word) (hm : 0xFFFF0000 &&& m = m) (opc val : Byte) (x : BitVec 16) :
    cmdWord opc val x &&& m = cmdWord opc val 0 &&& m := by
  have e : cmdWord opc val x &&& m = cmdWord opc val x &&& 0xFFFF0000 &&& m := by rw [BitVec.and_assoc, hm]
  rw [e, low_half]

theorem init (h : Word) : Statement (.init h) := by
  change cmdWord 0x01 0 0 &&& 0xFFFFFFFF = 0x01000000
  decide

theorem setDir (d : Dir) (pin : BitVec 16) (arg : Word) : Statement (.setDir d pin arg) := by
  change cmdWord 0x02 (valOfDir d) pin &&& 0xFFFE0000 = 0x02000000
  rw [narrower _ (by decide)]
  cases d <;> decide

theorem setMode (code : Byte) (pin : BitVec 16) (arg : Word) : Statement (.setMode code pin arg) := by
  change cmdWord 0x03 code pin &&& 0xFF000000 = 0x03000000
  rw [narrower _ (by decide)]
  revert code
  decide

theorem refreshDir (arg : Word) : Statement (.refreshDir arg) := by
  change cmdWord 0x04 0 0 &&& 0xFFFFFFFF = 0x04000000
  decide

theorem readCh (pin : BitVec 16) (arg : Word) : Statement (.readCh pin arg) := low_half _ _ _

theorem writeCh (l : Level) (pin : BitVec 16) (arg : Word) : Statement (.writeCh l pin arg) := by
  change cmdWord 0x11 (valOfLevel l) pin &&& 0xFFFE0000 = 0x11000000
  rw [narrower _ (by decide)]
  cases l <;> decide

theorem readPort (port : BitVec 16) (arg : Word) : Statement (.readPort port arg) := low_half _ _ _

theorem writePort (port : BitVec 16) (value : Word) : Statement (.writePort port value) := low_half _ _ _

theorem readGroup (h : Word) : Statement (.readGroup h) := by
  change cmdWord 0x14 0 0 &&& 0xFFFFFFFF = 0x14000000
  decide

theorem writeGroup (value : BitVec 16) (h : Word) : Statement (.writeGroup value h) := low_half _ _ _

theorem flipCh (pin : BitVec 16) (arg : Word) : Statement (.flipCh pin arg) := low_half _ _ _

end Sys2Proof.Laws.EncodesItsRow
end

