-- ==== Sys2Proof/Laws/Safety.lean ====
section
/-! SUPPORT. What the named premises of Safety.lean give, and the last record of a pin. -/

namespace Sys2Proof.Machine

/-! ### Commands in flight -/

theorem State.starting_canIssue {s : State} {c : Nat} {q : Word × Word} (h : s.starting = some (c, q)) :
    s.canIssue c = true := by
  unfold State.starting at h
  split at h
  case h_1 | h_2 =>
    split at h
    · rename_i hc
      cases h
      exact (Bool.and_eq_true _ _ ▸ hc).2
    · cases h
  all_goals cases h

/-- A command is in flight only on a context that exists. -/
theorem State.commandOn_lt {s : State} {c : Nat} {q : Word × Word} (h : s.commandOn c = some q) : c < s.nctx := by
  by_contra hc
  have hb : (s.ctx c).pair = none := by
    have : s.ctx c = Ctx.blank := List.getD_eq_default _ _ (Nat.le_of_not_lt hc)
    rw [this]; rfl
  simp only [State.commandOn, hb] at h
  cases hs : s.starting with
  | none => rw [hs] at h; cases h
  | some dq =>
    have hi := State.starting_canIssue (c := dq.1) (q := dq.2) hs
    simp only [State.canIssue, Bool.and_eq_true, decide_eq_true_eq] at hi
    rw [hs] at h
    by_cases hd : dq.1 = c
    · exact hc (hd ▸ hi.1)
    · simp [hd] at h

/-- With one context no two commands are in flight (R283). -/
theorem State.commandOn_one_context (s : State) (h : s.nctx = 1) (c d : Nat) (hcd : c ≠ d) :
    s.commandOn c = none ∨ s.commandOn d = none := by
  cases hc : s.commandOn c with
  | none => exact .inl rfl
  | some _ =>
    cases hd : s.commandOn d with
    | none => exact .inr rfl
    | some _ =>
      have h1 := State.commandOn_lt hc
      have h2 := State.commandOn_lt hd
      omega

/-- `Serial` is stronger than `SerialOn(p)`. -/
theorem Serial.serialOn {s : State} (h : Serial s) (p : Nat) : SerialOn p s := by
  intro t ht c d hcd
  rcases h t ht c d hcd with hn | hn
  · exact .inl (by simp only [State.touchesPort, hn])
  · exact .inr (by simp only [State.touchesPort, hn])

/-! ### Runs -/

theorem Reaches.refl (s : State) : Reaches s s := ⟨0, rfl⟩

/-- A first step and the run after it. -/
theorem Reaches.head {s t u : State} (h : step s = .next t) (hu : Reaches t u) : Reaches s u := by
  obtain ⟨k, hk⟩ := hu
  have h' : Sys2Proof.core.step s = .next t := h
  exact ⟨k + 1, by simp only [Host.Core.run, h', hk]⟩

theorem Reaches.trans {s t u : State} (h : Reaches s t) (hu : Reaches t u) : Reaches s u := by
  obtain ⟨k, hk⟩ := h
  induction k generalizing s with
  | zero => cases hk; exact hu
  | succ k ih =>
    cases hs : Sys2Proof.core.step s with
    | next s' =>
      simp only [Host.Core.run, hs] at hk
      exact .head hs (ih hk)
    | fault _ => simp only [Host.Core.run, hs, reduceCtorEq] at hk
    | refused _ => simp only [Host.Core.run, hs, reduceCtorEq] at hk

/-- A run is at its first state or has taken its first step. -/
theorem Reaches.cases_head {s u : State} (h : Reaches s u) : u = s ∨ ∃ t, step s = .next t ∧ Reaches t u := by
  obtain ⟨k, hk⟩ := h
  cases k with
  | zero => cases hk; exact .inl rfl
  | succ k =>
    cases hs : Sys2Proof.core.step s with
    | next t => simp only [Host.Core.run, hs] at hk; exact .inr ⟨t, hs, k, hk⟩
    | fault _ => simp only [Host.Core.run, hs, reduceCtorEq] at hk
    | refused _ => simp only [Host.Core.run, hs, reduceCtorEq] at hk

/-- A run through a first step, of which the step is known. -/
theorem Reaches.after_step {s t u : State} (h : Reaches s u) (hs : step s = .next t) : u = s ∨ Reaches t u := by
  rcases h.cases_head with rfl | ⟨t', ht', hu⟩
  · exact .inl rfl
  · rw [hs] at ht'
    cases ht'
    exact .inr hu

/-- A state whose step leaves it as it is is the only one its run reaches. -/
theorem Reaches.eq_of_waits {s u : State} (h : Reaches s u) (hs : step s = .next s) : u = s := by
  obtain ⟨k, hk⟩ := h
  have hs' : Sys2Proof.core.step s = .next s := hs
  induction k with
  | zero => cases hk; rfl
  | succ k ih => simp only [Host.Core.run, hs'] at hk; exact ih hk

theorem RunsWithoutInit.reaches {s t : State} (h : RunsWithoutInit s t) : Reaches s t := by
  induction h with
  | refl => exact .refl s
  | tail _ _ hs ih => exact ih.trans (.head hs (.refl _))

/-- Where an `INIT` is about to be issued, a run without one ends. -/
theorem RunsWithoutInit.eq_of_startsInit {s t : State} (h : RunsWithoutInit s t) (hs : s.startsInit = true) : t = s := by
  induction h with
  | refl => rfl
  | tail _ hn _ ih => rw [ih, hs] at hn; cases hn

/-- `InitDone` speaks of a state the run from reset passes through. -/
theorem InitDone.reaches {r s : State} {h : Word} (hd : InitDone r h s) : Reaches r s := by
  obtain ⟨_, _, _, a, b, ha, _, hab, _, hbs⟩ := hd
  exact ha.trans (.head hab hbs.reaches)

/-! ### ENV -/

/-- The command in flight has not completed. -/
theorem CommandName.done_of_during {q : CommandName} {s : State} (h : q.during s = true) : q.done s = false := by
  simp only [CommandName.during, Bool.and_eq_true, beq_iff_eq] at h
  simp [CommandName.done, h.2]

theorem EnvOff.envQuiet {names : List CommandName} {s : State} (h : EnvOff names s) (xs : List Loc) :
    EnvQuiet xs names s := by
  intro t ht a ha q hq hd
  rw [h t ht a ha q hq] at hd
  cases hd

/-- Quiet during and between is quiet during. -/
theorem EnvQuietBetween.envQuiet {xs : List Loc} {names : List CommandName} {s : State}
    (h : EnvQuietBetween xs names s) : EnvQuiet xs names s := by
  intro t ht a ha q hq hd
  refine h t ht a ha (List.any_eq_true.2 ⟨q, hq, by rw [hd]; rfl⟩) (List.all_eq_false.2 ⟨q, hq, ?_⟩)
  rw [CommandName.done_of_during hd]
  exact Bool.false_ne_true

/-- With parameter `ENV` false no step is an ENV access. -/
theorem State.nextEnv_of_off {s : State} (h : s.par.env = false) : s.nextEnv = none := by
  unfold State.nextEnv
  split <;> simp [h]

/-! ### The last record of a pin -/

theorem lastRecord_some {p : Nat} {b : Bit} {f : PinRecord → Bool} {rs : List PinRecord} {r : PinRecord}
    (h : lastRecord p b f rs = some r) : r ∈ rs ∧ r.p = p ∧ r.bit = b ∧ f r = true := by
  induction rs with
  | nil => cases h
  | cons x rs ih =>
    simp only [lastRecord] at h
    split at h
    · rename_i r' hr
      cases h
      have := ih hr
      exact ⟨List.mem_cons_of_mem _ this.1, this.2⟩
    · split at h
      · rename_i hx
        cases h
        exact ⟨List.mem_cons_self, hx⟩
      · cases h

theorem lastRecord_none {p : Nat} {b : Bit} {f : PinRecord → Bool} {rs : List PinRecord}
    (h : lastRecord p b f rs = none) : ∀ r ∈ rs, ¬(r.p = p ∧ r.bit = b ∧ f r = true) := by
  induction rs with
  | nil => intro r hr; cases hr
  | cons x rs ih =>
    simp only [lastRecord] at h
    split at h
    · cases h
    · rename_i hr
      split at h
      · cases h
      · rename_i hx
        exact List.forall_mem_cons.2 ⟨hx, ih hr⟩

theorem PinRecord.p_inj {r r' : PinRecord} : r.p = r'.p ↔ r.port = r'.port := BitVec.toNat_inj

/-- With unique pins every record of a pin is its last. -/
theorem lastRecord_of_unique {rs : List PinRecord} (hu : UniquePins rs) {r : PinRecord} (hr : r ∈ rs)
    {f : PinRecord → Bool} (hf : f r = true) : lastRecord r.p r.bit f rs = some r := by
  cases h : lastRecord r.p r.bit f rs with
  | none => exact absurd ⟨rfl, rfl, hf⟩ (lastRecord_none h r hr)
  | some r' =>
    obtain ⟨hm, hp, hb, _⟩ := lastRecord_some h
    rw [List.inj_on_of_nodup_map hu hm hr (by simp [PinRecord.p_inj.1 hp, hb])]

end Sys2Proof.Machine
end

