-- ==== Sys2Proof/Laws/Sequencer.lean ====
section
/-! SUPPORT. One spec lemma per stage of a command, up to `call_of_ops`: a command whose guards pass and whose micro-ops do
not fault ends with the surface its micro-ops leave, answered. -/

namespace Sys2Proof.Machine

/-! ### The micro-ops of a command, positions aside -/

/-- The micro-ops one after another, as far as the surface, `TMP` and faults go. -/
def applyOps (c : Nat) : List MicroOp → State → Except Fault State
  | [], s => .ok s
  | op :: ops, s =>
    match performOp c op s with
    | .error f => .error f
    | .ok s' => applyOps c ops s'

theorem applyOps_append (c : Nat) (xs ys : List MicroOp) (s t : State) (h : applyOps c xs s = .ok t) :
    applyOps c (xs ++ ys) s = applyOps c ys t := by
  induction xs generalizing s with
  | nil => cases h; rfl
  | cons op xs ih =>
    simp only [applyOps, List.cons_append] at h ⊢
    split at h
    · cases h
    · exact ih _ h

@[simp] theorem place_map_snd (n : Nat) (ph : Phase) (j : Nat) (ops : List MicroOp) :
    (place n ph j ops).map Prod.snd = ops := by
  induction ops generalizing j with
  | nil => rfl
  | cons op ops ih => simp [place, ih]

@[simp] theorem place_length (n : Nat) (ph : Phase) (j : Nat) (ops : List MicroOp) :
    (place n ph j ops).length = ops.length := by
  induction ops generalizing j with
  | nil => rfl
  | cons op ops ih => simp [place, ih]

/-! ### What micro-ops do not look at -/

/-- Context `c` becomes `x` but for `TMP`, and `CFG` becomes `g`: all a command changes around its micro-ops. -/
def State.dress (s : State) (c : Nat) (x : Ctx) (g : Word) : State :=
  { s.setCtx c { x with tmp := (s.ctx c).tmp } with cfg := g }

theorem State.dress_dress (s : State) (c : Nat) (x y : Ctx) (g g' : Word) (h : c < s.nctx) :
    (s.dress c x g).dress c y g' = s.dress c y g' := by
  have h' : c < s.ctxs.length := h
  simp [State.dress, State.setCtx, State.ctx, h']

@[simp] theorem State.dress_live (s : State) (c : Nat) (x : Ctx) (g : Word) : (s.dress c x g).live = s.live := rfl

@[simp] theorem State.dress_nctx (s : State) (c : Nat) (x : Ctx) (g : Word) : (s.dress c x g).nctx = s.nctx := by
  simp [State.dress, State.nctx]

theorem State.ctx_dress (s : State) (c : Nat) (x : Ctx) (g : Word) (h : c < s.nctx) :
    (s.dress c x g).ctx c = { x with tmp := (s.ctx c).tmp } := by
  have h' : c < s.ctxs.length := h
  simp [State.dress, State.setCtx, State.ctx, h']

theorem State.load_dress (s : State) (c : Nat) (x : Ctx) (g : Word) (l : Loc) :
    (s.dress c x g).load l = (s.load l).map fun vt => (vt.1, vt.2.dress c x g) := by
  have hd : ∀ p, (s.dress c x g).denied p = s.denied p := fun _ => rfl
  cases l with
  | reg p k =>
    simp only [State.load, regRead, hd]
    cases s.denied p with
    | some f => rfl
    | none => cases k <;> rfl
  | clken => rfl
  | aliasBit p b =>
    simp only [State.load, aliasRead, hd]
    cases s.denied p <;> rfl

theorem State.store_dress (s : State) (c : Nat) (x : Ctx) (g : Word) (l : Loc) (v : Word) :
    (s.dress c x g).store l v = (s.store l v).map fun t => t.dress c x g := by
  have hd : ∀ p, (s.dress c x g).denied p = s.denied p := fun _ => rfl
  cases l with
  | reg p k =>
    simp only [State.store, regWrite, hd]
    cases s.denied p <;> rfl
  | clken => rfl
  | aliasBit p b =>
    simp only [State.store, aliasWrite, hd]
    cases s.denied p <;> rfl

/-- A load keeps the contexts and the marks. -/
theorem State.load_keeps {s t : State} {l : Loc} {v : Word} (h : s.load l = .ok (v, t)) :
    t.ctxs = s.ctxs ∧ t.live = s.live := by
  rcases State.load_ok h with rfl | ⟨_, rfl⟩ <;> exact ⟨rfl, rfl⟩

/-- A store keeps the contexts and the marks. -/
theorem State.store_keeps {s t : State} {l : Loc} {v : Word} (h : s.store l v = .ok t) :
    t.ctxs = s.ctxs ∧ t.live = s.live := by
  rcases State.store_ok h with ⟨_, _, _, _, rfl⟩ | ⟨_, rfl⟩ | ⟨_, _, _, _, rfl⟩ <;> exact ⟨rfl, rfl⟩

/-- A micro-op keeps the marks and the number of contexts. -/
theorem performOp_keeps {c : Nat} {op : MicroOp} {s t : State} (h : performOp c op s = .ok t) :
    t.live = s.live ∧ t.nctx = s.nctx := by
  cases op with
  | load l =>
    simp only [performOp] at h
    split at h
    · cases h
    · rename_i hl
      cases h
      have := State.load_keeps hl
      simp [State.nctx, State.setTmp, this]
  | store l d =>
    have := State.store_keeps h
    simp [State.nctx, this]
  | update l d =>
    simp only [performOp] at h
    split at h
    · cases h
    · rename_i hl
      have h1 := State.load_keeps hl
      have h2 := State.store_keeps h
      simp [State.nctx, h1, h2]

theorem performOp_dress (s : State) (c : Nat) (x : Ctx) (g : Word) (op : MicroOp) (hc : c < s.nctx) :
    performOp c op (s.dress c x g) = (performOp c op s).map fun t => t.dress c x g := by
  have htmp : ((s.dress c x g).ctx c).tmp = (s.ctx c).tmp := by rw [State.ctx_dress s c x g hc]
  cases op with
  | load l =>
    simp only [performOp, State.load_dress]
    cases hl : s.load l with
    | error f => rfl
    | ok vt =>
      have hn : c < vt.2.ctxs.length := by rw [(State.load_keeps (v := vt.1) (t := vt.2) hl).1]; exact hc
      simp [Except.map, State.dress, State.setTmp, State.setCtx, State.ctx, hn]
  | store l d => simp only [performOp, State.store_dress, htmp]
  | update l d =>
    simp only [performOp, State.load_dress]
    cases hl : s.load l with
    | error f => rfl
    | ok vt => simp only [Except.map, State.store_dress]

/-- Running the items of a body from the position of their head, when no micro-op faults: the surface and `TMP` of
`applyOps`, at FIN's position. -/
theorem runItems_dress (c : Nat) (fin : Pos) (items : List Item) (s t : State) (x : Ctx) (g : Word)
    (hl : s.live = true) (hc : c < s.nctx) (hx : x.pos = headPos fin items)
    (h : applyOps c (items.map Prod.snd) s = .ok t) :
    runItems c fin items (s.dress c x g) = t.dress c { x with pos := fin } g := by
  induction items generalizing s x with
  | nil =>
    cases h
    have : x = { x with pos := fin } := by rw [← show x.pos = fin from hx]
    simp only [runItems]
    exact congrArg (fun y => State.dress _ c y g) this
  | cons item rest ih =>
    obtain ⟨q, op⟩ := item
    simp only [List.map_cons, applyOps] at h
    split at h
    · cases h
    · rename_i s' hs
      have hk := performOp_keeps hs
      have hc' : c < s'.nctx := by rw [hk.2]; exact hc
      have hlen : c < s'.ctxs.length := hc'
      have hl' : s'.live = true := by rw [hk.1]; exact hl
      have hstep : itemStep c op (headPos fin rest) (s.dress c x g) =
          s'.dress c { x with pos := headPos fin rest } g := by
        simp only [itemStep, performOp_dress s c x g op hc, hs, Except.map]
        simp [State.dress, State.setPos, State.setCtx, State.ctx, hlen]
      simp only [runItems, hstep]
      rw [State.andThen_of_live _ _ (by simpa using hl')]
      exact ih s' _ hl' hc' rfl h

/-! ### The whole call -/

/-- The guards let the command through: none fails, or only mutability guards do and `GUARDS` is false (R137, R138). -/
abbrev GuardsPass (k : Command) (s : State) : Prop :=
  if s.par.guards then k.failing s = [] else ∀ g ∈ k.failing s, g.mutability = true

theorem Command.failing_dress (k : Command) (s : State) (c : Nat) (x : Ctx) :
    k.failing (s.dress c x s.cfg) = k.failing s := by
  have : Guard.fails (s.dress c x s.cfg) k.cmd k.arg = Guard.fails s k.cmd k.arg := by
    funext g; cases g <;> rfl
  simp [Command.failing, failingGuards, this]

theorem guardStep_of_pass {k : Command} {c : Nat} {s : State} (h : GuardsPass k s) : guardStep k c s = enterBody k c s := by
  unfold GuardsPass at h
  unfold guardStep
  split
  · rename_i hg
    simp only [hg, if_true] at h
    simp [h]
  · rename_i hg
    simp only [hg] at h
    have : ((k.failing s).any fun g => !g.mutability) = false := by
      simp only [List.any_eq_false]
      intro g hm
      simp [h g hm]
    simp [this]

/-- A command other than `INIT` whose guards pass and whose micro-ops do not fault: its answer is FIN's function of the
last `TMP`, and the surface is what the micro-ops left. -/
theorem call_of_ops {k : Command} {s t : State} {b : Body} (hu : Unmarked s) (hi : s.canIssue s.cur = true)
    (hp : k.present s.par = true) (hn : k.isInit = false) (hcl : initClash false s.cur s = false) (hg : GuardsPass k s)
    (hb : k.bodyIn s = .ok b) (ht : applyOps s.cur (b.items.map Prod.snd) s = .ok t)
    (hcfg : t.cfg = s.cfg) (hresp : t.responses = s.responses) :
    call k s = .next
      { t.setCtx s.cur
          { pos := { b.finPos with ph := .idle }, cmd := k.cmd, arg := k.arg, tmp := (t.ctx s.cur).tmp,
            res := b.result.eval (t.ctx s.cur).tmp, failf := false, ill := false } with
        responses := s.responses ++ [⟨s.cur, b.result.eval (t.ctx s.cur).tmp, false⟩] } := by
  have hc : s.cur < s.nctx := by
    have := hi; simp only [State.canIssue, Bool.and_eq_true, decide_eq_true_eq] at this; exact this.1
  have hlive : s.live = true := (State.live_iff s).2 hu
  have hkeep : t.live = true ∧ t.nctx = s.nctx := by
    revert ht
    generalize b.items.map Prod.snd = ops
    intro ht
    have : ∀ (ops : List MicroOp) (u v : State), applyOps s.cur ops u = .ok v → v.live = u.live ∧ v.nctx = u.nctx := by
      intro ops
      induction ops with
      | nil => intro u v h; cases h; exact ⟨rfl, rfl⟩
      | cons op ops ih =>
        intro u v h
        simp only [applyOps] at h
        split at h
        · cases h
        · rename_i hs
          have h1 := performOp_keeps hs
          have h2 := ih _ _ h
          exact ⟨h2.1.trans h1.1, h2.2.trans h1.2⟩
    have := this _ _ _ ht
    exact ⟨this.1.trans hlive, this.2⟩
  have htc : s.cur < t.nctx := by rw [hkeep.2]; exact hc
  have htl : s.cur < t.ctxs.length := htc
  let x0 : Ctx := (s.ctx s.cur).latch k.cmd k.arg .guard
  have hissue : issue k s.cur s = s.dress s.cur x0 s.cfg := by
    simp only [issue, hp, hn, hcl, if_true, x0]
    rfl
  have hx0 : (s.dress s.cur x0 s.cfg).ctx s.cur = x0 := by rw [State.ctx_dress _ _ _ _ hc]; rfl
  have hadm : guardStep k s.cur (s.dress s.cur x0 s.cfg) =
      s.dress s.cur { x0 with pos := headPos b.finPos b.items } s.cfg := by
    have hg' : GuardsPass k (s.dress s.cur x0 s.cfg) := by
      simp only [GuardsPass, Command.failing_dress]; exact hg
    rw [guardStep_of_pass hg']
    have hb' : k.bodyIn (s.dress s.cur x0 s.cfg) = .ok b := by
      have : (s.dress s.cur x0 s.cfg).nports = s.nports := rfl
      simp only [Command.bodyIn, this]; exact hb
    have hl : s.cur < s.ctxs.length := hc
    simp only [enterBody, hb', hn]
    simp [State.setPos, State.dress, State.setCtx, State.ctx, hl]
  have hrun := runItems_dress s.cur b.finPos b.items s t { x0 with pos := headPos b.finPos b.items } s.cfg hlive hc rfl ht
  have hfail : ((s.dress s.cur { x0 with pos := headPos b.finPos b.items } s.cfg).ctx s.cur).failf = false := by
    rw [State.ctx_dress _ _ _ _ hc]; rfl
  have hb2 : k.bodyIn (s.dress s.cur { x0 with pos := headPos b.finPos b.items } s.cfg) = .ok b := by
    have : (s.dress s.cur { x0 with pos := headPos b.finPos b.items } s.cfg).nports = s.nports := rfl
    simp only [Command.bodyIn, this]; exact hb
  have hbody : runBody k s.cur (s.dress s.cur { x0 with pos := headPos b.finPos b.items } s.cfg) =
      finStep k s.cur b.result (t.dress s.cur { x0 with pos := b.finPos } s.cfg) := by
    simp only [runBody, hfail, hb2]
    rw [hrun, State.andThen_of_live _ _ (by simpa using hkeep.1)]
    rfl
  have hph : ((s.dress s.cur x0 s.cfg).ctx s.cur).pos.ph ≠ .finish := by rw [hx0]; simp [x0, Ctx.latch]
  have hfinlive : (finStep k s.cur b.result (t.dress s.cur { x0 with pos := b.finPos } s.cfg)).live = true := by
    simp only [finStep, hn]
    exact hkeep.1
  simp only [call, hu.1, hu.2, hi, if_true, hissue]
  rw [State.andThen_of_live _ _ (by simpa using hlive)]
  simp only [runIssued, if_neg hph, hadm]
  rw [State.andThen_of_live (s.dress _ _ _) _ (by simpa using hlive), hbody, State.andThen_of_live _ _ hfinlive]
  simp [complete, finStep, hn, State.dress, State.setCtx, State.ctx, htl, x0, Ctx.latch, hresp, hcfg]

end Sys2Proof.Machine
end

