-- ==== Sys2Proof/Tests/Slice0.lean ====
section
/-! SUPPORT. Tests: ill-formed commands are refused, words written out from the spec decode, one step per command gives
what spec/95_test_vectors.md or a rule's worked example says, and each obligation with hypotheses has a state that meets
them. -/

namespace Sys2Proof.Tests

set_option Elab.async false

open Sys2Proof.Machine

/-! ### Small states -/

/-- EX (spec/95_test_vectors.md) with a table of four pins: (1,1) output high, changeable; (5,0) protected input with
pull-up; (2,1) reserved; (3,4) output, alternate function 7, not changeable. Table `0x1200` lists (1,1) three times: output high, input with
pull-up, output low. -/
def demoPar : Config :=
  { exampleConfig with
    npins := 4
    tables := [(0x1000, [0x01C90001, 0x01100005, 0x01C90002, 0x000C0703]),
      (0x1200, [0x00490001, 0x00110001, 0x00090001, 0x00020003]), (0x2000, [0x02000000]), (0x2100, [0x00000006, 0, 0, 0])]
    groups := [(0x3100, 0x00030200), (0x3200, 0x00FF0005), (0x3300, 0x00030700), (0x3400, 0x00030201),
      (0x3500, 0x01030200)] }

/-- The demo machine after reset. -/
def fresh : State := State.resetWith demoPar ResetDraw.family

/-- The demo machine initialized from table `0x1000`, all six ports clocked. -/
def ready : State := { fresh with mstate := .initialized, cfg := 0x1000, clken := 0x3F }

/-- `ready` with the data byte of port `p` at `v`. -/
def withData (p : Nat) (v : Byte) : State := ready.setPort p { ready.port p with data := v }

/-- `s` with the guards stripped. -/
def stripped (s : State) : State := { s with par := { s.par with guards := false } }

/-- `ready` with context 1 holding the command word `cmd` at its GUARD item. -/
def busy (cmd : Word) : State := ready.setCtx 1 { Ctx.blank with pos := ⟨0, .guard, 0⟩, cmd := cmd }

/-- The outcome is a next state that has `p`. -/
def meets (o : Host.Outcome State Fault Refusal) (p : State → Bool) : Bool :=
  match o with
  | .next t => p t
  | .fault _ => false
  | .refused _ => false

theorem of_meets {o : Host.Outcome State Fault Refusal} {p : State → Bool} (h : meets o p = true) :
    ∃ t, o = .next t ∧ p t = true := by
  cases o with
  | next t => exact ⟨t, rfl, h⟩
  | fault _ => cases h
  | refused _ => cases h

theorem of_meets_unmarked {o : Host.Outcome State Fault Refusal} (h : meets o State.live = true) :
    ∃ t, o = .next t ∧ Unmarked t := by
  obtain ⟨t, ht, hl⟩ := of_meets h
  simp only [State.live, Bool.and_eq_true, Option.isNone_iff_eq_none] at hl
  exact ⟨t, ht, hl⟩

/-- A call event whose answer has `p`. -/
def answers (s : State) (cmd arg : Word) (p : State → Bool) : Bool := meets (step (s.pushCall cmd arg)) p

/-- What the last response was. -/
def lastIs (res : Word) (ill : Bool) (t : State) : Bool := t.responses == [⟨0, res, ill⟩]

/-! ### Ill-formed commands (R92, R101, R120) -/

theorem test_setMode_needs_its_option : (Instr.setMode 7 2 0).wellFormed { demoPar with hasSetMode := false } = false := by
  decide

theorem test_setMode_present : (Instr.setMode 7 2 0).wellFormed demoPar = true := by decide

theorem test_flipCh_needs_its_option : (Instr.flipCh 3 0).wellFormed { demoPar with hasFlip := false } = false := by
  decide

theorem test_flipCh_present : (Instr.flipCh 3 0).wellFormed demoPar = true := by decide

/-- R232: `SET_MODE` in a build without it completes with `ILL = 1`. -/
theorem test_absent_command_is_illegal :
    answers { ready with par := { demoPar with hasSetMode := false } } 0x03000000 0 (lastIs 0 true) = true := by
  decide +kernel

/-- P4 (spec/95_test_vectors.md): an unused opcode completes with `ILL = 1`. -/
theorem test_unused_opcode_is_illegal : answers ready 0x05000000 0 (lastIs 0 true) = true := by decide +kernel

/-! ### Words written out from the spec (R92 to R98; spec/95_test_vectors.md section 2.1) -/

theorem test_decode_init : decode 0x01000000 0x1000 = .ok (.init 0x1000) := by decide

theorem test_decode_setDir : decode 0x02010003 0 = .ok (.setDir .output 3 0) := by decide

theorem test_decode_setMode : decode 0x03100009 7 = .ok (.setMode 0x10 9 7) := by decide

theorem test_decode_refreshDir : decode 0x04000000 5 = .ok (.refreshDir 5) := by decide

theorem test_decode_readCh : decode 0x10000005 0 = .ok (.readCh 5 0) := by decide

theorem test_decode_writeCh : decode 0x11010005 0 = .ok (.writeCh .high 5 0) := by decide

theorem test_decode_readPort : decode 0x12000003 0 = .ok (.readPort 3 0) := by decide

theorem test_decode_writePort : decode 0x13000003 0x1FF = .ok (.writePort 3 0x1FF) := by decide

theorem test_decode_readGroup : decode 0x14000000 0x3100 = .ok (.readGroup 0x3100) := by decide

theorem test_decode_writeGroup : decode 0x1500FFFF 0x3100 = .ok (.writeGroup 0xFFFF 0x3100) := by decide

theorem test_decode_flipCh : decode 0x16000007 0 = .ok (.flipCh 7 0) := by decide

theorem test_decode_rejects :
    decode 0x00000000 0 = .error (.unusedOpcode 0) ∧ decode 0x17000000 0 = .error (.unusedOpcode 0x17) ∧
    decode 0x01000001 0 = .error .mustBeZero ∧ decode 0x04010000 0 = .error .mustBeZero ∧
    decode 0x16010000 0 = .error .mustBeZero ∧ decode 0x11020000 0 = .error .valueTooLarge := by
  decide

theorem test_decode_table_word : decodeTableWord 32 0x02010000 = some (.setDir .output 0 0) := by decide

/-- The record word of P1 (R105). -/
theorem test_record_word :
    PinRecord.ofWord 0x01C90001 = some
      { port := 1, bit := 1, direction := .output, mode := .gpio, resistor := .none, initial := .high,
        dirChangeable := true, modeChangeable := true } := by
  decide

/-- The descriptor word of P3 (R108). -/
theorem test_descriptor_word : Descriptor.ofWord 0x00030200 = some { port := 0, offset := 2, mask := 3 } := by decide

/-! ### One step per command, expected values from the spec -/

/-- Port 1 before P1. -/
def p1Before : PortRegs where
  data := 0x0C
  dir := 0xF0
  afen := 2
  pur := 2
  pdr := 0
  den := 0
  commit := 0xFF
  amsel := 2
  muxsel := 0x33333333
  locked := true

/-- Port 1 after P1's `INIT`. -/
def p1After : PortRegs where
  data := 0x0E
  dir := 0xF2
  afen := 0
  pur := 2
  pdr := 0
  den := 2
  commit := 0xFF
  amsel := 0
  muxsel := 0x33333303
  locked := true

/-- P1: the table with the output pin (1,1), from the port contents of P1 and `CLKEN = 0x20`. -/
theorem test_init_p1 :
    answers (State.setPort { State.reset with clken := 0x20 } 1 p1Before) 0x01000000 0x1000
      (fun t => t.clken == 0x22 && t.mstate == .initialized && t.cfg == 0x1000 && lastIs 0 false t &&
        t.port 1 == p1After) = true := by
  decide +kernel

/-- R162: `INIT NULL` reports `0x01000102`. -/
theorem test_init_null :
    answers fresh 0x01000000 0 (fun t => t.diag == [0x01000102] && t.mstate == .notInitialized) = true := by
  decide +kernel

/-- R171 (a): the last record of (1,1) gives the direction, the last output record the data bit, and the pull-up bit of
the input record before it survives. -/
theorem test_init_duplicates :
    answers fresh 0x01000000 0x1200
      (fun t => (t.port 1).dir == 2 && (t.port 1).data == 0 && (t.port 1).pur == 2 && (t.port 1).pdr == 0) = true := by
  decide +kernel

/-- R172's example: `DIR[1] = 0x02`, `SET_DIR 0, in` writes 0. -/
theorem test_setDir_example :
    answers (ready.setPort 1 { ready.port 1 with dir := 2 }) 0x02000000 0 (fun t => (t.port 1).dir == 0) = true := by
  decide +kernel

/-- R172: a pin whose record forbids it. -/
theorem test_setDir_not_changeable :
    answers ready 0x02010003 0 (fun t => t.diag == [0x01000205] && t.ports == ready.ports) = true := by
  decide +kernel

/-- R173's end state for `alt(7)` on a changeable pin (1,1). -/
theorem test_setMode_example :
    answers (ready.setPort 1 { ready.port 1 with amsel := 2 }) 0x03070000 0
      (fun t => (t.port 1).afen == 2 && (t.port 1).muxsel == 0x70 && (t.port 1).amsel == 0 && (t.port 1).den == 2) =
      true := by
  decide +kernel

/-- R173: `VAL = 0x11` with a pin that is not changeable reports both errors. -/
theorem test_setMode_both_reports :
    answers ready 0x03110003 0 (fun t => t.diag == [0x01000306, 0x01000307]) = true := by
  decide +kernel

/-- R174's example: `DIR[1] = 0x00` becomes `0x02`. -/
theorem test_refreshDir_example : answers ready 0x04000000 0 (fun t => (t.port 1).dir == 2) = true := by decide +kernel

/-- R191's example: `DATA[1] = 0x02` gives 1. -/
theorem test_readCh_example : answers (withData 1 2) 0x10000000 0 (lastIs 1 false) = true := by decide +kernel

/-- R192's example: `DATA[1] = 0x81` becomes `0x83`. -/
theorem test_writeCh_example :
    answers (withData 1 0x81) 0x11010000 0 (fun t => (t.port 1).data == 0x83) = true := by decide +kernel

/-- R193's example: `DATA[3] = 0xA5`. -/
theorem test_readPort_example : answers (withData 3 0xA5) 0x12000003 0 (lastIs 0xA5 false) = true := by decide +kernel

/-- R194's example: the value `0x1FF` leaves `0xFF`. -/
theorem test_writePort_example :
    answers ready 0x13000003 0x1FF (fun t => (t.port 3).data == 0xFF) = true := by decide +kernel

/-- R195's example: `DATA[0] = 0x08`, offset 2, mask 3 gives 2. -/
theorem test_readGroup_example : answers (withData 0 8) 0x14000000 0x3100 (lastIs 2 false) = true := by decide +kernel

/-- R196's example: the value 2 at offset 2 in `DATA = 0` writes 8. -/
theorem test_writeGroup_example :
    answers ready 0x15000002 0x3100 (fun t => (t.port 0).data == 8) = true := by decide +kernel

/-- R197's example: `DATA[1] = 0x02` becomes 0 and 0 is returned. -/
theorem test_flipCh_example :
    answers (withData 1 2) 0x16000000 0 (fun t => (t.port 1).data == 0 && lastIs 0 false t) = true := by decide +kernel

/-- R222, R240: before `INIT` a channel command reports `Uninitialized` and returns its default. -/
theorem test_uninitialized :
    answers fresh 0x16000000 0 (fun t => t.diag == [0x02001601] && lastIs 0 false t && t.ports == fresh.ports) = true := by
  decide +kernel

/-- R143's worked example is an obligation; here the top nibble. -/
theorem test_putNibble_top : putNibbleIn 0x87654321 7 0 = 0x07654321 := by decide

/-- How a program comes to run: the word the host places is what the next step runs. -/
theorem test_withFetchWord : meets (step (State.reset.withFetchWord 32 0x01000000)) (fun t => t.diag == [0x01000102]) = true := by
  decide +kernel

/-! ### Witnesses: a state that meets the hypotheses of each obligation -/

theorem test_witness_DescriptorWellFormedness :
    (1 : Byte) ≠ 0 ∧ (0x80 : Byte) ≠ 0 ∧ maskWidth 1 = 1 ∧ maskWidth 0x80 = 8 := by decide

theorem test_witness_RecordWordsRoundTrip :
    PinRecord.ofWord 0x000C0703 = some
      { port := 3, bit := 4, direction := .output, mode := .alt 7, resistor := .none, initial := .low,
        dirChangeable := false, modeChangeable := false } ∧
    Mode.alt 7 ≠ Mode.alt 0 ∧ (PinRecord.ofWord 0x00300000).isSome = false ∧ (PinRecord.ofWord 0x02000000).isSome = false ∧
    (PinRecord.ofWord 0x00001100).isSome = false := by
  decide

/-- For every statement about an access to a clocked port; the first and the last port. -/
theorem test_witness_Clocked : Clocked ready 0 ∧ Clocked ready 5 ∧ (ready.port 5).locked = true := by decide

/-- RegWriteStoresWhatIsWritable: both sides of each gate, at the protected and the open pin of port 5. -/
theorem test_witness_RegWrite_gates :
    ready.par.gates .dir = false ∧ ready.par.gates .den = true ∧ (ready.port 5).commit.getLsbD 0 = false ∧
    (ready.port 5).commit.getLsbD 7 = true := by
  decide

theorem test_witness_UnclockedAccessFaults :
    0 < fresh.nports ∧ 5 < fresh.nports ∧ fresh.clken.getLsbD 0 = false ∧ fresh.clken.getLsbD 5 = false := by
  decide

/-- `ready` with the clock of port 5 off. -/
def unclocked : State := { ready with clken := 0x1F }

theorem test_witness_UnclockedPortCommandsFault :
    Ready unclocked ∧ unclocked.mstate = .initialized ∧ 5 < unclocked.nports ∧ unclocked.clken.getLsbD 5 = false ∧
    (5 : BitVec 16).toNat = 5 ∧
    groupAt unclocked.par unclocked.nports 0x3200 = .ok { port := 5, offset := 0, mask := 0xFF } := by
  decide +kernel

theorem test_witness_LockMovesOnlyOnLockWrites :
    Loc.reg 5 .commit ≠ Loc.reg 5 .lock ∧ ∃ t, ready.store (.reg 5 .commit) 0xFF = .ok t :=
  ⟨by decide, _, rfl⟩

theorem test_witness_NumericMap :
    addressMapOk ready.par.addr ready.nports ∧ Loc.aliasBit 5 7 ∈ allLocs ready.nports ∧
    Loc.reg 0 .muxsel ∈ allLocs ready.nports ∧ Loc.clken ∈ allLocs ready.nports := by
  decide +kernel

/-- `ready` about to take the ENV access `a`. -/
def envNext (a : EnvAccess) : State := { ready with agenda := [.env a] }

theorem test_witness_EnvAccessesUseThePrimitives :
    Unmarked (envNext (.read (.reg 5 .den))) ∧ (envNext (.read (.reg 5 .den))).par.env = true ∧
    (ready.load (.reg 5 .den)).isOk = true ∧ (ready.store (.reg 5 .den) 0xFF).isOk = true ∧ Clocked ready 5 ∧
    (unclocked.load (.reg 5 .den)).isOk = false ∧ (unclocked.store (.aliasBit 5 7) 1).isOk = false ∧
    5 < unclocked.nports ∧ unclocked.clken.getLsbD 5 = false := by
  decide +kernel

/-- R76, R66: an ENV write to `DEN[5]` passes the gates: bit 0 is protected and not committed. -/
theorem test_env_write_is_gated :
    meets (step (envNext (.write (.reg 5 .den) 0x1FF))) (fun t => (t.port 5).den == 0xFE) = true := by
  decide +kernel

/-- R282: an ENV read hands back its value. -/
theorem test_env_read_returns : meets (step (envNext (.read .clken))) (fun t => t.envReads == [0x3F]) = true := by
  decide +kernel

theorem test_witness_StepRunsTheDecodedCommand :
    Unmarked (ready.pushCall 0x10000000 0) ∧
    (ready.pushCall 0x10000000 0).agenda = .call 0 0x10000000 0 :: [] ∧
    decode 0x10000000 0 = .ok (.readCh 0 0) := by
  decide +kernel

theorem test_witness_IllegalPairsCompleteWithIll :
    Unmarked ready ∧ ready.canIssue 0 = true ∧ Legal ready.par 0x17000000 0 = false := by decide +kernel

theorem test_witness_IssueLatchesThePair :
    Unmarked (busy 0x10000000) ∧ (busy 0x10000000).canIssue 0 = true ∧
    Legal demoPar 0x01000001 0 = false ∧ Legal demoPar 0x01000000 0x1000 = true ∧ Legal demoPar 0x10000000 0 = true ∧
    initClash ((0x01000000 : Word) == initWord) 0 (busy 0x10000000) = true ∧
    initClash ((0x10000000 : Word) == initWord) 0 (busy 0x10000000) = false := by
  decide +kernel

/-- An `INIT` beside a running command, and a command beside a running `INIT`. -/
theorem test_witness_OverlappingInitFaults :
    Unmarked (busy 0x10000000) ∧ (busy 0x10000000).canIssue 0 = true ∧
    (Instr.init 0x1000).wellFormed demoPar = true ∧ initClash (commandOf (.init 0x1000)).isInit 0 (busy 0x10000000) = true ∧
    initClash (commandOf (.readCh 0 0)).isInit 0 (busy 0x01000000) = true := by
  decide +kernel

theorem test_witness_CompleteHandsOverTheResponse :
    Unmarked ready ∧ ((ready.setCtx 0 { Ctx.blank with pos := ⟨0, .finish, 0⟩ }).ctx 0).pos.ph = .finish := by decide

theorem test_witness_CallIsItsMicroSteps : ∃ t, exec (.init 0x1000) fresh = .next t ∧ Unmarked t :=
  of_meets_unmarked (by decide +kernel)

theorem test_witness_MicroOpCounts : demoPar.isReserved 2 3 = true ∧ demoPar.isReserved 2 4 = false := by decide

theorem test_witness_FailedGuardsOnlyReport :
    Unmarked ready ∧ ready.canIssue ready.cur = true ∧ (Instr.readCh 4 0).wellFormed ready.par = true ∧
    initClash (commandOf (.readCh 4 0)).isInit ready.cur ready = false ∧ ready.par.guards = true ∧
    (commandOf (.readCh 4 0)).failing ready ≠ [] := by
  decide +kernel

theorem test_witness_UninitializedCommandsOnlyReport :
    Ready fresh ∧ (Instr.writePort 0 1).wellFormed fresh.par = true ∧ fresh.par.guards = true ∧
    fresh.mstate = .notInitialized ∧ ∀ h, Instr.writePort 0 1 ≠ .init h :=
  ⟨by decide, by decide, by decide, by decide, fun _ h => by cases h⟩

theorem test_witness_InitOfNullOnlyReports : ReadyForInit fresh ∧ ReadyForInit ready ∧ ready.par.guards = true := by decide

/-- GuardsFailInOrder: the operands at both sides of each range, after `INIT`. -/
theorem test_witness_GuardsFailInOrder :
    (([.readCh 3 0, .readCh 4 0, .writePort 5 0, .writePort 6 0, .readGroup nullHandle, .setDir .input 3 0,
        .setMode 0x10 4 0, .setMode 0x11 3 0] : List Instr).map fun i => (commandOf i).failing ready) =
      [[], [.pin], [], [.port], [.ptr], [.dirCh], [.pin], [.modeCh, .mode]] ∧
    (3 : BitVec 16).toNat < ready.par.npins ∧
    (recordAt ready.par ready.nports ready.cfg (3 : BitVec 16).toNat).isOk = true := by
  decide +kernel

/-- The same before `INIT` (R136: no mutability guard without a record). -/
theorem test_guards_before_init :
    (([.flipCh 4 0, .setDir .input 3 0, .setMode 0x11 4 0] : List Instr).map fun i => (commandOf i).failing fresh) =
      [[.init, .pin], [.init], [.init, .pin, .mode]] := by
  decide +kernel

theorem test_witness_StrippedGuardsRefuseUndefinedAccess :
    (stripped ready).par.guards = false ∧
    (∃ g ∈ (commandOf (.readCh 4 0)).failing (stripped ready), g.mutability = false) ∧
    (commandOf (.setDir .input 3 0)).failing (stripped ready) = [.dirCh] := by
  decide +kernel

theorem test_witness_GuardStepRefusesBadStores :
    ReadyForInit ready ∧ Ready ready ∧ ready.mstate = .initialized ∧ (0x9999 : Word) ≠ nullHandle ∧
    tableAt ready.par ready.nports 0x9999 = .error .unknownHandle ∧ ready.par.tables.lookup 0x9999 = none ∧
    groupAt ready.par ready.nports 0x9999 = .error .unknownHandle ∧ ready.par.groups.lookup 0x9999 = none ∧
    ready.par.tables.lookup 0x2000 = some [0x02000000] ∧ PinRecord.ofWord 0x02000000 = none ∧
    ready.par.tables.lookup 0x2100 = some [0x00000006, 0, 0, 0] ∧
    ((PinRecord.ofWord 0x00000006).map fun q => decide (6 ≤ q.p)) = some true ∧
    ready.par.groups.lookup 0x3300 = some 0x00030700 ∧
    ((Descriptor.ofWord 0x00030700).map fun d => d.wellFormed 6) = some false ∧
    ready.par.groups.lookup 0x3500 = some 0x01030200 ∧ (0x01030200 : Word).extractLsb' 24 8 ≠ 0#8 := by
  decide +kernel

/-- R108, R231: a descriptor word whose bits 31 to 24 are not zero. -/
theorem test_bad_descriptor_word :
    answers ready 0x14000000 0x3500 (fun t => t.refused == some .illFormedDescriptor && t.responses == []) = true := by
  decide +kernel

theorem test_witness_MarkedStatesStepNoMore :
    (ready.markFault .initReentered).faulted = some .initReentered ∧
    (ready.markRefused .unknownHandle).faulted = none ∧
    (ready.markRefused .unknownHandle).refused = some .unknownHandle := by
  decide

/-- The channel commands on pins; the first and the last pin of the table. -/
theorem test_witness_pin_commands :
    Ready ready ∧ ready.mstate = .initialized ∧ ready.par.hasFlip = true ∧
    recordAt ready.par ready.nports ready.cfg (0 : BitVec 16).toNat = .ok
      { port := 1, bit := 1, direction := .output, mode := .gpio, resistor := .none, initial := .high,
        dirChangeable := true, modeChangeable := true } ∧ Clocked ready 1 ∧
    recordAt ready.par ready.nports ready.cfg (3 : BitVec 16).toNat = .ok
      { port := 3, bit := 4, direction := .output, mode := .alt 7, resistor := .none, initial := .low,
        dirChangeable := false, modeChangeable := false } ∧ Clocked ready 3 := by
  decide +kernel

theorem test_witness_port_commands :
    Ready ready ∧ ready.mstate = .initialized ∧ Clocked ready (0 : BitVec 16).toNat ∧
    Clocked ready (5 : BitVec 16).toNat := by
  decide

theorem test_witness_group_commands :
    Ready ready ∧ ready.mstate = .initialized ∧
    groupAt ready.par ready.nports 0x3100 = .ok { port := 0, offset := 2, mask := 3 } ∧ Clocked ready 0 ∧
    groupAt ready.par ready.nports 0x3200 = .ok { port := 5, offset := 0, mask := 0xFF } ∧ Clocked ready 5 := by
  decide +kernel

/-- Two commands one after another, both unmarked. -/
theorem both_unmarked {i j : Instr} {s : State}
    (h : meets (exec i s) (fun t => t.live && meets (exec j t) State.live) = true) :
    ∃ t u, Unmarked t ∧ Unmarked u ∧ exec i s = .next t ∧ exec j t = .next u := by
  obtain ⟨t, ht, hp⟩ := of_meets h
  obtain ⟨hl, hu⟩ := Bool.and_eq_true _ _ ▸ hp
  obtain ⟨u, hu, hul⟩ := of_meets_unmarked hu
  simp only [State.live, Bool.and_eq_true, Option.isNone_iff_eq_none] at hl
  exact ⟨t, u, hl, hul, ht, hu⟩

theorem test_witness_WriteThenReadReturnsTheLevel :
    (3 : BitVec 16).toNat < ready.par.npins ∧
    ∃ t u, Unmarked t ∧ Unmarked u ∧ exec (.writeCh .high 3 0) ready = .next t ∧ exec (.readCh 3 0) t = .next u :=
  ⟨by decide, both_unmarked (by decide +kernel)⟩

theorem test_witness_FlipTwiceRestoresTheLevel :
    ready.par.hasFlip = true ∧
    ∃ t u, Unmarked t ∧ Unmarked u ∧ exec (.flipCh 0 0) ready = .next t ∧ exec (.flipCh 0 1) t = .next u :=
  ⟨by decide, both_unmarked (by decide +kernel)⟩

theorem test_witness_GroupWriteThenRead :
    ∃ t u, Unmarked t ∧ Unmarked u ∧ exec (.writeGroup 0xFFFF 0x3200) ready = .next t ∧
      exec (.readGroup 0x3200) t = .next u :=
  both_unmarked (by decide +kernel)

/-- SetDirWritesTheDirectionBit and SetModeSelectsTheFunction: pin 0, changeable and not reserved. -/
theorem test_witness_runtime_mutators :
    ready.par.hasSetMode = true ∧ Mode.ofCode 0x10 = some .analog ∧ Mode.ofCode 0x0F = some (.alt 15) ∧
    ready.par.isReserved 1 1 = false ∧ ready.isWritable 1 .den 1 = true ∧ ready.isWritable 5 .den 0 = false := by
  decide

/-- RuntimeMutatorsSkipReservedPins: pin 2 is (2,1), reserved and changeable. -/
theorem test_witness_reserved_pin :
    ready.par.isReserved 2 1 = true ∧
    (match recordAt ready.par ready.nports ready.cfg (2 : BitVec 16).toNat with
      | .ok r => r.p == 2 && r.bit == 1 && r.dirChangeable && r.modeChangeable
      | .error _ => false) = true := by
  decide +kernel

/-- The table of `ready`, as records. -/
def demoRecords : List PinRecord :=
  [{ port := 1, bit := 1, direction := .output, mode := .gpio, resistor := .none, initial := .high,
     dirChangeable := true, modeChangeable := true },
   { port := 5, bit := 0, direction := .input, mode := .gpio, resistor := .pullUp, initial := .low,
     dirChangeable := false, modeChangeable := true },
   { port := 2, bit := 1, direction := .output, mode := .gpio, resistor := .none, initial := .high,
     dirChangeable := true, modeChangeable := true },
   { port := 3, bit := 4, direction := .output, mode := .alt 7, resistor := .none, initial := .low,
     dirChangeable := false, modeChangeable := false }]

/-- The records of table `0x1200`: (1,1) three times. -/
def duplicateRecords : List PinRecord :=
  [{ port := 1, bit := 1, direction := .output, mode := .gpio, resistor := .none, initial := .high,
     dirChangeable := false, modeChangeable := false },
   { port := 1, bit := 1, direction := .input, mode := .gpio, resistor := .pullUp, initial := .low,
     dirChangeable := false, modeChangeable := false },
   { port := 1, bit := 1, direction := .output, mode := .gpio, resistor := .none, initial := .low,
     dirChangeable := false, modeChangeable := false },
   { port := 3, bit := 2, direction := .input, mode := .gpio, resistor := .none, initial := .low,
     dirChangeable := false, modeChangeable := false }]

/-- The reserved record's port is 2, its clock is off. -/
theorem test_witness_RefreshDirRestoresDirections :
    Ready { ready with clken := 0x2A } ∧ tableAt ready.par ready.nports ready.cfg = .ok demoRecords ∧
    UniquePins demoRecords ∧
    ∀ r ∈ demoRecords, ready.par.isReserved r.p r.bit = false → Clocked { ready with clken := 0x2A } r.p := by
  decide +kernel

theorem test_witness_InitProgramsEveryPin :
    ReadyForInit fresh ∧ tableAt fresh.par fresh.nports 0x1000 = .ok demoRecords ∧ fresh.nports ≤ 32 ∧
    UniquePins demoRecords ∧ CommitOpen fresh := by
  decide +kernel

/-- The same two with a pin listed three times: which record counts for what. -/
theorem test_witness_duplicate_pins :
    tableAt fresh.par fresh.nports 0x1200 = .ok duplicateRecords ∧ ¬UniquePins duplicateRecords ∧
    lastRecord 1 1 anyRecord duplicateRecords = duplicateRecords[2]? ∧
    lastRecord 1 1 (hasDirection .output) duplicateRecords = duplicateRecords[2]? ∧
    lastRecord 1 1 (hasDirection .input) duplicateRecords = duplicateRecords[1]? := by
  decide +kernel

/-- InitLeavesOtherPinsAlone: a pin with no record, a reserved one, an output, an input, ports no record names. -/
theorem test_witness_InitLeavesOtherPinsAlone :
    (∃ t, exec (.init 0x1000) fresh = .next t ∧ Unmarked t) ∧
    (∀ r ∈ demoRecords, (r.p, r.bit) = (0, 7) → fresh.par.isReserved 0 7 = true) ∧
    (∀ r ∈ demoRecords, (r.p, r.bit) = (2, 1) → fresh.par.isReserved 2 1 = true) ∧
    (∀ r ∈ demoRecords, (r.p, r.bit) = (1, 1) → r.direction = .output) ∧
    (∀ r ∈ demoRecords, (r.p, r.bit) = (5, 0) → r.direction = .input) ∧ (∀ r ∈ demoRecords, r.p ≠ 4) ∧
    fresh.par.isProtected 3 4 = false :=
  ⟨of_meets_unmarked (by decide +kernel), by decide, by decide, by decide, by decide, by decide, by decide⟩

theorem test_witness_InitTwiceIsInitOnce :
    ∃ t u, Unmarked t ∧ Unmarked u ∧ exec (.init 0x1000) fresh = .next t ∧ exec (.init 0x1000) t = .next u :=
  both_unmarked (by decide +kernel)

/-- The statements about one step: a call, an issue and an ENV write that happen in `ready`. -/
theorem test_witness_steps :
    ready.mstate = .initialized ∧ (∃ t, step (ready.pushCall 0x10000000 0) = .next t ∧ Unmarked t) ∧
    (∃ t, step { ready with agenda := [.env (.write .clken 0)] } = .next t ∧ Unmarked t) :=
  ⟨by decide, of_meets_unmarked (by decide +kernel), of_meets_unmarked (by decide +kernel)⟩

/-- ReservedPinsAreNeverReconfigured, ResistorBitsStayExclusive, CommandsNeverWithdrawAccess,
UnprotectedPinsStayCommitted: `INIT` from reset. -/
theorem test_witness_command_invariants :
    fresh.par.isReserved 2 0 = true ∧ CommitOpen fresh ∧ CommitOpen ready ∧
    ¬((fresh.port 5).pur.getLsbD 0 = true ∧ (fresh.port 5).pdr.getLsbD 0 = true) ∧ ready.clken.getLsbD 5 = true ∧
    (ready.port 5).commit.getLsbD 7 = true ∧ (∃ t, exec (.init 0x1000) fresh = .next t ∧ Unmarked t) :=
  ⟨by decide, by decide +kernel, by decide +kernel, by decide, by decide, by decide, of_meets_unmarked (by decide +kernel)⟩

/-- CommandsNeverWithdrawAccess, the unlocked port: port 5 after an `INIT`, from which a second one runs. -/
theorem test_witness_unlocked_port :
    ∃ t, exec (.init 0x1000) fresh = .next t ∧
      (!(t.port 5).locked && (t.port 5).commit.getLsbD 0 && meets (exec (.init 0x1000) t) State.live) = true :=
  of_meets (by decide +kernel)

/-- ResetState and ResetHasTheInvariant: draws at the first and the last port and context. -/
theorem test_witness_ResetState :
    ResetDraw.family.ports[2]? = some PortDraw.debugPins ∧ ResetDraw.family.ports[5]? = some PortDraw.zero ∧
    ResetDraw.family.ctxs[1]? = some ⟨0, 0, 0, 0⟩ ∧ 5 < fresh.nports ∧ (fresh.port 2).afen = 0x0F := by
  decide

/-- CommandsWriteOnlyTheirKinds: a command that does change a register. -/
theorem test_witness_CommandsWriteOnlyTheirKinds :
    ∃ t, exec (.writePort 3 0xFF) ready = .next t ∧ ((t.port 3).stored .data != (ready.port 3).stored .data) = true :=
  of_meets (by decide +kernel)

theorem test_witness_ReportsDoNotDependOnThePorts :
    (withData 1 0xFF).ports.length = ready.ports.length ∧ (∃ t, exec (.flipCh 0 0) ready = .next t ∧ Unmarked t) ∧
    ∃ t, exec (.flipCh 0 0) { ready with ports := (withData 1 0xFF).ports } = .next t ∧ Unmarked t :=
  ⟨by decide, of_meets_unmarked (by decide +kernel), of_meets_unmarked (by decide +kernel)⟩

/-- EveryStepKeepsTheInvariant and RunningContextsAlwaysAdvance: a context in the middle of a `FLIP_CH`. -/
def midFlip : State := ready.setCtx 0 { Ctx.blank with pos := ⟨0, .access, 1⟩, cmd := 0x16000000 }

theorem test_witness_Inv : Inv midFlip := by
  refine ⟨?_, ?_, fun _ => by decide +kernel⟩
  · intro x hx
    have : x = { Ctx.blank with pos := ⟨0, .access, 1⟩, cmd := 0x16000000 } ∨ x = ctxReset ⟨0, 0, 0, 0⟩ := by
      revert hx
      simp [midFlip, State.setCtx, ready, fresh, State.resetWith, ResetDraw.family]
    obtain rfl | rfl := this
    · refine ⟨⟨.flipCh 0 0, by decide, by decide, _, rfl, .inr ⟨.store (.aliasBit 1 1) .flip, ?_⟩, ?_⟩, by decide⟩
      · decide
      · intro h; cases h
    · exact ⟨trivial, by decide⟩
  · intro c hc
    have : ∀ d < midFlip.nctx, (midFlip.ctx d).holdsInit = false := by decide
    rw [this c hc]
    intro h; cases h

theorem test_witness_RunningContextsAlwaysAdvance :
    Unmarked midFlip ∧ 0 < midFlip.nctx ∧ (midFlip.ctx 0).running = true ∧
    ∃ t, step { midFlip with agenda := [.advance 0] } = .next t ∧ Unmarked t :=
  ⟨by decide, by decide, by decide, of_meets_unmarked (by decide +kernel)⟩

/-- InterleavedChannelWriteIsLost, as P5 of spec/95_test_vectors.md: context 0 at the read of a `WRITE_GROUP` of bits 2
and 3 of port 1, context 1 at the write of a `WRITE_CH` of pin 0, which is (1,1). -/
def raced : State :=
  { ready with
    ctxs := [{ Ctx.blank with pos := ⟨0, .access, 0⟩, cmd := 0x15000003, arg := 0x3400 },
      { Ctx.blank with pos := ⟨0, .access, 0⟩, cmd := 0x11010000 }]
    agenda := [.advance 0, .advance 1, .advance 0] }

theorem test_witness_InterleavedChannelWriteIsLost :
    Unmarked raced ∧ (0 : Nat) ≠ 1 ∧ (raced.ctx 0).cmd = cmdOf (.writeGroup 3 0x3400) ∧
    (raced.ctx 1).cmd = cmdOf (.writeCh .high 0 0) ∧
    groupAt raced.par raced.nports 0x3400 = .ok { port := 1, offset := 2, mask := 3 } ∧
    recordAt raced.par raced.nports raced.cfg (0 : BitVec 16).toNat = .ok
      { port := 1, bit := 1, direction := .output, mode := .gpio, resistor := .none, initial := .high,
        dirChangeable := true, modeChangeable := true } ∧
    Clocked raced 1 ∧ ¬(2 ≤ (1 : Bit).val ∧ (3 : Byte).getLsbD ((1 : Bit).val - 2) = true) := by
  decide +kernel

/-! ### The premises of R283 -/

theorem test_stores_and_legality_of_a_run :
    wellFormedStores raced = true ∧ wellFormedStores { ready with agenda := [.call 0 0x01000000 0x2000] } = false ∧
    legalRun raced = true ∧ legalRun { ready with agenda := [.issue 0 0x10000000 0, .issue 1 0x17000000 0] } = false := by
  decide +kernel

/-- R40: an alias write touches `DATA`. -/
theorem test_overlaps :
    (Loc.aliasBit 1 3).overlaps (.reg 1 .data) = true ∧ (Loc.reg 1 .data).overlaps (.aliasBit 1 3) = true ∧
    (Loc.aliasBit 1 3).overlaps (.aliasBit 1 4) = false ∧ (Loc.aliasBit 1 3).overlaps (.reg 1 .dir) = false ∧
    (Loc.aliasBit 1 3).overlaps (.reg 2 .data) = false := by
  decide

/-- The state a step leads to, the state itself where it leads to none. -/
def after (s : State) : State :=
  match step s with
  | .next t => t
  | .fault _ => s
  | .refused _ => s

theorem step_after {s : State} (h : meets (step s) (fun _ => true) = true) : step s = .next (after s) := by
  obtain ⟨t, ht, _⟩ := of_meets h
  simp only [after, ht]

/-- An ENV write of `DATA[1]`, then `WRITE_CH` and `READ_CH` of pin 0, which is (1,1). -/
def envBefore : State :=
  { ready with agenda := [.env (.write (.reg 1 .data) 0), .call 0 0x11010000 0, .call 0 0x10000000 0] }

theorem envBefore_run {t : State} (h : Reaches envBefore t) :
    t = envBefore ∨ t = after envBefore ∨ t = after (after envBefore) ∨ t = after (after (after envBefore)) := by
  rcases h.after_step (step_after (by decide +kernel)) with h | h
  · exact .inl h
  rcases h.after_step (step_after (by decide +kernel)) with h | h
  · exact .inr (.inl h)
  rcases h.after_step (step_after (by decide +kernel)) with h | h
  · exact .inr (.inr (.inl h))
  have hw : after (after (after (after envBefore))) = after (after (after envBefore)) := by decide +kernel
  exact .inr (.inr (.inr (h.eq_of_waits ((step_after (by decide +kernel)).trans (congrArg _ hw)))))

/-- The access before the two commands is neither during nor between them. -/
theorem test_env_before_the_commands :
    EnvOff [⟨0, 0⟩, ⟨0, 1⟩] envBefore ∧ EnvQuietBetween [.reg 1 .data] [⟨0, 0⟩, ⟨0, 1⟩] envBefore := by
  have hn : (after envBefore).nextEnv = none ∧ (after (after envBefore)).nextEnv = none ∧
      (after (after (after envBefore))).nextEnv = none := by decide +kernel
  refine ⟨fun t ht a ha => ?_, fun t ht a ha hs _ => ?_⟩
  · rcases envBefore_run ht with rfl | rfl | rfl | rfl
    · decide +kernel
    · rw [hn.1] at ha; cases ha
    · rw [hn.2.1] at ha; cases ha
    · rw [hn.2.2] at ha; cases ha
  · rcases envBefore_run ht with rfl | rfl | rfl | rfl
    · exact absurd hs (by decide +kernel)
    · rw [hn.1] at ha; cases ha
    · rw [hn.2.1] at ha; cases ha
    · rw [hn.2.2] at ha; cases ha

/-- An alias write of ENV while context 0 holds a `WRITE_GROUP` on the same port. -/
theorem test_env_during_a_command :
    ¬EnvOff [⟨0, 0⟩] { raced with agenda := [.env (.write (.aliasBit 1 4) 1)] } ∧
    ¬EnvQuiet [.reg 1 .data] [⟨0, 0⟩] { raced with agenda := [.env (.write (.aliasBit 1 4) 1)] } :=
  ⟨fun h => absurd (h _ (.refl _) _ rfl ⟨0, 0⟩ (by decide)) (by decide +kernel),
    fun h => absurd (h _ (.refl _) _ rfl ⟨0, 0⟩ (by decide) (by decide +kernel)) (by decide)⟩

theorem test_touchesPort : raced.touchesPort 1 0 = true ∧ raced.touchesPort 1 1 = true ∧ raced.touchesPort 3 0 = false := by
  decide +kernel

/-- Two commands in flight are not serial, not even on port 1. -/
theorem test_raced_is_not_serial : ¬Serial raced ∧ ¬SerialOn 1 raced := by
  have hr : Reaches raced raced := ⟨0, rfl⟩
  exact ⟨fun h => absurd (h raced hr 0 1 (by decide)) (by decide +kernel),
    fun h => absurd (h raced hr 0 1 (by decide)) (by decide +kernel)⟩

theorem test_waiting_is_serial : Serial ready ∧ ClockedThroughout 5 ready := by
  have h : ∀ t, Reaches ready t → t = ready := fun t ht => ht.eq_of_waits rfl
  refine ⟨fun t ht c d _ => .inl ?_, fun t ht => ?_⟩
  · rw [h t ht]
    simp only [State.commandOn]
    match c with
    | 0 => rfl
    | 1 => rfl
    | _ + 2 => rfl
  · rw [h t ht]
    decide

/-- `fresh` with an `INIT` on the agenda, and after it another `INIT`. -/
def twoInits : State :=
  { fresh with agenda := [.call 1 0x01000000 0x1000, .issue 0 0x01000000 0x1200] }

/-- After the first `INIT` of `twoInits` `InitDone` holds, and the next step ends it: no later state is reached without an
`INIT` being issued. -/
theorem test_initDone :
    ∃ s, InitDone twoInits 0x1000 s ∧ ∀ u, RunsWithoutInit s u → u = s := by
  obtain ⟨s, hs, hp⟩ := of_meets (o := step twoInits)
    (p := fun s => s.live && s.mstate == .initialized && s.cfg == 0x1000 && s.startsInit) (by decide +kernel)
  simp only [Bool.and_eq_true, beq_iff_eq] at hp
  obtain ⟨⟨⟨hl, hm⟩, hc⟩, hi⟩ := hp
  exact ⟨s, ⟨⟨demoPar, ResetDraw.family, _, rfl⟩, hm, hc, twoInits, s, ⟨0, rfl⟩, by decide +kernel, hs,
    (State.live_iff s).1 hl, .refl⟩, fun u hu => hu.eq_of_startsInit hi⟩

theorem test_init_null_starts_an_init :
    (ready.pushCall 0x01000000 0).startsInit = true ∧ (ready.pushCall 0x01000000 0).completesInit 0 = false ∧
    (ready.pushCall 0x10000000 0).startsInit = false := by
  decide +kernel

end Sys2Proof.Tests
end

/-! ### The numeric address map (spec/20_memory.md R53) -/

namespace Sys2Proof.Machine

/-- Under R53's constraints the word found at the address of `l` is `l`: some word is found there, it has the address of
`l`, and no two words share an address. -/
theorem locAt_addrOf {m : AddressMap} {nports : Nat} (hm : addressMapOk m nports) {l : Loc} (hl : l ∈ allLocs nports) :
    locAt m nports (addrOf m l) = some l := by
  have hsome : (locAt m nports (addrOf m l)).isSome := List.find?_isSome.2 ⟨l, hl, beq_self_eq_true _⟩
  obtain ⟨l', hfind⟩ := Option.isSome_iff_exists.1 hsome
  have hbeq := List.find?_some hfind
  have heq : l' = l := List.inj_on_of_nodup_map hm.1 (List.mem_of_find?_eq_some hfind) hl (eq_of_beq hbeq)
  rw [hfind, heq]

/-- A read of an address with a word `l` on it reads `l` (R12). -/
theorem memRead_of_locAt {s : State} {a : Word} {l : Loc} (h : locAt s.par.addr s.nports a = some l) :
    memRead s a = s.load l := by
  rw [memRead, h]

/-- A write to an address with a word `l` on it writes `l` (R12). -/
theorem memWrite_of_locAt {s : State} {a : Word} {l : Loc} (h : locAt s.par.addr s.nports a = some l) (v : Word) :
    memWrite s a v = s.store l v := by
  rw [memWrite, h]

end Sys2Proof.Machine

namespace Sys2Proof

open Machine

/-- Settles O14: the map finds every word at its own address. -/
theorem numericMapReachesTheSameWords : Obligations.NumericMapReachesTheSameWords := by
  intro s l v hm hl
  have hloc := locAt_addrOf hm hl
  exact ⟨memRead_of_locAt hloc, memWrite_of_locAt hloc v⟩

end Sys2Proof

/-! ### Commands and their words -/

namespace Sys2Proof

theorem cmdWord_fields (cmd : Word) : cmdWord (cmdOpc cmd) (cmdVal cmd) (cmdIdx cmd) = cmd := by
  have hhigh : cmdOpc cmd ++ cmdVal cmd = cmd.extractLsb' 16 16 :=
    BitVec.extractLsb'_append_extractLsb'_eq_extractLsb' rfl
  rw [cmdWord, hhigh]
  exact (BitVec.extractLsb'_append_extractLsb'_eq_extractLsb' rfl).trans BitVec.extractLsb'_eq_self

@[simp] theorem cmdOpc_cmdWord (opc val : Byte) (idx : BitVec 16) : cmdOpc (cmdWord opc val idx) = opc := by
  apply BitVec.eq_of_getLsbD_eq
  intro i hi
  have h1 : ¬ 24 + i < 16 := by omega
  have h2 : ¬ 24 + i - 16 < 8 := by omega
  have h3 : 24 + i - 16 - 8 = i := by omega
  simp only [cmdOpc, cmdWord, BitVec.getLsbD_extractLsb', BitVec.getLsbD_append]
  simp [hi, h1, h2, h3, -BitVec.getLsbD_eq_getElem]
/-- The three fields of a command word determine it (R91). -/
theorem cmdWord_eq {cmd : Word} {opc val : Byte} {idx : BitVec 16} (ho : cmdOpc cmd = opc) (hv : cmdVal cmd = val)
    (hi : cmdIdx cmd = idx) : cmdWord opc val idx = cmd := by
  rw [← ho, ← hv, ← hi, cmdWord_fields]

theorem decodeNoOperand_ok {cmd : Word} {i j : Instr} (h : decodeNoOperand cmd i = .ok j) :
    cmdVal cmd = 0 ∧ cmdIdx cmd = 0 ∧ j = i := by
  unfold decodeNoOperand at h
  split at h
  · cases h; simp_all
  · cases h

theorem decodeIndex_ok {cmd : Word} {f : BitVec 16 → Instr} {j : Instr} (h : decodeIndex cmd f = .ok j) :
    cmdVal cmd = 0 ∧ j = f (cmdIdx cmd) := by
  unfold decodeIndex at h
  split at h
  · cases h; simp_all
  · cases h

theorem dirOfVal_some {v : Byte} {d : Dir} (h : dirOfVal v = some d) : v = valOfDir d := by
  unfold dirOfVal at h
  split at h <;> cases h <;> rfl

theorem levelOfVal_some {v : Byte} {l : Level} (h : levelOfVal v = some l) : v = valOfLevel l := by
  unfold levelOfVal at h
  split at h <;> cases h <;> rfl

/-- A pair that decodes is the encoding of what it decodes to (R101). -/
theorem encode_of_decode {cmd arg : Word} {i : Instr} (h : decode cmd arg = .ok i) : cmdOf i = cmd ∧ argOf i = arg := by
  unfold decode at h
  split at h
  case h_1 ho | h_4 ho | h_9 ho =>
    obtain ⟨hv, hi, rfl⟩ := decodeNoOperand_ok h
    exact ⟨cmdWord_eq ho hv hi, rfl⟩
  case h_5 ho | h_7 ho | h_8 ho | h_10 ho | h_11 ho =>
    obtain ⟨hv, rfl⟩ := decodeIndex_ok h
    exact ⟨cmdWord_eq ho hv rfl, rfl⟩
  case h_2 ho =>
    split at h
    · rename_i hd
      cases h
      exact ⟨cmdWord_eq ho (dirOfVal_some hd) rfl, rfl⟩
    · cases h
  case h_6 ho =>
    split at h
    · rename_i hd
      cases h
      exact ⟨cmdWord_eq ho (levelOfVal_some hd) rfl, rfl⟩
    · cases h
  case h_3 ho =>
    cases h
    exact ⟨cmdWord_eq ho rfl rfl, rfl⟩
  case h_12 => cases h

theorem decode_encode_of_decode {cmd arg : Word} {i : Instr} (h : decode cmd arg = .ok i) :
    decode (cmdOf i) (argOf i) = .ok i := by
  obtain ⟨hc, ha⟩ := encode_of_decode h
  rwa [hc, ha]

end Sys2Proof

namespace Sys2Proof.Machine

theorem exec_eq_call (i : Instr) (s : State) : exec i s = call (commandOf i) s := by
  cases i <;> rfl

@[simp] theorem commandOf_cmd (i : Instr) : (commandOf i).cmd = cmdOf i := by
  cases i <;> rfl

@[simp] theorem commandOf_arg (i : Instr) : (commandOf i).arg = argOf i := by
  cases i <;> rfl

@[simp] theorem commandOf_present (i : Instr) (par : Config) : (commandOf i).present par = i.wellFormed par := by
  cases i <;> rfl

/-- Every build has `INIT` (R92). -/
theorem wellFormed_of_isInit {i : Instr} (h : (commandOf i).isInit = true) (par : Config) :
    i.wellFormed par = true := by
  cases i with
  | init _ => rfl
  | _ => cases h

theorem decode_initWord (arg : Word) : decode initWord arg = .ok (.init arg) := rfl

/-- `INIT` is the one command with the word `initWord` (R92). -/
theorem commandOf_isInit (i : Instr) : (commandOf i).isInit = true ↔ cmdOf i = initWord := by
  have hne : ∀ opc val idx, opc ≠ 1#8 → cmdWord opc val idx ≠ initWord := by
    intro opc val idx ho h
    exact ho (by rw [← cmdOpc_cmdWord opc val idx, h]; rfl)
  cases i with
  | init h => exact ⟨fun _ => rfl, fun _ => rfl⟩
  | _ => exact ⟨fun h => (nomatch h), fun h => absurd h (hne _ _ _ (by decide))⟩

end Sys2Proof.Machine

/-! ### What each operation leaves of the state -/

namespace Sys2Proof.Machine

/-! #### Contexts -/

theorem State.ctx_of_ge {s : State} {c : Nat} (h : s.nctx ≤ c) : s.ctx c = Ctx.blank :=
  List.getD_eq_default _ _ h

/-- A context that is not idle exists. -/
theorem State.lt_nctx_of_ph {s : State} {c : Nat} (h : (s.ctx c).pos.ph ≠ .idle) : c < s.nctx := by
  by_contra hc
  exact h (by rw [State.ctx_of_ge (Nat.le_of_not_lt hc)]; rfl)

theorem State.setCtx_of_ge {s : State} {c : Nat} (h : s.nctx ≤ c) (x : Ctx) : s.setCtx c x = s := by
  rw [State.setCtx, List.set_eq_of_length_le h]

theorem State.ctx_eq_getElem {s : State} {c : Nat} (h : c < s.ctxs.length) : s.ctx c = s.ctxs[c] :=
  List.getD_eq_getElem _ _ h

theorem State.forall_ctxs {s : State} {P : Ctx → Prop} (hb : P Ctx.blank) :
    (∀ x ∈ s.ctxs, P x) ↔ ∀ c, P (s.ctx c) := by
  constructor
  · intro h c
    rcases Nat.lt_or_ge c s.nctx with hc | hc
    · rw [State.ctx_eq_getElem hc]
      exact h _ (List.getElem_mem hc)
    · rwa [State.ctx_of_ge hc]
  · intro h x hx
    obtain ⟨c, hc, rfl⟩ := List.mem_iff_getElem.1 hx
    rw [← State.ctx_eq_getElem hc]
    exact h c

theorem State.forall_others {s : State} {c : Nat} {P : Ctx → Prop} (hb : P Ctx.blank) :
    (∀ x ∈ s.others c, P x) ↔ ∀ d, d ≠ c → P (s.ctx d) := by
  constructor
  · intro h d hd
    rcases Nat.lt_or_ge d s.nctx with hlt | hge
    · rw [State.ctx_eq_getElem hlt]
      exact h _ (List.mem_eraseIdx_iff_getElem.2 ⟨d, hlt, hd, rfl⟩)
    · rwa [State.ctx_of_ge hge]
  · intro h x hx
    obtain ⟨d, hd, hne, rfl⟩ := List.mem_eraseIdx_iff_getElem.1 hx
    rw [← State.ctx_eq_getElem hd]
    exact h d hne

theorem State.port_of_ge {s : State} {p : Nat} (h : s.nports ≤ p) : s.port p = PortRegs.blank :=
  List.getD_eq_default _ _ h

theorem State.canIssue_iff {s : State} {c : Nat} :
    s.canIssue c = true ↔ c < s.nctx ∧ (s.ctx c).pos.ph = .idle := by
  simp [State.canIssue]

theorem Ctx.running_iff {x : Ctx} : x.running = true ↔ x.pos.ph ≠ .idle ∧ x.pos.ph ≠ .finish := by
  simp [Ctx.running]

/-! #### Micro-ops -/

/-- What a micro-op of context `c` leaves as it was: all but the contents of the surface, the draw counter and
`TMP[c]`. -/
structure OpFrame (c : Nat) (s t : State) : Prop where
  par : t.par = s.par
  mstate : t.mstate = s.mstate
  cfg : t.cfg = s.cfg
  diag : t.diag = s.diag
  responses : t.responses = s.responses
  envReads : t.envReads = s.envReads
  live : t.live = s.live
  nports : t.nports = s.nports
  nctx : t.nctx = s.nctx
  other : ∀ d, d ≠ c → t.ctx d = s.ctx d
  own : t.ctx c = { s.ctx c with tmp := (t.ctx c).tmp }

theorem OpFrame.refl (c : Nat) (s : State) : OpFrame c s s :=
  ⟨rfl, rfl, rfl, rfl, rfl, rfl, rfl, rfl, rfl, fun _ _ => rfl, rfl⟩

theorem OpFrame.trans {c : Nat} {s t u : State} (h : OpFrame c s t) (g : OpFrame c t u) : OpFrame c s u where
  par := g.par.trans h.par
  mstate := g.mstate.trans h.mstate
  cfg := g.cfg.trans h.cfg
  diag := g.diag.trans h.diag
  responses := g.responses.trans h.responses
  envReads := g.envReads.trans h.envReads
  live := g.live.trans h.live
  nports := g.nports.trans h.nports
  nctx := g.nctx.trans h.nctx
  other d hd := (g.other d hd).trans (h.other d hd)
  own := by rw [g.own, h.own]

theorem opFrame_load {s t : State} {l : Loc} {v : Word} (h : s.load l = .ok (v, t)) (c : Nat) : OpFrame c s t := by
  rcases State.load_ok h with rfl | ⟨_, rfl⟩
  · exact .refl c _
  · exact ⟨rfl, rfl, rfl, rfl, rfl, rfl, rfl, rfl, rfl, fun _ _ => rfl, rfl⟩

theorem opFrame_setPort (c : Nat) (s : State) (p : Nat) (r : PortRegs) : OpFrame c s (s.setPort p r) :=
  ⟨rfl, rfl, rfl, rfl, rfl, rfl, rfl, s.setPort_nports p r, rfl, fun _ _ => rfl, rfl⟩

theorem opFrame_store {s t : State} {l : Loc} {v : Word} (h : s.store l v = .ok t) (c : Nat) : OpFrame c s t := by
  rcases State.store_ok h with ⟨p, k, _, _, rfl⟩ | ⟨_, rfl⟩ | ⟨p, b, _, _, rfl⟩
  · exact opFrame_setPort c s p _
  · exact ⟨rfl, rfl, rfl, rfl, rfl, rfl, rfl, rfl, rfl, fun _ _ => rfl, rfl⟩
  · exact opFrame_setPort c s p _

theorem opFrame_setTmp (c : Nat) (s : State) (v : Word) : OpFrame c s (s.setTmp c v) where
  par := rfl
  mstate := rfl
  cfg := rfl
  diag := rfl
  responses := rfl
  envReads := rfl
  live := rfl
  nports := rfl
  nctx := s.setTmp_nctx c v
  other d hd := s.ctx_setCtx_other c d _ (Ne.symm hd)
  own := by
    rcases Nat.lt_or_ge c s.nctx with hc | hc
    · rw [State.setTmp, State.ctx_setCtx_same _ _ _ hc]
    · rw [State.ctx_of_ge (s := s.setTmp c v) (by rwa [State.setTmp_nctx]), State.ctx_of_ge hc]

theorem performOp_frame {c : Nat} {op : MicroOp} {s t : State} (h : performOp c op s = .ok t) : OpFrame c s t := by
  cases op with
  | load l =>
    simp only [performOp] at h
    split at h
    · cases h
    · next hl =>
      cases h
      exact (opFrame_load hl c).trans (opFrame_setTmp c _ _)
  | store l d => exact opFrame_store h c
  | update l d =>
    simp only [performOp] at h
    split at h
    · cases h
    · next hl => exact (opFrame_load hl c).trans (opFrame_store h c)

/-! #### One item -/

theorem itemStep_of_fault {c : Nat} {op : MicroOp} {s : State} {f : Fault} (h : performOp c op s = .error f) (q : Pos) :
    itemStep c op q s = s.markFault f := by
  rw [itemStep, h]

theorem itemStep_of_ok {c : Nat} {op : MicroOp} {s t : State} (h : performOp c op s = .ok t) (q : Pos) :
    itemStep c op q s = t.setPos c q := by
  rw [itemStep, h]

/-- What holds after a stage that runs only from an unmarked state. -/
theorem State.andThen_intro {s : State} {f : State → State} {P : State → Prop} (hm : s.live = false → P s)
    (hf : s.live = true → P (f s)) : P (s.andThen f) := by
  cases h : s.live with
  | false => rw [State.andThen_of_marked s f h]; exact hm h
  | true => rw [State.andThen_of_live s f h]; exact hf h

/-! #### Calls and steps -/

/-- A call that answers a next state is made on an idle context of an unmarked state. -/
theorem call_next {k : Command} {s t : State} (h : call k s = .next t) :
    s.live = true ∧ s.canIssue s.cur = true ∧ t = (issue k s.cur s).andThen (runIssued k s.cur) := by
  unfold call at h
  split at h
  · cases h
  · cases h
  · next hf hr =>
    split at h
    · next hi =>
      cases h
      exact ⟨(State.live_iff s).2 ⟨hf, hr⟩, hi, rfl⟩
    · cases h

/-- The same state but for the model's own schedule: the agenda and the context of a call. -/
def State.scheduled (s : State) (agenda : List Event) (cur : Nat) : State := { s with agenda := agenda, cur := cur }

/-- Everything one step can do from `u`, of which the event is off the agenda. -/
inductive StepCase (u t : State) : Prop where
  | call (i : Instr) (hd : decode (cmdOf i) (argOf i) = .ok i) (h : Machine.call (commandOf i) u = .next t)
  | callIllegal (cmd arg : Word) (e : DecodeError) (hd : decode cmd arg = .error e) (hi : u.canIssue u.cur = true)
      (h : t = Machine.complete u.cur (issueIllegal u.cur cmd arg u))
  | issueIllegal (c : Nat) (cmd arg : Word) (e : DecodeError) (hd : decode cmd arg = .error e)
      (hi : u.canIssue c = true) (h : t = Machine.issueIllegal c cmd arg u)
  | issue (c : Nat) (i : Instr) (hd : decode (cmdOf i) (argOf i) = .ok i) (hi : u.canIssue c = true)
      (h : t = Machine.issue (commandOf i) c u)
  | advance (c : Nat) (i : Instr) (hr : (u.ctx c).running = true) (hd : decode (u.ctx c).cmd (u.ctx c).arg = .ok i)
      (h : t = ownStep (commandOf i) c u)
  | complete (c : Nat) (h : t = Machine.complete c u)
  | envFault (f : Fault) (h : t = u.markFault f)
  | envRead (l : Loc) (v : Word) (v' : State) (hl : u.load l = .ok (v, v'))
      (h : t = { v' with envReads := v'.envReads ++ [v] })
  | envWrite (l : Loc) (v : Word) (h : u.store l v = .ok t)
  | wait (h : t = u)

theorem stepCase_of_stepCall {cmd arg : Word} {u t : State} (h : stepCall cmd arg u = .next t) : StepCase u t := by
  unfold stepCall at h
  split at h
  · next e hd =>
    unfold callIllegal at h
    split at h
    · next hi =>
      cases h
      exact .callIllegal cmd arg e hd hi rfl
    · cases h
  · next i hd =>
    rw [exec_eq_call] at h
    exact .call i (decode_encode_of_decode hd) h

theorem stepCase_of_issueEvent {c : Nat} {cmd arg : Word} {u t : State} (h : issueEvent c cmd arg u = .next t) :
    StepCase u t := by
  unfold issueEvent at h
  split at h
  · next hi =>
    split at h
    · next e hd =>
      cases h
      exact .issueIllegal c cmd arg e hd hi rfl
    · next i hd =>
      cases h
      exact .issue c i (decode_encode_of_decode hd) hi rfl
  · cases h

theorem stepCase_of_advanceEvent {c : Nat} {u t : State} (h : advanceEvent c u = .next t) : StepCase u t := by
  unfold advanceEvent at h
  split at h
  · next hr =>
    split at h
    · cases h
    · next i hd =>
      cases h
      exact .advance c i hr hd rfl
  · cases h

theorem stepCase_of_completeEvent {c : Nat} {u t : State} (h : completeEvent c u = .next t) : StepCase u t := by
  unfold completeEvent at h
  split at h
  · cases h
    exact .complete c rfl
  · cases h

theorem stepCase_of_envEvent {a : EnvAccess} {u t : State} (h : envEvent a u = .next t) : StepCase u t := by
  unfold envEvent at h
  split at h
  · cases a with
    | read l =>
      cases hl : u.load l with
      | error f =>
        simp only [hl] at h
        cases h
        exact .envFault f rfl
      | ok vu =>
        simp only [hl] at h
        cases h
        exact .envRead l vu.1 vu.2 hl rfl
    | write l v =>
      cases hs : u.store l v with
      | error f =>
        simp only [hs] at h
        cases h
        exact .envFault f rfl
      | ok u' =>
        simp only [hs] at h
        cases h
        exact .envWrite l v hs
  · cases h

/-- Everything one step can do: it starts from a state that differs in its schedule only. -/
theorem step_cases {s t : State} (h : step s = .next t) :
    ∃ agenda cur, StepCase (s.scheduled agenda cur) t := by
  unfold step at h
  split at h
  · cases h
  · cases h
  · split at h
    · refine ⟨s.agenda, s.cur, ?_⟩
      unfold idleStep at h
      split at h
      · exact stepCase_of_advanceEvent h
      · cases h
        exact .wait rfl
    · next e rest _ =>
      cases e with
      | call c cmd arg => exact ⟨rest, c, stepCase_of_stepCall h⟩
      | issue c cmd arg => exact ⟨rest, s.cur, stepCase_of_issueEvent h⟩
      | advance c => exact ⟨rest, s.cur, stepCase_of_advanceEvent h⟩
      | complete c => exact ⟨rest, s.cur, stepCase_of_completeEvent h⟩
      | env a => exact ⟨rest, s.cur, stepCase_of_envEvent h⟩

end Sys2Proof.Machine

/-! ### What only grows, and what never changes (spec/10_state.md R21, R23, R28) -/

namespace Sys2Proof.Machine

/-- `t` continues the history of `s`: the outputs grew at their ends, the parameters and the sizes stayed, and an
initialized module is so still. -/
structure Extends (s t : State) : Prop where
  par : t.par = s.par
  nports : t.nports = s.nports
  nctx : t.nctx = s.nctx
  diag : s.diag <+: t.diag
  responses : s.responses <+: t.responses
  envReads : s.envReads <+: t.envReads
  mstate : s.mstate = .initialized → t.mstate = .initialized

theorem Extends.refl (s : State) : Extends s s :=
  ⟨rfl, rfl, rfl, List.prefix_rfl, List.prefix_rfl, List.prefix_rfl, id⟩

theorem Extends.trans {s t u : State} (h : Extends s t) (g : Extends t u) : Extends s u where
  par := g.par.trans h.par
  nports := g.nports.trans h.nports
  nctx := g.nctx.trans h.nctx
  diag := h.diag.trans g.diag
  responses := h.responses.trans g.responses
  envReads := h.envReads.trans g.envReads
  mstate hs := g.mstate (h.mstate hs)

theorem OpFrame.extends {c : Nat} {s t : State} (h : OpFrame c s t) : Extends s t where
  par := h.par
  nports := h.nports
  nctx := h.nctx
  diag := h.diag ▸ List.prefix_rfl
  responses := h.responses ▸ List.prefix_rfl
  envReads := h.envReads ▸ List.prefix_rfl
  mstate hs := h.mstate.trans hs

theorem extends_setCtx (s : State) (c : Nat) (x : Ctx) : Extends s (s.setCtx c x) :=
  { Extends.refl s with nctx := s.setCtx_nctx c x }

theorem extends_markFault (s : State) (f : Fault) : Extends s (s.markFault f) := { Extends.refl s with }

theorem extends_markRefused (s : State) (r : Refusal) : Extends s (s.markRefused r) := { Extends.refl s with }

theorem extends_report (s : State) (ws : List Word) : Extends s (s.report ws) :=
  { Extends.refl s with diag := List.prefix_append _ _ }

theorem extends_andThen {s : State} {f : State → State} (h : Extends s (f s)) : Extends s (s.andThen f) :=
  State.andThen_intro (fun _ => .refl s) (fun _ => h)

theorem extends_issue (k : Command) (c : Nat) (s : State) : Extends s (issue k c s) := by
  unfold issue
  split
  · split
    · exact extends_markFault s _
    · exact extends_setCtx s c _
  · exact extends_setCtx s c _

theorem extends_enterBody (k : Command) (c : Nat) (s : State) : Extends s (enterBody k c s) := by
  unfold enterBody
  split
  · exact extends_markRefused s _
  · dsimp only
    split
    · exact Extends.trans (t := { s with cfg := k.arg }) { Extends.refl s with } (extends_setCtx _ c _)
    · exact extends_setCtx s c _

theorem extends_guardStep (k : Command) (c : Nat) (s : State) : Extends s (guardStep k c s) := by
  unfold guardStep
  split
  · split
    · exact extends_enterBody k c s
    · exact ((extends_report s _).trans (extends_setCtx _ c _)).trans (extends_setCtx _ c _)
  · split
    · exact extends_markRefused s _
    · exact extends_enterBody k c s

theorem extends_itemStep (c : Nat) (op : MicroOp) (q : Pos) (s : State) : Extends s (itemStep c op q s) := by
  cases h : performOp c op s with
  | error f =>
    rw [itemStep_of_fault h]
    exact extends_markFault s f
  | ok t =>
    rw [itemStep_of_ok h]
    exact (performOp_frame h).extends.trans (extends_setCtx t c _)

theorem extends_finStep (k : Command) (c : Nat) (res : Result) (s : State) : Extends s (finStep k c res s) := by
  unfold finStep
  dsimp only
  split
  · exact Extends.trans (t := { s with mstate := .initialized }) { Extends.refl s with mstate := fun _ => rfl }
      (extends_setCtx _ c _)
  · exact extends_setCtx s c _

theorem extends_complete (c : Nat) (s : State) : Extends s (complete c s) :=
  { extends_setCtx s c _ with responses := List.prefix_append _ _ }

theorem extends_bodyStep (k : Command) (c : Nat) (s : State) : Extends s (bodyStep k c s) := by
  unfold bodyStep
  split
  · split
    · exact extends_setCtx s c _
    · exact extends_markRefused s _
  · split
    · exact extends_markRefused s _
    · split
      · exact extends_itemStep c _ _ s
      · split
        · exact extends_finStep k c _ s
        · exact extends_markRefused s _

theorem extends_ownStep (k : Command) (c : Nat) (s : State) : Extends s (ownStep k c s) := by
  unfold ownStep
  split
  · exact extends_guardStep k c s
  · exact extends_bodyStep k c s

theorem extends_runItems (c : Nat) (fin : Pos) (items : List Item) (s : State) :
    Extends s (runItems c fin items s) := by
  induction items generalizing s with
  | nil => exact .refl s
  | cons item rest ih => exact (extends_itemStep c item.2 _ s).trans (extends_andThen (ih _))

theorem extends_runBody (k : Command) (c : Nat) (s : State) : Extends s (runBody k c s) := by
  unfold runBody
  split
  · exact extends_setCtx s c _
  · split
    · exact extends_markRefused s _
    · exact (extends_runItems c _ _ s).trans (extends_andThen (extends_finStep k c _ _))

theorem extends_runIssued (k : Command) (c : Nat) (s : State) : Extends s (runIssued k c s) := by
  unfold runIssued
  split
  · exact extends_complete c s
  · exact ((extends_guardStep k c s).trans (extends_andThen (extends_runBody k c _))).trans
      (extends_andThen (extends_complete c _))

theorem extends_call {k : Command} {s t : State} (h : call k s = .next t) : Extends s t := by
  obtain ⟨_, _, rfl⟩ := call_next h
  exact (extends_issue k s.cur s).trans (extends_andThen (extends_runIssued k s.cur _))

/-- Every step of every agent continues the history. -/
theorem extends_step {s t : State} (h : step s = .next t) : Extends s t := by
  obtain ⟨agenda, cur, hc⟩ := step_cases h
  refine Extends.trans (t := s.scheduled agenda cur) { Extends.refl s with } ?_
  cases hc with
  | call i _ h => exact extends_call h
  | callIllegal cmd arg _ _ _ h => exact h ▸ (extends_setCtx _ _ _).trans (extends_complete _ _)
  | issueIllegal c cmd arg _ _ _ h => exact h ▸ extends_setCtx _ _ _
  | issue c i _ _ h => exact h ▸ extends_issue _ _ _
  | advance c i _ _ h => exact h ▸ extends_ownStep _ _ _
  | complete c h => exact h ▸ extends_complete _ _
  | envFault f h => exact h ▸ extends_markFault _ _
  | envRead l v u hl h =>
    exact h ▸ (opFrame_load hl 0).extends.trans { Extends.refl u with envReads := List.prefix_append _ _ }
  | envWrite l v h => exact (opFrame_store h 0).extends
  | wait h => exact h ▸ .refl _

end Sys2Proof.Machine

namespace Sys2Proof

open Machine

/-- Settles O49: `MSTATE` is written by FIN of an `INIT` alone, and to `Initialized`. -/
theorem initializedIsNeverLeft : Obligations.InitializedIsNeverLeft :=
  fun _ _ h => (extends_step h).mstate

/-- Settles O50: every operation only appends to the outputs, and none writes the parameters or resizes the surface. -/
theorem historyGrowsAndParametersStay : Obligations.HistoryGrowsAndParametersStay := by
  intro s t h
  have e := extends_step h
  exact ⟨e.diag, e.responses, e.envReads, e.par, e.nports, e.nctx⟩

end Sys2Proof

/-! ### Where the items of a body stand (spec/10_state.md R25) -/

namespace Sys2Proof.Machine

/-- The phases of the items after GUARD and of FIN. -/
def Phase.inBody : Phase → Bool
  | .idle | .guard | .finish => false
  | .clk | .unlock | .dirp | .datap | .resp | .funcp | .access => true

/-- A position a body may have: in a body phase, with `REC` at most `NPINS` and `SUB` at most 7. -/
structure Pos.BodyOk (npins : Nat) (q : Pos) : Prop where
  ph : q.ph.inBody = true
  record : q.record ≤ npins
  sub : q.sub ≤ 7

/-- `q` is the position of FIN or of an item of the body. -/
def Body.Has (b : Body) (q : Pos) : Prop := q = b.finPos ∨ ∃ op, (q, op) ∈ b.items

theorem finAt_bodyOk {n npins : Nat} (h : n ≤ npins) : (finAt n).BodyOk npins := ⟨rfl, h, Nat.zero_le 7⟩

theorem place_bodyOk {npins n j : Nat} {ph : Phase} {ops : List MicroOp} (hph : ph.inBody = true) (hn : n ≤ npins)
    (hlen : j + ops.length ≤ 8) : ∀ x ∈ place n ph j ops, x.1.BodyOk npins := by
  induction ops generalizing j with
  | nil => exact fun _ hx => nomatch hx
  | cons op ops ih =>
    rw [List.length_cons] at hlen
    rintro x (_ | ⟨_, hx⟩)
    · exact ⟨hph, hn, show j ≤ 7 by omega⟩
    · exact ih (by omega) x hx

theorem bitUpdate_length (par : Config) (l : Loc) (d : Datum) : (bitUpdate par l d).length ≤ 2 := by
  unfold bitUpdate
  split <;> simp

theorem putBitOps_length (par : Config) (p : Nat) (k : Kind) (b : Bit) (v : Bool) :
    (putBitOps par p k b v).length ≤ 2 := by
  unfold putBitOps
  split <;> exact bitUpdate_length ..

theorem unlockOps_length (par : Config) (p : Nat) (b : Bit) : (unlockOps par p b).length ≤ 3 :=
  Nat.succ_le_succ (bitUpdate_length ..)

theorem resistorOps_length (par : Config) (p : Nat) (b : Bit) (r : Resistor) : (resistorOps par p b r).length ≤ 4 := by
  cases r <;> rw [resistorOps, List.length_append] <;>
    exact Nat.add_le_add (bitUpdate_length ..) (bitUpdate_length ..)

theorem functionOps_length (par : Config) (p : Nat) (b : Bit) (m : Mode) : (functionOps par p b m).length ≤ 8 := by
  cases m <;> simp only [functionOps, List.length_append] <;>
    exact Nat.add_le_add (Nat.add_le_add (Nat.add_le_add (bitUpdate_length ..) (Nat.le_refl 2)) (bitUpdate_length ..))
      (bitUpdate_length ..)

theorem directionOps_length (par : Config) (r : PinRecord) (d : Dir) : (directionOps par r d).length ≤ 2 := by
  unfold directionOps
  split
  · exact Nat.zero_le 2
  · exact putBitOps_length ..

/-- The two branches of a phase that some records skip. -/
theorem ite_nil_length {c : Prop} [Decidable c] {ops : List MicroOp} {n : Nat} (h : ops.length ≤ n) :
    (if c then ops else []).length ≤ n := by
  split
  · exact h
  · exact Nat.zero_le n

theorem pinItems_bodyOk {par : Config} {npins n : Nat} (hn : n ≤ npins) (r : PinRecord) :
    ∀ x ∈ pinItems par n r, x.1.BodyOk npins := by
  have hunlock := ite_nil_length (c := par.isProtected r.p r.bit = true) (unlockOps_length par r.p r.bit)
  have hdir := putBitOps_length par r.p .dir r.bit r.direction.bit
  have hdata := ite_nil_length (c := r.direction = .output) (putBitOps_length par r.p .data r.bit r.initial.bit)
  have hres := ite_nil_length (c := r.direction = .input) (resistorOps_length par r.p r.bit r.resistor)
  have hfun := functionOps_length par r.p r.bit r.mode
  intro x hx
  simp only [pinItems, List.mem_append] at hx
  obtain (((hx | hx) | hx) | hx) | hx := hx
  · exact place_bodyOk rfl hn (by omega) x hx
  · exact place_bodyOk rfl hn (by omega) x hx
  · exact place_bodyOk rfl hn (by omega) x hx
  · exact place_bodyOk rfl hn (by omega) x hx
  · exact place_bodyOk rfl hn (by omega) x hx

theorem recordItems_bodyOk {par : Config} {npins n : Nat} (hn : n ≤ npins) (r : PinRecord) :
    ∀ x ∈ recordItems par n r, x.1.BodyOk npins := by
  have hclk := bitUpdate_length par .clken (.setBit r.p)
  intro x hx
  rcases List.mem_append.1 hx with hx | hx
  · exact place_bodyOk rfl hn (by rw [clkSetOps]; omega) x hx
  · split at hx
    · exact nomatch hx
    · exact pinItems_bodyOk hn r x hx

theorem initItems_bodyOk {par : Config} {npins n : Nat} {rs : List PinRecord} (h : n + rs.length ≤ npins) :
    ∀ x ∈ initItems par n rs, x.1.BodyOk npins := by
  induction rs generalizing n with
  | nil => exact fun _ hx => nomatch hx
  | cons r rs ih =>
    rw [List.length_cons] at h
    intro x hx
    rcases List.mem_append.1 hx with hx | hx
    · exact recordItems_bodyOk (by omega) r x hx
    · exact ih (by omega) x hx

theorem refreshItems_bodyOk {par : Config} {npins n : Nat} {rs : List PinRecord} (h : n + rs.length ≤ npins) :
    ∀ x ∈ refreshItems par n rs, x.1.BodyOk npins := by
  induction rs generalizing n with
  | nil => exact fun _ hx => nomatch hx
  | cons r rs ih =>
    rw [List.length_cons] at h
    have hdir := directionOps_length par r r.direction
    intro x hx
    rcases List.mem_append.1 hx with hx | hx
    · exact place_bodyOk rfl (by omega) (by omega) x hx
    · exact ih (by omega) x hx

theorem Body.bodyOk_of {b : Body} {npins : Nat} (hf : b.finPos.BodyOk npins) (hi : ∀ x ∈ b.items, x.1.BodyOk npins)
    {q : Pos} (h : b.Has q) : q.BodyOk npins := by
  rcases h with rfl | ⟨op, hm⟩
  · exact hf
  · exact hi _ hm

theorem accessBody_bodyOk {npins : Nat} {ops : List MicroOp} {res : Result} (h : ops.length ≤ 7) {q : Pos}
    (hq : (accessBody ops res).Has q) : q.BodyOk npins :=
  Body.bodyOk_of ⟨rfl, Nat.zero_le npins, h⟩ (place_bodyOk rfl (Nat.zero_le npins) (by omega)) hq

/-- A well-formed table has `NPINS` records (R46). -/
theorem tableAt_ok {par : Config} {nports : Nat} {h : Word} {rs : List PinRecord} (ht : tableAt par nports h = .ok rs) :
    rs.length = par.npins := by
  unfold tableAt at ht
  split at ht
  · cases ht
  · split at ht
    · cases ht
    · split at ht
      · next hl => cases ht; exact hl.1
      · cases ht

/-- What the body of each command is, by what its operand or `CFG` names. -/
inductive IsBody (par : Config) (nports : Nat) (cfg : Word) : Instr → Body → Prop where
  | init (h : Word) (rs : List PinRecord) (ht : tableAt par nports h = .ok rs) :
      IsBody par nports cfg (.init h) (initBody par rs)
  | setDir (d : Dir) (pin : BitVec 16) (arg : Word) (r : PinRecord)
      (hr : recordAt par nports cfg pin.toNat = .ok r) :
      IsBody par nports cfg (.setDir d pin arg) (setDirBody par d r)
  | setMode (code : Byte) (pin : BitVec 16) (arg : Word) (m : Mode) (r : PinRecord)
      (hr : recordAt par nports cfg pin.toNat = .ok r) (hm : Mode.ofCode code = some m) :
      IsBody par nports cfg (.setMode code pin arg) (setModeBody par m r)
  | refreshDir (arg : Word) (rs : List PinRecord) (ht : tableAt par nports cfg = .ok rs) :
      IsBody par nports cfg (.refreshDir arg) (refreshBody par rs)
  | readCh (pin : BitVec 16) (arg : Word) (r : PinRecord)
      (hr : recordAt par nports cfg pin.toNat = .ok r) :
      IsBody par nports cfg (.readCh pin arg) (accessBody [.load r.aliasWord] .level)
  | writeCh (l : Level) (pin : BitVec 16) (arg : Word) (r : PinRecord)
      (hr : recordAt par nports cfg pin.toNat = .ok r) :
      IsBody par nports cfg (.writeCh l pin arg)
        (accessBody [.store r.aliasWord (.const (if l.bit then 1 else 0))] .zero)
  | readPort (port : BitVec 16) (arg : Word) :
      IsBody par nports cfg (.readPort port arg) (accessBody [.load (.reg port.toNat .data)] .word)
  | writePort (port : BitVec 16) (value : Word) :
      IsBody par nports cfg (.writePort port value)
        (accessBody [.store (.reg port.toNat .data) (.const value)] .zero)
  | readGroup (h : Word) (d : Descriptor) (hd : groupAt par nports h = .ok d) :
      IsBody par nports cfg (.readGroup h) (accessBody [.load (.reg d.p .data)] (.group d.m d.o))
  | writeGroup (value : BitVec 16) (h : Word) (d : Descriptor) (hd : groupAt par nports h = .ok d) :
      IsBody par nports cfg (.writeGroup value h)
        (accessBody [.load (.reg d.p .data), .store (.reg d.p .data) (.putGroup d.m (value.setWidth 32) d.o)] .zero)
  | flipCh (pin : BitVec 16) (arg : Word) (r : PinRecord)
      (hr : recordAt par nports cfg pin.toNat = .ok r) :
      IsBody par nports cfg (.flipCh pin arg)
        (accessBody [.load r.aliasWord, .store r.aliasWord .flip, .load r.aliasWord] .level)

theorem isBody_of_ok {i : Instr} {par : Config} {nports : Nat} {cfg : Word} {b : Body}
    (h : (commandOf i).body par nports cfg = .ok b) : IsBody par nports cfg i b := by
  cases i with
  | init w =>
    simp only [commandOf, initCommand] at h
    split at h
    · cases h
    · next ht => cases h; exact .init w _ ht
  | setMode code pin arg =>
    simp only [commandOf, setModeCommand] at h
    split at h
    · cases h
    · next hr =>
      split at h
      · next hm => cases h; exact .setMode code pin arg _ _ hr hm
      · cases h
  | refreshDir arg =>
    simp only [commandOf, refreshDirCommand] at h
    split at h
    · cases h
    · next ht => cases h; exact .refreshDir arg _ ht
  | readPort port arg => cases h; exact .readPort port arg
  | writePort port value => cases h; exact .writePort port value
  | setDir d pin arg =>
    simp only [commandOf, setDirCommand] at h
    split at h
    · cases h
    · next hr => cases h; exact .setDir d pin arg _ hr
  | readCh pin arg =>
    simp only [commandOf, readChCommand] at h
    split at h
    · cases h
    · next hr => cases h; exact .readCh pin arg _ hr
  | writeCh l pin arg =>
    simp only [commandOf, writeChCommand] at h
    split at h
    · cases h
    · next hr => cases h; exact .writeCh l pin arg _ hr
  | readGroup w =>
    simp only [commandOf, readGroupCommand] at h
    split at h
    · cases h
    · next hr => cases h; exact .readGroup w _ hr
  | writeGroup value w =>
    simp only [commandOf, writeGroupCommand] at h
    split at h
    · cases h
    · next hr => cases h; exact .writeGroup value w _ hr
  | flipCh pin arg =>
    simp only [commandOf, flipChCommand] at h
    split at h
    · cases h
    · next hr => cases h; exact .flipCh pin arg _ hr

/-- Every position of a command's body is in a body phase and bounded (R25). -/
theorem IsBody.bodyOk {i : Instr} {par : Config} {nports : Nat} {cfg : Word} {b : Body}
    (h : IsBody par nports cfg i b) {q : Pos} (hq : b.Has q) : q.BodyOk par.npins := by
  cases h with
  | init w rs ht =>
    have hlen := tableAt_ok ht
    exact Body.bodyOk_of (finAt_bodyOk (by omega)) (initItems_bodyOk (by omega)) hq
  | refreshDir arg rs ht =>
    have hlen := tableAt_ok ht
    exact Body.bodyOk_of (finAt_bodyOk (by omega)) (refreshItems_bodyOk (by omega)) hq
  | setDir d pin arg r hr =>
    have hlen := directionOps_length par r d
    exact Body.bodyOk_of (finAt_bodyOk (Nat.zero_le _)) (place_bodyOk rfl (Nat.zero_le _) (by omega)) hq
  | setMode code pin arg m r hr hm =>
    have hlen := functionOps_length par r.p r.bit m
    refine Body.bodyOk_of (finAt_bodyOk (Nat.zero_le _)) (place_bodyOk rfl (Nat.zero_le _) ?_) hq
    split
    · exact Nat.zero_le 8
    · omega
  | _ => exact accessBody_bodyOk (by simp) hq

/-- The body of `INIT` looks at its operand, not at `CFG`. -/
theorem initBody_cfg {i : Instr} (hi : (commandOf i).isInit = true) (par : Config) (nports : Nat) (g g' : Word) :
    (commandOf i).body par nports g = (commandOf i).body par nports g' := by
  cases i with
  | init w => rfl
  | _ => cases hi

/-- An `INIT` with a body names a well-formed table. -/
theorem IsBody.tableAt_isOk {i : Instr} {par : Config} {nports : Nat} {cfg : Word} {b : Body}
    (h : IsBody par nports cfg i b) (hi : (commandOf i).isInit = true) :
    (tableAt par nports (argOf i)).isOk = true := by
  cases h with
  | init w rs ht => exact congrArg Except.isOk ht
  | _ => cases hi

end Sys2Proof.Machine

/-! ### The invariant (spec/10_state.md R21, R22, R25; spec/40_sequencer_common.md R131, R149) -/

namespace Sys2Proof.Machine

/-- The invariant, context by context. -/
theorem inv_iff {s : State} :
    Inv s ↔ (∀ c, onProgram s (s.ctx c) ∧ posBounded s.par (s.ctx c)) ∧
      (∀ c d, d ≠ c → (s.ctx c).holdsInit = true → (s.ctx d).quiet = true) ∧
      (s.mstate = .initialized → (tableAt s.par s.nports s.cfg).isOk = true) := by
  have hblank : onProgram s Ctx.blank ∧ posBounded s.par Ctx.blank := ⟨trivial, Nat.zero_le _, Nat.zero_le _⟩
  have hexcl : InitExclusive s ↔ ∀ c d, d ≠ c → (s.ctx c).holdsInit = true → (s.ctx d).quiet = true := by
    simp only [InitExclusive, List.all_eq_true]
    constructor
    · intro h c d hdc hi
      have hc : c < s.nctx := State.lt_nctx_of_ph fun h0 => by simp [Ctx.holdsInit, h0] at hi
      exact (State.forall_others (P := fun x => x.quiet = true) rfl).1 (h c hc hi) d hdc
    · intro h c _ hi
      exact (State.forall_others (P := fun x => x.quiet = true) rfl).2 fun d hd => h c d hd hi
  rw [Inv, State.forall_ctxs (P := fun x => onProgram s x ∧ posBounded s.par x) hblank, hexcl]

/-- Whether a context is on its program depends on the parameters, `NPORTS` and `CFG` only. -/
theorem onProgram_congr {s t : State} {x : Ctx} (hp : t.par = s.par) (hn : t.nports = s.nports) (hg : t.cfg = s.cfg) :
    onProgram t x ↔ onProgram s x := by
  simp only [onProgram, Command.bodyIn, hp, hn, hg]

/-- A context that holds no command that could run is on its program in every state. -/
theorem onProgram_of_quiet {s : State} {x : Ctx} (h : x.quiet = true) : onProgram s x := by
  simp only [Ctx.quiet, Bool.or_eq_true, Bool.and_eq_true, beq_iff_eq] at h
  rcases h with h | ⟨h, _⟩ <;> simp only [onProgram, h]

theorem onProgram_of_finish {s : State} {x : Ctx} (h : x.pos.ph = .finish) : onProgram s x := by
  simp only [onProgram, h]

theorem onProgram_guard {s : State} {x : Ctx} (h : x.pos.ph = .guard) :
    onProgram s x ↔ x.pos = ⟨0, .guard, 0⟩ ∧ x.failf = false ∧ Legal s.par x.cmd x.arg = true := by
  simp only [onProgram, h]

/-- A context inside a body: at the degraded FIN with `FAILF`, else at an item of the body or its FIN. -/
theorem onProgram_inBody {s : State} {x : Ctx} (h : x.pos.ph.inBody = true) :
    onProgram s x ↔ ∃ i, decode x.cmd x.arg = .ok i ∧ i.wellFormed s.par = true ∧
      if x.failf then x.pos = finAt 0
      else ∃ b, (commandOf i).bodyIn s = .ok b ∧ b.Has x.pos ∧ ((commandOf i).isInit = true → s.cfg = x.arg) := by
  unfold onProgram
  split <;> simp_all [Phase.inBody, Body.Has]

theorem legal_iff {par : Config} {cmd arg : Word} :
    Legal par cmd arg = true ↔ ∃ i, decode cmd arg = .ok i ∧ i.wellFormed par = true := by
  unfold Legal
  split <;> simp_all

theorem Ctx.inBody_of_running {x : Ctx} (h : x.running = true) (hg : x.pos.ph ≠ .guard) : x.pos.ph.inBody = true := by
  obtain ⟨hidle, hfin⟩ := Ctx.running_iff.1 h
  revert hidle hfin hg
  cases x.pos.ph <;> simp [Phase.inBody]

theorem Ctx.running_of_inBody {x : Ctx} (h : x.pos.ph.inBody = true) : x.running = true := by
  rw [Ctx.running_iff]
  constructor <;> intro h0 <;> rw [h0] at h <;> cases h

theorem Ctx.running_of_guard {x : Ctx} (h : x.pos.ph = .guard) : x.running = true := by
  rw [Ctx.running_iff, h]
  exact ⟨nofun, nofun⟩

theorem Ctx.not_quiet_of_running {x : Ctx} (h : x.running = true) : x.quiet = false := by
  obtain ⟨hidle, hfin⟩ := Ctx.running_iff.1 h
  simp [Ctx.quiet, hidle, hfin]

theorem Ctx.holdsInit_iff {x : Ctx} : x.holdsInit = true ↔ x.pos.ph ≠ .idle ∧ x.cmd = initWord := by
  simp [Ctx.holdsInit]

/-! #### Updates that keep the invariant -/

/-- An update of one context: the new value is on its program, and either it stops holding a command, or it goes on
with the one it holds. -/
theorem Inv.of_ctx {s t : State} {c : Nat} (h : Inv s) (hp : t.par = s.par) (hn : t.nports = s.nports)
    (hg : t.cfg = s.cfg) (hm : t.mstate = s.mstate) (hother : ∀ d, d ≠ c → t.ctx d = s.ctx d)
    (hon : onProgram s (t.ctx c)) (hb : posBounded s.par (t.ctx c))
    (hinit : (t.ctx c).holdsInit = true → ∀ d, d ≠ c → (s.ctx d).quiet = true)
    (hquiet : ∀ d, d ≠ c → (s.ctx d).holdsInit = true → (t.ctx c).quiet = true) : Inv t := by
  obtain ⟨hctx, hexcl, htab⟩ := inv_iff.1 h
  refine inv_iff.2 ⟨fun d => ?_, fun d e hed hi => ?_, by rwa [hm, hp, hn, hg]⟩
  · rw [onProgram_congr hp hn hg, hp]
    by_cases hd : d = c
    · subst hd; exact ⟨hon, hb⟩
    · rw [hother d hd]; exact hctx d
  · by_cases hd : d = c
    · subst hd; rw [hother e hed]; exact hinit hi e hed
    · rw [hother d hd] at hi
      by_cases he : e = c
      · subst he; exact hquiet d hd hi
      · rw [hother e he]; exact hexcl d e hed hi

/-- Context `c`, which runs, goes on with the command it holds. -/
theorem Inv.of_running {s t : State} {c : Nat} (h : Inv s) (hr : (s.ctx c).running = true) (hp : t.par = s.par)
    (hn : t.nports = s.nports) (hg : t.cfg = s.cfg) (hm : t.mstate = s.mstate)
    (hother : ∀ d, d ≠ c → t.ctx d = s.ctx d) (hcmd : (t.ctx c).cmd = (s.ctx c).cmd)
    (hon : onProgram s (t.ctx c)) (hb : posBounded s.par (t.ctx c)) : Inv t := by
  obtain ⟨_, hexcl, _⟩ := inv_iff.1 h
  refine h.of_ctx hp hn hg hm hother hon hb (fun hi d hd => ?_) (fun d hd hi => ?_)
  · refine hexcl c d hd (Ctx.holdsInit_iff.2 ⟨(Ctx.running_iff.1 hr).1, ?_⟩)
    rw [← hcmd]
    exact (Ctx.holdsInit_iff.1 hi).2
  · have hq := hexcl d c (Ne.symm hd) hi
    rw [Ctx.not_quiet_of_running hr] at hq
    cases hq

theorem Inv.setCtx_running {s : State} {c : Nat} {x : Ctx} (h : Inv s) (hr : (s.ctx c).running = true)
    (hcmd : x.cmd = (s.ctx c).cmd) (hon : onProgram s x) (hb : posBounded s.par x) : Inv (s.setCtx c x) := by
  have hc := State.lt_nctx_of_ph (Ctx.running_iff.1 hr).1
  have hx := State.ctx_setCtx_same s c x hc
  exact h.of_running hr rfl rfl rfl rfl (fun d hd => s.ctx_setCtx_other c d x (Ne.symm hd)) (by rw [hx, hcmd])
    (by rwa [hx]) (by rwa [hx])

theorem Inv.markFault {s : State} (h : Inv s) (f : Fault) : Inv (s.markFault f) := h

theorem Inv.markRefused {s : State} (h : Inv s) (r : Refusal) : Inv (s.markRefused r) := h

theorem Inv.report {s : State} (h : Inv s) (ws : List Word) : Inv (s.report ws) := h

/-- An `INIT` at GUARD may latch a handle of a well-formed table: no other context looks at `CFG`. -/
theorem Inv.latchCfg {s : State} {c : Nat} {g : Word} (h : Inv s) (hph : (s.ctx c).pos.ph = .guard)
    (hcmd : (s.ctx c).cmd = initWord) (hg : (tableAt s.par s.nports g).isOk = true) : Inv { s with cfg := g } := by
  obtain ⟨hctx, hexcl, _⟩ := inv_iff.1 h
  have hinit : (s.ctx c).holdsInit = true := Ctx.holdsInit_iff.2 ⟨by rw [hph]; nofun, hcmd⟩
  refine inv_iff.2 ⟨fun d => ⟨?_, (hctx d).2⟩, hexcl, fun _ => hg⟩
  by_cases hd : d = c
  · subst hd
    exact (onProgram_guard hph).2 ((onProgram_guard (s := s) hph).1 (hctx d).1)
  · exact onProgram_of_quiet (hexcl c d hd hinit)

theorem Inv.initialized {s : State} (h : Inv s) (hg : (tableAt s.par s.nports s.cfg).isOk = true) :
    Inv { s with mstate := .initialized } := by
  obtain ⟨hctx, hexcl, _⟩ := inv_iff.1 h
  exact inv_iff.2 ⟨hctx, hexcl, fun _ => hg⟩

/-! #### Issue and Complete -/

theorem Inv.complete {s : State} (h : Inv s) (c : Nat) : Inv (complete c s) := by
  obtain ⟨hctx, _, _⟩ := inv_iff.1 h
  rcases Nat.lt_or_ge c s.nctx with hc | hc
  · have hx : (Machine.complete c s).ctx c = { s.ctx c with pos := { (s.ctx c).pos with ph := .idle } } :=
      State.ctx_setCtx_same s c _ hc
    refine h.of_ctx rfl rfl rfl rfl (fun d hd => s.ctx_setCtx_other c d _ (Ne.symm hd)) ?_ ?_ ?_ ?_ <;> rw [hx]
    · exact onProgram_of_quiet rfl
    · exact (hctx c).2
    · exact fun hi => nomatch hi
    · exact fun _ _ _ => rfl
  · rw [Machine.complete, State.setCtx_of_ge hc]
    exact h

theorem Inv.issueIllegal {s : State} {c : Nat} {cmd : Word} (h : Inv s) (hc : c < s.nctx) (hne : cmd ≠ initWord)
    (arg : Word) : Inv (issueIllegal c cmd arg s) := by
  have hx := State.ctx_setCtx_same s c { (s.ctx c).latch cmd arg .finish with ill := true, res := 0 } hc
  refine h.of_ctx rfl rfl rfl rfl (fun d hd => s.ctx_setCtx_other c d _ (Ne.symm hd)) ?_ ?_ ?_ ?_ <;>
    rw [Machine.issueIllegal, hx]
  · exact onProgram_of_finish rfl
  · exact ⟨Nat.zero_le _, Nat.zero_le _⟩
  · exact fun hi => absurd (Ctx.holdsInit_iff.1 hi).2 hne
  · exact fun _ _ _ => rfl

/-- No clash: no other context holds an `INIT`, and for an `INIT` every other is idle (R149). -/
theorem initClash_eq_false {isInit : Bool} {c : Nat} {s : State} (h : initClash isInit c s = false) :
    (∀ d, d ≠ c → (s.ctx d).holdsInit = false) ∧
    (isInit = true → ∀ d, d ≠ c → (s.ctx d).pos.ph = .idle) := by
  simp only [initClash, Bool.or_eq_false_iff, List.any_eq_false, Bool.not_eq_true] at h
  refine ⟨(State.forall_others (P := fun x => x.holdsInit = false) rfl).1 h.2, fun hi => ?_⟩
  refine (State.forall_others (P := fun x => x.pos.ph = .idle) rfl).1 fun x hx => ?_
  have := h.1
  simp only [hi, Bool.true_and, List.any_eq_false, bne_iff_ne, ne_eq, not_not] at this
  exact this x hx

/-- The state right after a lawful Issue: context `c` holds the pair at GUARD. -/
theorem Inv.latch {s : State} {c : Nat} {i : Instr} (h : Inv s) (hc : c < s.nctx) (hwf : i.wellFormed s.par = true)
    (hd : decode (cmdOf i) (argOf i) = .ok i) (hclash : initClash (commandOf i).isInit c s = false) :
    Inv (s.setCtx c ((s.ctx c).latch (cmdOf i) (argOf i) .guard)) := by
  have hx := State.ctx_setCtx_same s c ((s.ctx c).latch (cmdOf i) (argOf i) .guard) hc
  obtain ⟨hnone, hidle⟩ := initClash_eq_false hclash
  refine h.of_ctx rfl rfl rfl rfl (fun d hd => s.ctx_setCtx_other c d _ (Ne.symm hd)) ?_ ?_ ?_ ?_ <;> rw [hx]
  · exact (onProgram_guard rfl).2 ⟨rfl, rfl, legal_iff.2 ⟨i, hd, hwf⟩⟩
  · exact ⟨Nat.zero_le _, Nat.zero_le _⟩
  · intro hi d hdc
    have hph := hidle ((commandOf_isInit i).2 (Ctx.holdsInit_iff.1 hi).2) d hdc
    simp [Ctx.quiet, hph]
  · intro d hdc hi
    rw [hnone d hdc] at hi
    cases hi

end Sys2Proof.Machine

namespace Sys2Proof.Machine

/-! #### Inside a body -/

/-- Context `c` holds `i`, launched with body `b`, at a position of it. -/
structure InBody (i : Instr) (b : Body) (c : Nat) (s : State) : Prop where
  failf : (s.ctx c).failf = false
  decodes : decode (s.ctx c).cmd (s.ctx c).arg = .ok i
  present : i.wellFormed s.par = true
  body : (commandOf i).bodyIn s = .ok b
  pos : b.Has (s.ctx c).pos
  cfg : (commandOf i).isInit = true → s.cfg = (s.ctx c).arg

theorem InBody.isBody {i : Instr} {b : Body} {c : Nat} {s : State} (h : InBody i b c s) :
    IsBody s.par s.nports s.cfg i b := isBody_of_ok h.body

theorem InBody.running {i : Instr} {b : Body} {c : Nat} {s : State} (h : InBody i b c s) :
    (s.ctx c).running = true := Ctx.running_of_inBody (h.isBody.bodyOk h.pos).ph

/-- A micro-op and the advance to another position of the body. -/
theorem InBody.move {i : Instr} {b : Body} {c : Nat} {s t : State} {q : Pos} (h : InBody i b c s)
    (hf : OpFrame c s t) (hq : b.Has q) : InBody i b c (t.setPos c q) := by
  have hc : c < t.nctx := hf.nctx ▸ State.lt_nctx_of_ph (Ctx.running_iff.1 h.running).1
  have hx : (t.setPos c q).ctx c = { s.ctx c with tmp := (t.ctx c).tmp, pos := q } := by
    rw [State.setPos, State.ctx_setCtx_same _ _ _ hc, hf.own]
  constructor
  · rw [hx]; exact h.failf
  · rw [hx]; exact h.decodes
  · rw [State.setPos_par, hf.par]; exact h.present
  · simp only [Command.bodyIn, State.setPos_par, State.setPos_nports, State.setPos_cfg, hf.par, hf.nports, hf.cfg]
    exact h.body
  · rw [hx]; exact hq
  · intro hi
    rw [hx, State.setPos_cfg, hf.cfg]
    exact h.cfg hi

theorem InBody.onProgram {i : Instr} {b : Body} {c : Nat} {s : State} (h : InBody i b c s) :
    onProgram s (s.ctx c) := by
  rw [onProgram_inBody (h.isBody.bodyOk h.pos).ph]
  refine ⟨i, h.decodes, h.present, ?_⟩
  rw [h.failf]
  exact ⟨b, h.body, h.pos, h.cfg⟩

/-- A state that context `c`, which runs, reaches inside its body. -/
theorem Inv.of_inBody {i : Instr} {b : Body} {c : Nat} {s t : State} (h : Inv s) (hr : (s.ctx c).running = true)
    (hp : t.par = s.par) (hn : t.nports = s.nports) (hg : t.cfg = s.cfg) (hm : t.mstate = s.mstate)
    (hother : ∀ d, d ≠ c → t.ctx d = s.ctx d) (hcmd : (t.ctx c).cmd = (s.ctx c).cmd) (hb : InBody i b c t) : Inv t := by
  have hpos := hb.isBody.bodyOk hb.pos
  refine h.of_running hr hp hn hg hm hother hcmd ((onProgram_congr hp hn hg).1 hb.onProgram) ?_
  rw [← hp]
  exact ⟨hpos.record, hpos.sub⟩

theorem Inv.itemStep {i : Instr} {b : Body} {c : Nat} {s : State} {op : MicroOp} {q : Pos} (h : Inv s)
    (hb : InBody i b c s) (hq : b.Has q) :
    Inv (itemStep c op q s) ∧ ((itemStep c op q s).live = true → InBody i b c (itemStep c op q s)) := by
  cases hop : performOp c op s with
  | error f =>
    rw [itemStep_of_fault hop]
    exact ⟨h, fun hl => nomatch (State.markFault_not_live s f).symm.trans hl⟩
  | ok t =>
    rw [itemStep_of_ok hop]
    have hf := performOp_frame hop
    have hc : c < t.nctx := hf.nctx ▸ State.lt_nctx_of_ph (Ctx.running_iff.1 hb.running).1
    have hbt := hb.move hf hq
    refine ⟨h.of_inBody hb.running hf.par hf.nports hf.cfg hf.mstate (fun d hd => ?_) ?_ hbt, fun _ => hbt⟩
    · rw [State.setPos, State.ctx_setCtx_other _ _ _ _ (Ne.symm hd), hf.other d hd]
    · rw [State.setPos, State.ctx_setCtx_same _ _ _ hc, hf.own]

theorem headPos_has {b : Body} {items : List Item} (h : ∀ x ∈ items, x ∈ b.items) : b.Has (headPos b.finPos items) := by
  cases items with
  | nil => exact .inl rfl
  | cons x rest => exact .inr ⟨x.2, h x List.mem_cons_self⟩

theorem nextItem_has {b : Body} {items : List Item} {at_ q : Pos} {op : MicroOp} (h : ∀ x ∈ items, x ∈ b.items)
    (hn : nextItem b.finPos at_ items = some (op, q)) : b.Has q := by
  induction items with
  | nil => cases hn
  | cons x rest ih =>
    have hrest := fun y hy => h y (List.mem_cons_of_mem x hy)
    unfold nextItem at hn
    split at hn
    · cases hn
      exact headPos_has hrest
    · exact ih hrest hn

theorem Inv.runItems {i : Instr} {b : Body} {c : Nat} {s : State} (h : Inv s) (hb : InBody i b c s)
    (items : List Item) (hsub : ∀ x ∈ items, x ∈ b.items) :
    Inv (runItems c b.finPos items s) ∧
      ((runItems c b.finPos items s).live = true → InBody i b c (runItems c b.finPos items s)) := by
  induction items generalizing s with
  | nil => exact ⟨h, fun _ => hb⟩
  | cons x rest ih =>
    have hrest := fun y hy => hsub y (List.mem_cons_of_mem x hy)
    obtain ⟨hi, hbi⟩ := h.itemStep (op := x.2) hb (headPos_has hrest)
    simp only [Machine.runItems]
    refine State.andThen_intro (P := fun t => Inv t ∧ (t.live = true → InBody i b c t)) (fun hl => ?_) (fun hl => ?_)
    · exact ⟨hi, hbi⟩
    · exact ih hi (hbi hl) hrest

/-- FIN ends any command in flight. -/
theorem Inv.finish {s : State} {c : Nat} (h : Inv s) (hr : (s.ctx c).running = true) (res : Word) :
    Inv (s.setCtx c { s.ctx c with res := res, pos := { (s.ctx c).pos with ph := .finish } }) :=
  h.setCtx_running hr rfl (onProgram_of_finish rfl) ((inv_iff.1 h).1 c).2

theorem Inv.finStep {i : Instr} {b : Body} {c : Nat} {s : State} (h : Inv s) (hb : InBody i b c s) (res : Result) :
    Inv (finStep (commandOf i) c res s) := by
  unfold Machine.finStep
  dsimp only
  split
  · next hi =>
    have htab := hb.isBody.tableAt_isOk hi
    rw [(encode_of_decode hb.decodes).2, ← hb.cfg hi] at htab
    exact (h.initialized htab).finish (s := { s with mstate := .initialized }) hb.running _
  · exact h.finish hb.running _

/-! #### The GUARD step and the steps after it -/

/-- Context `c` holds `i` past its GUARD step: on the way to its degraded FIN, or inside its body. -/
def PastGuard (i : Instr) (c : Nat) (s : State) : Prop :=
  ((s.ctx c).failf = true ∧ (s.ctx c).running = true) ∨ ∃ b, InBody i b c s

/-- The advance from GUARD to the first position of the body. -/
theorem Inv.launch {i : Instr} {b : Body} {c : Nat} {s : State} (h : Inv s) (hph : (s.ctx c).pos.ph = .guard)
    (hd : decode (s.ctx c).cmd (s.ctx c).arg = .ok i) (hb : (commandOf i).bodyIn s = .ok b)
    (hcfg : (commandOf i).isInit = true → s.cfg = (s.ctx c).arg) :
    Inv (s.setPos c (headPos b.finPos b.items)) ∧ PastGuard i c (s.setPos c (headPos b.finPos b.items)) := by
  have hr := Ctx.running_of_guard hph
  have hc := State.lt_nctx_of_ph (Ctx.running_iff.1 hr).1
  have hx : (s.setPos c (headPos b.finPos b.items)).ctx c = { s.ctx c with pos := headPos b.finPos b.items } :=
    State.ctx_setCtx_same _ _ _ hc
  obtain ⟨_, hfailf, hlegal⟩ := (onProgram_guard hph).1 ((inv_iff.1 h).1 c).1
  obtain ⟨j, hj, hwf⟩ := legal_iff.1 hlegal
  cases hj.symm.trans hd
  have hib : InBody i b c (s.setPos c (headPos b.finPos b.items)) := by
    constructor
    · rw [hx]; exact hfailf
    · rw [hx]; exact hd
    · exact hwf
    · exact hb
    · rw [hx]; exact headPos_has fun _ hx => hx
    · rw [hx]; exact hcfg
  refine ⟨h.of_inBody hr rfl rfl rfl rfl (fun d hdc => ?_) (by rw [hx]) hib, .inr ⟨b, hib⟩⟩
  rw [State.setPos, State.ctx_setCtx_other _ _ _ _ (Ne.symm hdc)]

/-- What a step of context `c` leads to while its command is past GUARD: the invariant, and unless it is marked a
context still past GUARD. -/
def LeadsPastGuard (i : Instr) (c : Nat) (t : State) : Prop := Inv t ∧ (t.live = true → PastGuard i c t)

theorem LeadsPastGuard.of_marked {i : Instr} {c : Nat} {t : State} (h : Inv t) (hl : t.live = false) :
    LeadsPastGuard i c t :=
  ⟨h, fun hl' => nomatch hl.symm.trans hl'⟩

theorem Inv.enterBody {i : Instr} {c : Nat} {s : State} (h : Inv s) (hph : (s.ctx c).pos.ph = .guard)
    (hd : decode (s.ctx c).cmd (s.ctx c).arg = .ok i) : LeadsPastGuard i c (enterBody (commandOf i) c s) := by
  unfold Machine.enterBody
  split
  · exact .of_marked h (State.markRefused_not_live s _)
  · next b hb =>
    dsimp only
    split
    · next hi =>
      obtain ⟨hcmd, harg⟩ := encode_of_decode hd
      have htab := (isBody_of_ok hb).tableAt_isOk hi
      have hinv : Inv { s with cfg := (commandOf i).arg } :=
        h.latchCfg hph (hcmd ▸ (commandOf_isInit i).1 hi) (by rwa [commandOf_arg])
      have hbody : (commandOf i).bodyIn { s with cfg := (commandOf i).arg } = .ok b :=
        (initBody_cfg hi _ _ _ _).trans hb
      obtain ⟨hinv', hpast⟩ := hinv.launch hph hd hbody fun _ => (commandOf_arg i).trans harg
      exact ⟨hinv', fun _ => hpast⟩
    · next hi =>
      obtain ⟨hinv', hpast⟩ := h.launch hph hd hb fun hi' => absurd hi' hi
      exact ⟨hinv', fun _ => hpast⟩

theorem State.setFailf_setPos {s : State} {c : Nat} (hc : c < s.nctx) (q : Pos) :
    (s.setFailf c).setPos c q = s.setCtx c { s.ctx c with failf := true, pos := q } := by
  rw [State.setPos, State.setFailf, State.setCtx_setCtx, State.ctx_setCtx_same _ _ _ hc]

theorem Inv.failGuards {c : Nat} {s : State} (h : Inv s) (hph : (s.ctx c).pos.ph = .guard) (i : Instr)
    (failing : List Guard) :
    LeadsPastGuard i c (failGuards (commandOf i) c failing s) := by
  have hr := Ctx.running_of_guard hph
  have hc := State.lt_nctx_of_ph (Ctx.running_iff.1 hr).1
  obtain ⟨_, _, hlegal⟩ := (onProgram_guard hph).1 ((inv_iff.1 h).1 c).1
  rw [Machine.failGuards, State.setFailf_setPos (s := s.report _) hc]
  refine ⟨(h.report _).setCtx_running hr rfl ?_ ⟨Nat.zero_le _, Nat.zero_le _⟩, fun _ => .inl ?_⟩
  · obtain ⟨j, hj, hwf⟩ := legal_iff.1 hlegal
    exact (onProgram_inBody rfl).2 ⟨j, hj, hwf, rfl⟩
  · rw [State.ctx_setCtx_same (s.report _) _ _ hc]
    exact ⟨rfl, rfl⟩

theorem Inv.guardStep {i : Instr} {c : Nat} {s : State} (h : Inv s) (hph : (s.ctx c).pos.ph = .guard)
    (hd : decode (s.ctx c).cmd (s.ctx c).arg = .ok i) : LeadsPastGuard i c (guardStep (commandOf i) c s) := by
  unfold Machine.guardStep
  split
  · split
    · exact h.enterBody hph hd
    · exact h.failGuards hph i _
  · split
    · exact .of_marked h (State.markRefused_not_live s _)
    · exact h.enterBody hph hd

/-- Under the invariant a running context past GUARD is past GUARD with the command it holds. -/
theorem Inv.pastGuard {i : Instr} {c : Nat} {s : State} (h : Inv s) (hr : (s.ctx c).running = true)
    (hph : (s.ctx c).pos.ph ≠ .guard) (hd : decode (s.ctx c).cmd (s.ctx c).arg = .ok i) : PastGuard i c s := by
  obtain ⟨j, hj, hwf, hpos⟩ := (onProgram_inBody (Ctx.inBody_of_running hr hph)).1 ((inv_iff.1 h).1 c).1
  cases hj.symm.trans hd
  cases hf : (s.ctx c).failf with
  | true => exact .inl ⟨hf, hr⟩
  | false =>
    rw [hf] at hpos
    obtain ⟨b, hb, hhas, hcfg⟩ := hpos
    exact .inr ⟨b, hf, hd, hwf, hb, hhas, hcfg⟩

theorem Inv.bodyStep {i : Instr} {c : Nat} {s : State} (h : Inv s) (hp : PastGuard i c s) :
    Inv (bodyStep (commandOf i) c s) := by
  rcases hp with ⟨hf, hr⟩ | ⟨b, hb⟩
  · simp only [Machine.bodyStep, hf, if_true]
    split
    · exact h.finish hr 0
    · exact h
  · simp only [Machine.bodyStep, hb.failf, hb.body, Bool.false_eq_true, if_false]
    split
    · next hn => exact (h.itemStep hb (nextItem_has (fun _ hx => hx) hn)).1
    · split
      · exact h.finStep hb _
      · exact h

theorem Inv.ownStep {i : Instr} {c : Nat} {s : State} (h : Inv s) (hr : (s.ctx c).running = true)
    (hd : decode (s.ctx c).cmd (s.ctx c).arg = .ok i) : Inv (ownStep (commandOf i) c s) := by
  unfold Machine.ownStep
  split
  · next hph => exact (h.guardStep hph hd).1
  · next hph => exact h.bodyStep (h.pastGuard hr hph hd)

/-! #### The synchronous call -/

theorem Inv.runBody {i : Instr} {c : Nat} {s : State} (h : Inv s) (hp : PastGuard i c s) :
    Inv (runBody (commandOf i) c s) := by
  rcases hp with ⟨hf, hr⟩ | ⟨b, hb⟩
  · simp only [Machine.runBody, hf, if_true]
    exact h.finish hr 0
  · simp only [Machine.runBody, hb.failf, hb.body, Bool.false_eq_true, if_false]
    obtain ⟨hi, hbi⟩ := h.runItems hb b.items fun _ hx => hx
    exact State.andThen_intro (fun _ => hi) fun hl => hi.finStep (hbi hl) _

/-- Issue leads to the invariant; a command that stands at GUARD afterwards is the one issued. -/
theorem Inv.issue {i : Instr} {c : Nat} {s : State} (h : Inv s) (hi : s.canIssue c = true)
    (hd : decode (cmdOf i) (argOf i) = .ok i) :
    Inv (issue (commandOf i) c s) ∧ ((issue (commandOf i) c s).live = true →
      ((issue (commandOf i) c s).ctx c).pos.ph = .finish ∨
      ((issue (commandOf i) c s).ctx c).pos.ph = .guard ∧
        decode ((issue (commandOf i) c s).ctx c).cmd ((issue (commandOf i) c s).ctx c).arg = .ok i) := by
  obtain ⟨hc, _⟩ := State.canIssue_iff.1 hi
  unfold Machine.issue
  rw [commandOf_cmd, commandOf_arg, commandOf_present]
  split
  · next hwf =>
    split
    · exact ⟨h, fun hl => nomatch (State.markFault_not_live s _).symm.trans hl⟩
    · next hclash =>
      refine ⟨h.latch hc hwf hd (by simpa using hclash), fun _ => .inr ?_⟩
      rw [State.ctx_setCtx_same _ _ _ hc]
      exact ⟨rfl, hd⟩
  · next hwf =>
    have hne : cmdOf i ≠ initWord := fun he => hwf (wellFormed_of_isInit ((commandOf_isInit i).2 he) _)
    refine ⟨h.issueIllegal hc hne _, fun _ => .inl ?_⟩
    rw [Machine.issueIllegal, State.ctx_setCtx_same _ _ _ hc]
    rfl

theorem Inv.call {i : Instr} {s t : State} (h : Inv s) (hd : decode (cmdOf i) (argOf i) = .ok i)
    (hcall : call (commandOf i) s = .next t) : Inv t := by
  obtain ⟨_, hi, rfl⟩ := call_next hcall
  obtain ⟨hissued, hat⟩ := h.issue hi hd
  refine State.andThen_intro (fun _ => hissued) fun hl => ?_
  unfold runIssued
  split
  · exact hissued.complete _
  · next hfin =>
    obtain ⟨hph, hdec⟩ := (hat hl).resolve_left hfin
    obtain ⟨hguard, hpast⟩ := hissued.guardStep hph hdec
    have hbody := State.andThen_intro (P := Inv) (fun _ => hguard) fun hl => hguard.runBody (hpast hl)
    exact State.andThen_intro (P := Inv) (fun _ => hbody) fun _ => hbody.complete _

/-! #### Steps -/

/-- ENV touches no context and nothing the invariant speaks of. -/
theorem Inv.of_surface {s t : State} (h : Inv s) (hf : ∀ c, OpFrame c s t) : Inv t := by
  have hctx : ∀ c, t.ctx c = s.ctx c := fun c => (hf (c + 1)).other c (Nat.ne_of_lt (Nat.lt_succ_self c))
  obtain ⟨hon, hexcl, htab⟩ := inv_iff.1 h
  refine inv_iff.2 ⟨fun c => ?_, fun c d => ?_, ?_⟩
  · rw [hctx, onProgram_congr (hf c).par (hf c).nports (hf c).cfg, (hf c).par]
    exact hon c
  · rw [hctx, hctx]
    exact hexcl c d
  · rw [(hf 0).mstate, (hf 0).par, (hf 0).nports, (hf 0).cfg]
    exact htab

theorem inv_resetWith (par : Config) (d : ResetDraw) : Inv (State.resetWith par d) := by
  have hidle : ∀ x ∈ (State.resetWith par d).ctxs, x.pos = ⟨0, .idle, 0⟩ := by
    intro x hx
    obtain ⟨y, _, rfl⟩ := List.mem_map.1 hx
    rfl
  have hpos := (State.forall_ctxs (P := fun x => x.pos = ⟨0, .idle, 0⟩) rfl).1 hidle
  refine inv_iff.2 ⟨fun c => ⟨onProgram_of_quiet ?_, ?_⟩, fun c d _ hi => ?_, nofun⟩
  · simp [Ctx.quiet, hpos c]
  · simp [posBounded, hpos c]
  · simp [Ctx.holdsInit, hpos c] at hi

theorem inv_step {s t : State} (hs : Inv s) (h : step s = .next t) : Inv t := by
  obtain ⟨agenda, cur, hc⟩ := step_cases h
  have hu : Inv (s.scheduled agenda cur) := hs
  have hne : ∀ {cmd arg e}, decode cmd arg = .error e → cmd ≠ initWord := by
    rintro cmd arg e hd rfl
    rw [decode_initWord] at hd
    cases hd
  cases hc with
  | call i hd h => exact hu.call hd h
  | callIllegal cmd arg e hd hi h =>
    exact h ▸ (hu.issueIllegal (State.canIssue_iff.1 hi).1 (hne hd) arg).complete _
  | issueIllegal c cmd arg e hd hi h => exact h ▸ hu.issueIllegal (State.canIssue_iff.1 hi).1 (hne hd) arg
  | issue c i hd hi h => exact h ▸ (hu.issue hi hd).1
  | advance c i hr hd h => exact h ▸ hu.ownStep hr hd
  | complete c h => exact h ▸ hu.complete c
  | envFault f h => exact h ▸ hu
  | envRead l v u hl h =>
    have hu' : Inv u := hu.of_surface (opFrame_load hl)
    exact h ▸ hu'
  | envWrite l v h => exact hu.of_surface (opFrame_store h)
  | wait h => exact h ▸ hu

end Sys2Proof.Machine

namespace Sys2Proof

open Machine

/-- Settles O57: at reset every context is idle, and each stage of a command leads from position to position of one
micro-program, with `CFG` written only where no other context runs. -/
theorem everyStepKeepsTheInvariant : Obligations.EveryStepKeepsTheInvariant :=
  ⟨inv_resetWith, fun _ _ hs h => inv_step hs h⟩

end Sys2Proof

/-! ### Descriptors and reset (spec/10_state.md R45, R47) -/

namespace Sys2Proof.Machine

/-- The width of a mask is one more than the position of its highest set bit (R47). -/
theorem maskWidth_highest {m : Byte} (h : m ≠ 0) :
    ∃ j, maskWidth m = j + 1 ∧ m.getLsbD j = true ∧ ∀ i, j < i → m.getLsbD i = false := by
  have hne : m.toNat ≠ 0 := fun h0 => h (BitVec.eq_of_toNat_eq h0)
  refine ⟨m.toNat.log2, if_neg h, Nat.testBit_log2 hne, fun i hi => ?_⟩
  exact Nat.testBit_lt_two_pow ((Nat.log2_lt hne).1 hi)

theorem Descriptor.wellFormed_iff {d : Descriptor} {n : Nat} :
    d.wellFormed n = true ↔ d.p < n ∧ d.o ≤ 7 ∧ d.o + maskWidth d.mask ≤ 8 := by
  simp [Descriptor.wellFormed, and_assoc]

theorem portsReset_getElem? (par : Config) (q : Nat) (ds : List PortDraw) (p : Nat) :
    (portsReset par q ds)[p]? = ds[p]?.map (portReset par (q + p)) := by
  induction ds generalizing q p with
  | nil => rfl
  | cons d ds ih =>
    cases p with
    | zero => rfl
    | succ p => rw [portsReset, List.getElem?_cons_succ, List.getElem?_cons_succ, ih, Nat.add_right_comm, Nat.add_assoc]

theorem portsReset_length (par : Config) (q : Nat) (ds : List PortDraw) : (portsReset par q ds).length = ds.length := by
  induction ds generalizing q with
  | nil => rfl
  | cons d ds ih => rw [portsReset, List.length_cons, List.length_cons, ih]

@[simp] theorem State.resetWith_nports (par : Config) (d : ResetDraw) :
    (State.resetWith par d).nports = d.ports.length := portsReset_length par 0 d.ports

@[simp] theorem State.resetWith_nctx (par : Config) (d : ResetDraw) : (State.resetWith par d).nctx = d.ctxs.length :=
  List.length_map ..

theorem State.resetWith_port {par : Config} {d : ResetDraw} {p : Nat} {x : PortDraw} (h : d.ports[p]? = some x) :
    (State.resetWith par d).port p = portReset par p x := by
  have hp := portsReset_getElem? par 0 d.ports p
  rw [h, Nat.zero_add] at hp
  rw [State.port, List.getD_eq_getElem?_getD]
  exact congrArg (fun o => Option.getD o PortRegs.blank) hp

theorem State.resetWith_ctx {par : Config} {d : ResetDraw} {c : Nat} {x : CtxDraw} (h : d.ctxs[c]? = some x) :
    (State.resetWith par d).ctx c = ctxReset x := by
  rw [State.ctx, List.getD_eq_getElem?_getD, State.resetWith, List.getElem?_map, h]
  rfl

/-- Every port after reset is locked, and committed at the pins that are not protected (R38, R45). -/
theorem State.resetWith_port_gates (par : Config) (d : ResetDraw) {p : Nat} (h : p < (State.resetWith par d).nports) :
    ((State.resetWith par d).port p).locked = true ∧
    ∀ b : Bit, ((State.resetWith par d).port p).commit.getLsbD b.val = !par.isProtected p b := by
  rw [State.resetWith_nports] at h
  rw [State.resetWith_port (List.getElem?_eq_getElem h)]
  exact ⟨rfl, commitReset_bit par p⟩

end Sys2Proof.Machine

namespace Sys2Proof

open Machine

/-- Settles O5: the logarithm to base 2 of a mask is the position of its highest set bit. -/
theorem descriptorWellFormedness : Obligations.DescriptorWellFormedness := by
  refine ⟨rfl, fun m => maskWidth_highest, fun d n => ?_⟩
  have hmask : d.mask.toNat ≤ 0xFF := Nat.le_of_lt_succ d.mask.isLt
  rw [Descriptor.wellFormed_iff]
  exact ⟨fun ⟨hp, ho, hw⟩ => ⟨hp, hmask, ho, hw⟩, fun ⟨hp, _, ho, hw⟩ => ⟨hp, ho, hw⟩⟩

/-- Settles O59: port `p` and context `c` after reset are built from entries `p` and `c` of the draw. -/
theorem resetState : Obligations.ResetState := by
  intro par d s
  refine ⟨rfl, rfl, rfl, rfl, rfl, State.resetWith_nports par d, State.resetWith_nctx par d, ?_, ?_,
    fun p hp => State.resetWith_port_gates par d hp, rfl, ?_⟩
  · intro x hx
    obtain ⟨y, _, rfl⟩ := List.mem_map.1 hx
    exact ⟨rfl, rfl, rfl, rfl, rfl⟩
  · intro c x hx
    rw [State.resetWith_ctx hx]
    exact ⟨rfl, rfl, rfl, rfl⟩
  · intro p x hx
    rw [State.resetWith_port hx]
    exact ⟨rfl, rfl, rfl, rfl, rfl, rfl, rfl, rfl⟩

end Sys2Proof

/-! ### What the micro-ops of a call do to the ports (spec/40_sequencer_common.md R140 to R144)

Assertions about the surface are predicates of one port at a time. A list of micro-ops, run with no other agent between,
leads from one assertion to another, and stops in a third where one of them faults. -/

namespace Sys2Proof.Machine

/-- Every port of a machine with parameters `par` and `n` ports has `Φ`. -/
def PortsHave (par : Config) (n : Nat) (Φ : Nat → PortRegs → Prop) (s : State) : Prop :=
  s.par = par ∧ s.nports = n ∧ ∀ q < n, Φ q (s.port q)

section
variable {par : Config} {n : Nat} {S Φ Ψ Χ : Nat → PortRegs → Prop}

theorem PortsHave.of_same {s t : State} (h : PortsHave par n Φ s) (hpar : t.par = s.par) (hports : t.ports = s.ports) :
    PortsHave par n Φ t := by
  obtain ⟨hp, hn, hΦ⟩ := h
  refine ⟨hpar.trans hp, ?_, fun q hq => ?_⟩
  · rw [State.nports, hports]; exact hn
  · rw [State.port, hports]; exact hΦ q hq

theorem PortsHave.mono {s : State} (h : PortsHave par n Φ s) (hi : ∀ q r, Φ q r → Ψ q r) : PortsHave par n Ψ s := by
  obtain ⟨hp, hn, hΦ⟩ := h
  exact ⟨hp, hn, fun q hq => hi q _ (hΦ q hq)⟩

/-- An update of port `p`: `Φ` at `p` became `Ψ`, and the other ports did not need to change. -/
theorem PortsHave.setPort {s : State} {p : Nat} {r : PortRegs} (h : PortsHave par n Φ s)
    (hown : Φ p (s.port p) → Ψ p r) (hother : ∀ q x, q ≠ p → Φ q x → Ψ q x) : PortsHave par n Ψ (s.setPort p r) := by
  obtain ⟨hp, hn, hΦ⟩ := h
  refine ⟨hp, (s.setPort_nports p r).trans hn, fun q hq => ?_⟩
  by_cases hqp : q = p
  · subst hqp
    rw [State.port_setPort_same _ _ _ (hn ▸ hq)]
    exact hown (hΦ q hq)
  · rw [State.port_setPort_other _ _ _ _ (Ne.symm hqp)]
    exact hother q _ hqp (hΦ q hq)

/-! #### Lists of micro-ops -/

/-- Where the micro-ops stop: in `E` where one faults, in `Q` after the last. -/
def OpsEnd (c : Nat) (E Q : State → Prop) : List MicroOp → State → Prop
  | [], s => Q s
  | op :: ops, s =>
    match performOp c op s with
    | .error _ => E s
    | .ok t => OpsEnd c E Q ops t

theorem opsEnd_cons {c : Nat} {E Q : State → Prop} {op : MicroOp} {ops : List MicroOp} {s : State}
    (herr : ∀ f, performOp c op s = .error f → E s) (hok : ∀ t, performOp c op s = .ok t → OpsEnd c E Q ops t) :
    OpsEnd c E Q (op :: ops) s := by
  rw [OpsEnd]
  split
  · next hf => exact herr _ hf
  · next ht => exact hok _ ht

theorem OpsEnd.append {c : Nat} {E Q R : State → Prop} {xs ys : List MicroOp} {s : State} (h : OpsEnd c E Q xs s)
    (hc : c < s.nctx) (hys : ∀ t, c < t.nctx → Q t → OpsEnd c E R ys t) : OpsEnd c E R (xs ++ ys) s := by
  induction xs generalizing s with
  | nil => exact hys s hc h
  | cons op xs ih =>
    rw [OpsEnd] at h
    refine opsEnd_cons (fun f hf => by rwa [hf] at h) fun t ht => ?_
    rw [ht] at h
    exact ih h ((performOp_frame ht).nctx ▸ hc)

/-- Micro-ops look at no part of a context but `TMP`, and at no `CFG`. -/
theorem OpsEnd.dress {c : Nat} {E Q : State → Prop} {ops : List MicroOp} {s : State} {x : Ctx} {g : Word}
    (h : OpsEnd c E Q ops s) (hc : c < s.nctx) (hE : ∀ t, E t → E (t.dress c x g))
    (hQ : ∀ t, Q t → Q (t.dress c x g)) : OpsEnd c E Q ops (s.dress c x g) := by
  induction ops generalizing s with
  | nil => exact hQ s h
  | cons op ops ih =>
    rw [OpsEnd] at h ⊢
    rw [performOp_dress s c x g op hc]
    cases hop : performOp c op s with
    | error f => rw [hop] at h; exact hE s h
    | ok t => rw [hop] at h; exact ih h ((performOp_frame hop).nctx ▸ hc)

/-- The micro-ops lead from `Φ` to `Ψ`, and stop in `S` where one faults, on any context. -/
def Leads (par : Config) (n : Nat) (S Φ Ψ : Nat → PortRegs → Prop) (ops : List MicroOp) : Prop :=
  ∀ c s, c < s.nctx → PortsHave par n Φ s → OpsEnd c (PortsHave par n S) (PortsHave par n Ψ) ops s

theorem Leads.nil (h : ∀ q r, Φ q r → Ψ q r) : Leads par n S Φ Ψ [] := fun _ _ _ hs => hs.mono h

theorem Leads.append {xs ys : List MicroOp} (hx : Leads par n S Φ Ψ xs) (hy : Leads par n S Ψ Χ ys) :
    Leads par n S Φ Χ (xs ++ ys) := fun c s hc hs => (hx c s hc hs).append hc (hy c)

theorem Leads.ite_nil {c : Prop} [Decidable c] {ops : List MicroOp} (h : c → Leads par n S Φ Ψ ops)
    (hn : ¬c → ∀ q r, Φ q r → Ψ q r) : Leads par n S Φ Ψ (if c then ops else []) := by
  split
  · next hc => exact h hc
  · next hc => exact .nil (hn hc)

/-! #### Single micro-ops and read-modify-writes -/

theorem PortsHave.load {s t : State} {l : Loc} {v : Word} (h : PortsHave par n Φ s) (hl : s.load l = .ok (v, t)) :
    PortsHave par n Φ t := by
  rcases State.load_ok hl with rfl | ⟨_, rfl⟩
  · exact h
  · exact h

theorem PortsHave.store_reg {s t : State} {p : Nat} {k : Kind} {v : Word} (h : PortsHave par n Φ s)
    (hs : s.store (.reg p k) v = .ok t) (hown : Φ p (s.port p) → Ψ p ((s.port p).write par k v))
    (hother : ∀ q r, q ≠ p → Φ q r → Ψ q r) : PortsHave par n Ψ t := by
  rcases State.store_ok hs with ⟨p, k, he, _, rfl⟩ | ⟨he, _⟩ | ⟨_, _, he, _⟩ <;> cases he
  rw [h.1]
  exact h.setPort hown hother

/-- A word whose stores touch no register of a port but `DATA`. -/
def Loc.dataOnly : Loc → Bool
  | .reg _ .data | .aliasBit _ _ | .clken => true
  | .reg _ _ => false

theorem PortsHave.store_dataOnly {s t : State} {l : Loc} {v : Word} (h : PortsHave par n Φ s)
    (hdata : ∀ q r d, Φ q r → Φ q { r with data := d }) (hl : l.dataOnly = true) (hs : s.store l v = .ok t) :
    PortsHave par n Φ t := by
  rcases State.store_ok hs with ⟨p, k, rfl, _, rfl⟩ | ⟨_, rfl⟩ | ⟨p, b, _, _, rfl⟩
  · cases k with
    | data => exact h.setPort (hdata p _ _) fun _ _ _ => id
    | _ => cases hl
  · exact h
  · exact h.setPort (hdata p _ _) fun _ _ _ => id

theorem PortsHave.performOp_dataOnly {c : Nat} {s t : State} {op : MicroOp} (h : PortsHave par n Φ s)
    (hdata : ∀ q r d, Φ q r → Φ q { r with data := d }) (hl : op.loc.dataOnly = true)
    (hop : performOp c op s = .ok t) : PortsHave par n Φ t := by
  cases op with
  | load l =>
    simp only [performOp] at hop
    split at hop
    · cases hop
    · next hv =>
      cases hop
      exact (h.load hv).of_same rfl rfl
  | store l d => exact h.store_dataOnly hdata hl hop
  | update l d =>
    simp only [performOp] at hop
    split at hop
    · cases hop
    · next hv => exact (h.load hv).store_dataOnly hdata hl hop

/-- Micro-ops on `DATA`, on its single-bit words and on `CLKEN` keep whatever does not speak of `DATA`. -/
theorem leads_dataOnly {ops : List MicroOp} (hdata : ∀ q r d, Φ q r → Φ q { r with data := d })
    (hS : ∀ q r, Φ q r → S q r) (hops : ∀ op ∈ ops, op.loc.dataOnly = true) : Leads par n S Φ Φ ops := by
  intro c s hc hs
  induction ops generalizing s with
  | nil => exact hs
  | cons op ops ih =>
    refine opsEnd_cons (fun _ _ => hs.mono hS) fun t ht => ?_
    exact ih (fun o ho => hops o (List.mem_cons_of_mem op ho)) t ((performOp_frame ht).nctx ▸ hc)
      (hs.performOp_dataOnly hdata (hops op List.mem_cons_self) ht)

theorem leads_store_const {p : Nat} {k : Kind} {v : Word} (hS : ∀ q r, Φ q r → S q r)
    (hown : ∀ r, Φ p r → Ψ p (r.write par k v)) (hother : ∀ q r, q ≠ p → Φ q r → Ψ q r) :
    Leads par n S Φ Ψ [.store (.reg p k) (.const v)] :=
  fun _ _ _ hs => opsEnd_cons (fun _ _ => hs.mono hS) fun _ ht => hs.store_reg ht (hown _) hother

theorem State.load_reg_ok {s t : State} {p : Nat} {k : Kind} {v : Word} (hk : k ≠ .lock)
    (h : s.load (.reg p k) = .ok (v, t)) : v = (s.port p).stored k ∧ t = s := by
  cases hd : s.denied p with
  | some f => simp [State.load, regRead, hd] at h
  | none =>
    rw [State.load, regRead_of_clocked s p k ((s.denied_eq_none p).1 hd) hk] at h
    cases h
    exact ⟨rfl, rfl⟩

theorem performOp_load_reg {c p : Nat} {k : Kind} {s t : State} (hk : k ≠ .lock)
    (h : performOp c (.load (.reg p k)) s = .ok t) : t = s.setTmp c ((s.port p).stored k) := by
  simp only [performOp] at h
  split at h
  · cases h
  · next hl =>
    obtain ⟨rfl, rfl⟩ := State.load_reg_ok hk hl
    cases h
    rfl

theorem performOp_update_reg {c p : Nat} {k : Kind} {d : Datum} {s t : State} (hk : k ≠ .lock)
    (h : performOp c (.update (.reg p k) d) s = .ok t) :
    s.store (.reg p k) (d.eval ((s.port p).stored k)) = .ok t := by
  simp only [performOp] at h
  split at h
  · cases h
  · next hl =>
    obtain ⟨rfl, rfl⟩ := State.load_reg_ok hk hl
    exact h

/-- A read-modify-write of one register in two micro-ops: nothing comes between, so the write is a function of the
register (R140 to R143). -/
theorem leads_load_store {p : Nat} {k : Kind} {d : Datum} (hk : k ≠ .lock) (hS : ∀ q r, Φ q r → S q r)
    (hown : ∀ r, Φ p r → Ψ p (r.write par k (d.eval (r.stored k)))) (hother : ∀ q r, q ≠ p → Φ q r → Ψ q r) :
    Leads par n S Φ Ψ [.load (.reg p k), .store (.reg p k) d] := by
  intro c s hc hs
  refine opsEnd_cons (fun _ _ => hs.mono hS) fun t ht => ?_
  obtain rfl := performOp_load_reg hk ht
  have hs' : PortsHave par n Φ (s.setTmp c ((s.port p).stored k)) := hs.of_same rfl rfl
  refine opsEnd_cons (fun _ _ => hs'.mono hS) fun u hu => hs'.store_reg hu (fun hΦ => ?_) hother
  rw [State.setTmp, State.ctx_setCtx_same _ _ _ hc]
  exact hown _ hΦ

/-- The same with `ATOMIC_BITOPS` or without (R74, R140 to R142). -/
theorem leads_bitUpdate {bits : Config} {p : Nat} {k : Kind} {d : Datum} (hk : k ≠ .lock)
    (hS : ∀ q r, Φ q r → S q r) (hown : ∀ r, Φ p r → Ψ p (r.write par k (d.eval (r.stored k))))
    (hother : ∀ q r, q ≠ p → Φ q r → Ψ q r) : Leads par n S Φ Ψ (bitUpdate bits (.reg p k) d) := by
  unfold bitUpdate
  split
  · exact fun _ _ _ hs => opsEnd_cons (fun _ _ => hs.mono hS) fun _ ht =>
      hs.store_reg (performOp_update_reg hk ht) (hown _) hother
  · exact leads_load_store hk hS hown hother

/-! #### Calls -/

/-- The items of a body end where its micro-ops do. -/
theorem runItems_portsHave {c : Nat} {fin : Pos} {items : List Item} {s : State} (hlive : s.live = true)
    (hc : c < s.nctx) (h : OpsEnd c (PortsHave par n Φ) (PortsHave par n Φ) (items.map Prod.snd) s) :
    PortsHave par n Φ (runItems c fin items s) := by
  induction items generalizing s with
  | nil => exact h
  | cons item rest ih =>
    rw [List.map_cons, OpsEnd] at h
    rw [runItems]
    cases hop : performOp c item.2 s with
    | error f =>
      rw [hop] at h
      rw [itemStep_of_fault hop, State.andThen_of_marked _ _ (State.markFault_not_live s f)]
      exact h
    | ok t =>
      rw [hop] at h
      have hct : c < t.nctx := (performOp_frame hop).nctx ▸ hc
      rw [itemStep_of_ok hop]
      have hmove : ∀ u, PortsHave par n Φ u → PortsHave par n Φ
          (u.dress c { t.ctx c with pos := headPos fin rest } t.cfg) := fun u hu => hu.of_same rfl rfl
      have hnext : OpsEnd c (PortsHave par n Φ) (PortsHave par n Φ) (rest.map Prod.snd)
          (t.setPos c (headPos fin rest)) := OpsEnd.dress h hct hmove hmove
      have hlt : (t.setPos c (headPos fin rest)).live = true := (performOp_frame hop).live.trans hlive
      rw [State.andThen_of_live _ _ hlt]
      exact ih hlt (by rwa [State.setPos_nctx]) hnext

/-- `t` has the parameters and the ports of `s`, as after every stage of a command but its micro-ops. -/
structure SamePorts (s t : State) : Prop where
  par : t.par = s.par
  ports : t.ports = s.ports

theorem SamePorts.portsHave {s t : State} (h : SamePorts s t) (hs : PortsHave par n Φ s) : PortsHave par n Φ t :=
  hs.of_same h.par h.ports

theorem samePorts_issue (k : Command) (c : Nat) (s : State) : SamePorts s (issue k c s) := by
  unfold issue
  split
  · split <;> exact ⟨rfl, rfl⟩
  · exact ⟨rfl, rfl⟩

theorem samePorts_enterBody (k : Command) (c : Nat) (s : State) : SamePorts s (enterBody k c s) := by
  unfold enterBody
  split
  · exact ⟨rfl, rfl⟩
  · dsimp only
    split <;> exact ⟨rfl, rfl⟩

theorem samePorts_guardStep (k : Command) (c : Nat) (s : State) : SamePorts s (guardStep k c s) := by
  unfold guardStep
  split
  · split
    · exact samePorts_enterBody k c s
    · exact ⟨rfl, rfl⟩
  · split
    · exact ⟨rfl, rfl⟩
    · exact samePorts_enterBody k c s

theorem samePorts_finStep (k : Command) (c : Nat) (res : Result) (s : State) : SamePorts s (finStep k c res s) := by
  unfold finStep
  dsimp only
  split <;> exact ⟨rfl, rfl⟩

theorem samePorts_complete (c : Nat) (s : State) : SamePorts s (complete c s) := ⟨rfl, rfl⟩

theorem runBody_portsHave {k : Command} {c : Nat} {s : State} (hlive : s.live = true) (hc : c < s.nctx)
    (hs : PortsHave par n Φ s)
    (hbody : ∀ g b, k.body par n g = .ok b → Leads par n Φ Φ Φ (b.items.map Prod.snd)) :
    PortsHave par n Φ (runBody k c s) := by
  unfold runBody
  split
  · exact hs.of_same rfl rfl
  · split
    · exact hs.of_same rfl rfl
    · next b hb =>
      rw [Command.bodyIn, hs.1, hs.2.1] at hb
      have hrun := runItems_portsHave (fin := b.finPos) hlive hc (hbody _ b hb c s hc hs)
      exact State.andThen_intro (P := PortsHave par n Φ) (fun _ => hrun)
        fun _ => (samePorts_finStep k c b.result _).portsHave hrun

/-- What the micro-ops of every body of a command keep, a call of it keeps, also when it stops at a mark. -/
theorem call_portsHave {k : Command} {s t : State} (h : call k s = .next t) (hs : PortsHave par n Φ s)
    (hbody : ∀ g b, k.body par n g = .ok b → Leads par n Φ Φ Φ (b.items.map Prod.snd)) : PortsHave par n Φ t := by
  obtain ⟨_, hi, rfl⟩ := call_next h
  have hissue := (samePorts_issue k s.cur s).portsHave hs
  have hc : s.cur < (guardStep k s.cur (issue k s.cur s)).nctx := by
    rw [(extends_guardStep k s.cur _).nctx, (extends_issue k s.cur s).nctx]
    exact (State.canIssue_iff.1 hi).1
  refine State.andThen_intro (fun _ => hissue) fun _ => ?_
  unfold runIssued
  split
  · exact (samePorts_complete _ _).portsHave hissue
  · have hguard := (samePorts_guardStep k s.cur _).portsHave hissue
    have hrun := State.andThen_intro (P := PortsHave par n Φ) (fun _ => hguard)
      fun hl => runBody_portsHave hl hc hguard hbody
    exact State.andThen_intro (P := PortsHave par n Φ) (fun _ => hrun)
      fun _ => (samePorts_complete _ _).portsHave hrun

end

end Sys2Proof.Machine

/-! ### Single-bit updates of a port (spec/40_sequencer_common.md R140 to R143) -/

namespace Sys2Proof

/-- The kinds that hold one configuration bit per pin. -/
def Kind.isConfigBit : Kind → Bool
  | .dir | .afen | .pur | .pdr | .den | .amsel => true
  | .data | .lock | .commit | .muxsel => false

end Sys2Proof

namespace Sys2Proof.Machine

/-- What `PutBit(p, K, b, v)` makes of the port (R142). -/
def PortRegs.putBit (par : Config) (k : Kind) (b : Bit) (v : Bool) (r : PortRegs) : PortRegs :=
  r.write par k (if v then setBitIn (r.stored k) b.val else clrBitIn (r.stored k) b.val)

/-- What `PutNibble(p, b, c)` makes of the port (R143). -/
def PortRegs.putNibble (par : Config) (b : Bit) (c : BitVec 4) (r : PortRegs) : PortRegs :=
  r.write par .muxsel (putNibbleIn r.muxsel b c)

theorem setWidth_bit (x : Byte) (b : Bit) : (x.setWidth 32 : Word).getLsbD b.val = x.getLsbD b.val := by
  have hb : b.val < 32 := by omega
  simp [-BitVec.getLsbD_eq_getElem, hb]

theorem PortRegs.write_stored_configBit (par : Config) (v : Word) (r : PortRegs) {k : Kind}
    (hk : k.isConfigBit = true) :
    (r.write par k v).stored k =
      (mergeByte (r.writable par k) ((r.stored k).setWidth 8) (v.setWidth 8)).setWidth 32 := by
  cases k <;> simp_all [Kind.isConfigBit, PortRegs.write, PortRegs.stored]

theorem PortRegs.putBit_stored_other (par : Config) {k k' : Kind} (b : Bit) (v : Bool) (r : PortRegs) (h : k' ≠ k) :
    (r.putBit par k b v).stored k' = r.stored k' := PortRegs.write_stored_other par k k' _ r h

/-- A gated update of one bit (R57, R142). -/
theorem PortRegs.putBit_stored_bit (par : Config) {k : Kind} (b : Bit) (v : Bool) (r : PortRegs)
    (hk : k.isConfigBit = true) (i : Bit) :
    ((r.putBit par k b v).stored k).getLsbD i.val =
      if (r.writable par k).getLsbD b.val = true ∧ i = b then v else (r.stored k).getLsbD i.val := by
  have hi : i.val < 32 := by omega
  rw [PortRegs.putBit, PortRegs.write_stored_configBit par _ r hk, setWidth_bit, mergeByte_bit]
  by_cases h : i = b
  · subst h
    cases v <;> simp [-BitVec.getLsbD_eq_getElem, setBitIn_bit, clrBitIn_bit, hi]
  · have hne : i.val ≠ b.val := fun he => h (Fin.ext he)
    cases v <;> simp [-BitVec.getLsbD_eq_getElem, setBitIn_bit, clrBitIn_bit, hi, h, hne]

theorem PortRegs.putBit_stored_bit_other_pin (par : Config) {k : Kind} {b i : Bit} (v : Bool) (r : PortRegs)
    (h : i ≠ b) {k' : Kind} (hk' : k'.isConfigBit = true) :
    ((r.putBit par k b v).stored k').getLsbD i.val = (r.stored k').getLsbD i.val := by
  by_cases hk : k' = k
  · subst hk
    rw [PortRegs.putBit_stored_bit par b v r hk', if_neg fun hc => h hc.2]
  · rw [PortRegs.putBit_stored_other par b v r hk]

theorem PortRegs.putBit_muxsel (par : Config) {k : Kind} (b : Bit) (v : Bool) (r : PortRegs) (h : k ≠ .muxsel) :
    (r.putBit par k b v).muxsel = r.muxsel := PortRegs.putBit_stored_other par b v r (Ne.symm h)

theorem PortRegs.write_commit_other (par : Config) {k : Kind} (v : Word) (r : PortRegs) (h : k ≠ .commit) :
    (r.write par k v).commit = r.commit := by
  cases k with
  | commit => exact absurd rfl h
  | _ => rfl

/-- A set of a commit bit of an unlocked port (R68, R140). -/
theorem PortRegs.putBit_commit_unlocked (par : Config) (b : Bit) (v : Bool) (r : PortRegs) (h : r.locked = false) :
    (r.putBit par .commit b v).commit = putByteBit r.commit b v :=
  congrArg PortRegs.commit (PortRegs.write_commit_bit par r b v h)

theorem PortRegs.putBit_commit_locked (par : Config) (b : Bit) (v : Bool) (r : PortRegs) (h : r.locked = true) :
    r.putBit par .commit b v = r := by
  simp [PortRegs.putBit, PortRegs.write, h]

/-- The single-bit updates commands make: no bit of `LOCK` or `MUXSEL`, and no commit bit is cleared (R167). -/
structure PinEdit (k : Kind) (v : Bool) : Prop where
  lock : k ≠ .lock
  muxsel : k ≠ .muxsel
  commit : k = .commit → v = true

/-- Commit bits only grow. -/
theorem PinEdit.commit_bit {k : Kind} {v : Bool} (h : PinEdit k v) (par : Config) (b : Bit) {r : PortRegs} {i : Bit}
    (hi : r.commit.getLsbD i.val = true) : (r.putBit par k b v).commit.getLsbD i.val = true := by
  by_cases hk : k = .commit
  · subst hk
    cases hl : r.locked with
    | true => rwa [PortRegs.putBit_commit_locked par b v r hl]
    | false =>
      rw [PortRegs.putBit_commit_unlocked par b v r hl, putByteBit_bit _ _ _ _ i.isLt, h.commit rfl, hi]
      exact ite_self true
  · rwa [PortRegs.putBit, PortRegs.write_commit_other par _ r hk]

/-- A committed pin is writable in every kind (R66). -/
theorem PortRegs.writable_of_commit (par : Config) (k : Kind) {r : PortRegs} {b : Bit}
    (h : r.commit.getLsbD b.val = true) : (r.writable par k).getLsbD b.val = true := by
  unfold PortRegs.writable
  split
  · exact h
  · exact (by decide : ∀ i : Bit, (0xFF : Byte).getLsbD i.val = true) b

/-! ### From assertions about pins to assertions about calls -/

section
variable {par : Config} {n : Nat} {S Φ Ψ : Nat → PortRegs → Prop}

theorem leads_putBitOps {bits : Config} {p : Nat} {k : Kind} {b : Bit} {v : Bool} (hk : k ≠ .lock)
    (hS : ∀ q r, Φ q r → S q r) (hown : ∀ r, Φ p r → Ψ p (r.putBit par k b v))
    (hother : ∀ q r, q ≠ p → Φ q r → Ψ q r) : Leads par n S Φ Ψ (putBitOps bits p k b v) := by
  cases v <;> exact leads_bitUpdate hk hS hown hother

theorem leads_putNibbleOps {p : Nat} {b : Bit} {c : BitVec 4} (hS : ∀ q r, Φ q r → S q r)
    (hown : ∀ r, Φ p r → Φ p (r.putNibble par b c)) : Leads par n S Φ Φ (putNibbleOps p b c) :=
  leads_load_store nofun hS hown fun _ _ _ => id

/-- The write of the key unlocks (R67). -/
theorem leads_writeKey {p : Nat} (hS : ∀ q r, Φ q r → S q r) (hown : ∀ r, Φ p r → Ψ p { r with locked := false })
    (hother : ∀ q r, q ≠ p → Φ q r → Ψ q r) : Leads par n S Φ Ψ [.store (.reg p .lock) (.const par.unlockKey)] := by
  refine leads_store_const hS (fun r hr => ?_) hother
  have hw : r.write par .lock par.unlockKey = { r with locked := false } := by simp [PortRegs.write]
  rw [hw]
  exact hown r hr

/-- `Φ` survives every update a command makes of pin `(p, b)` outside the resistor phase. -/
structure PinKeeps (par : Config) (Φ : Nat → PortRegs → Prop) (p : Nat) (b : Bit) : Prop where
  put : ∀ k v r, PinEdit k v → k ≠ .pur → k ≠ .pdr → Φ p r → Φ p (r.putBit par k b v)
  nibble : ∀ c r, Φ p r → Φ p (r.putNibble par b c)
  unlock : ∀ r, Φ p r → Φ p { r with locked := false }

namespace PinKeeps

variable {p : Nat} {b : Bit}

theorem leads_put (h : PinKeeps par Φ p b) (hS : ∀ q r, Φ q r → S q r) {k : Kind} {v : Bool} (he : PinEdit k v)
    (hu : k ≠ .pur) (hd : k ≠ .pdr) : Leads par n S Φ Φ (putBitOps par p k b v) :=
  leads_putBitOps he.lock hS (fun r => h.put k v r he hu hd) fun _ _ _ => id

theorem leads_dir (h : PinKeeps par Φ p b) (hS : ∀ q r, Φ q r → S q r) (v : Bool) :
    Leads par n S Φ Φ (putBitOps par p .dir b v) := h.leads_put hS ⟨nofun, nofun, nofun⟩ nofun nofun

theorem leads_data (h : PinKeeps par Φ p b) (hS : ∀ q r, Φ q r → S q r) (v : Bool) :
    Leads par n S Φ Φ (putBitOps par p .data b v) := h.leads_put hS ⟨nofun, nofun, nofun⟩ nofun nofun

theorem leads_unlock (h : PinKeeps par Φ p b) (hS : ∀ q r, Φ q r → S q r) :
    Leads par n S Φ Φ (unlockOps par p b) :=
  (leads_writeKey hS h.unlock fun _ _ _ => id).append
    (h.leads_put (k := .commit) (v := true) hS ⟨nofun, nofun, fun _ => rfl⟩ nofun nofun)

theorem leads_function (h : PinKeeps par Φ p b) (hS : ∀ q r, Φ q r → S q r) (m : Mode) :
    Leads par n S Φ Φ (functionOps par p b m) := by
  have hafen : ∀ v, Leads par n S Φ Φ (putBitOps par p .afen b v) :=
    fun _ => h.leads_put hS ⟨nofun, nofun, nofun⟩ nofun nofun
  have hamsel : ∀ v, Leads par n S Φ Φ (putBitOps par p .amsel b v) :=
    fun _ => h.leads_put hS ⟨nofun, nofun, nofun⟩ nofun nofun
  have hden : ∀ v, Leads par n S Φ Φ (putBitOps par p .den b v) :=
    fun _ => h.leads_put hS ⟨nofun, nofun, nofun⟩ nofun nofun
  have hmux := fun c => leads_putNibbleOps (n := n) (b := b) (c := c) hS (h.nibble c)
  cases m with
  | gpio => exact (((hafen false).append (hmux _)).append (hamsel false)).append (hden true)
  | alt k => exact (((hafen true).append (hmux _)).append (hamsel false)).append (hden true)
  | analog => exact (((hafen false).append (hmux _)).append (hamsel true)).append (hden false)

end PinKeeps

/-- The micro-ops of steps 2 to 5 of a record, positions aside (R161). -/
def pinOps (par : Config) (r : PinRecord) : List MicroOp :=
  (if par.isProtected r.p r.bit then unlockOps par r.p r.bit else []) ++
  putBitOps par r.p .dir r.bit r.direction.bit ++
  (if r.direction = .output then putBitOps par r.p .data r.bit r.initial.bit else []) ++
  (if r.direction = .input then resistorOps par r.p r.bit r.resistor else []) ++
  functionOps par r.p r.bit r.mode

theorem pinItems_map_snd (par : Config) (j : Nat) (r : PinRecord) : (pinItems par j r).map Prod.snd = pinOps par r := by
  simp only [pinItems, pinOps, List.map_append, place_map_snd]

/-- Steps 2 to 5 of a record: `Ψ` holds from step 2 on, at the latest. -/
theorem leads_pinOps {r : PinRecord} (hΨ : ∀ q x, Ψ q x → Φ q x) (hkeep : PinKeeps par Ψ r.p r.bit)
    (hunlock : par.isProtected r.p r.bit = true → Leads par n Φ Φ Ψ (unlockOps par r.p r.bit))
    (hopen : par.isProtected r.p r.bit = false → ∀ q x, Φ q x → Ψ q x)
    (hres : ∀ z, Leads par n Φ Ψ Ψ (resistorOps par r.p r.bit z)) : Leads par n Φ Φ Φ (pinOps par r) := by
  have h2 := Leads.ite_nil hunlock fun hn => hopen (Bool.eq_false_of_not_eq_true hn)
  have h3 := hkeep.leads_dir (n := n) hΨ r.direction.bit
  have h4 := Leads.ite_nil (c := r.direction = .output) (fun _ => hkeep.leads_data (n := n) hΨ r.initial.bit)
    fun _ _ _ => id
  have h5 := Leads.ite_nil (c := r.direction = .input) (fun _ => hres r.resistor) fun _ _ _ => id
  have h6 := hkeep.leads_function (n := n) hΨ r.mode
  have hdone : Leads par n Φ Ψ Φ [] := .nil hΨ
  simpa only [pinOps, List.append_nil] using ((((h2.append h3).append h4).append h5).append h6).append hdone

/-- All that commands do to pin `(p, b)` keeps `Φ`. -/
structure PinSteps (par : Config) (n : Nat) (Φ : Nat → PortRegs → Prop) (p : Nat) (b : Bit) : Prop where
  dir : ∀ v, Leads par n Φ Φ Φ (putBitOps par p .dir b v)
  function : ∀ m, Leads par n Φ Φ Φ (functionOps par p b m)
  init : ∀ r : PinRecord, r.p = p → r.bit = b → Leads par n Φ Φ Φ (pinOps par r)

/-- A pin whose resistor bits matter to `Φ` no more than its other bits. -/
theorem PinKeeps.pinSteps {p : Nat} {b : Bit} (h : PinKeeps par Φ p b)
    (hres : ∀ k v r, k = .pur ∨ k = .pdr → Φ p r → Φ p (r.putBit par k b v)) : PinSteps par n Φ p b where
  dir := h.leads_dir fun _ _ => id
  function := h.leads_function fun _ _ => id
  init := by
    rintro r rfl rfl
    have hpur : ∀ v, Leads par n Φ Φ Φ (putBitOps par r.p .pur r.bit v) := fun v =>
      leads_putBitOps nofun (fun _ _ => id) (fun x => hres .pur v x (.inl rfl)) fun _ _ _ => id
    have hpdr : ∀ v, Leads par n Φ Φ Φ (putBitOps par r.p .pdr r.bit v) := fun v =>
      leads_putBitOps nofun (fun _ _ => id) (fun x => hres .pdr v x (.inr rfl)) fun _ _ _ => id
    refine leads_pinOps (fun _ _ => id) h (fun _ => h.leads_unlock fun _ _ => id) (fun _ _ _ => id) fun z => ?_
    cases z with
    | pullUp => exact (hpdr false).append (hpur true)
    | pullDown => exact (hpur false).append (hpdr true)
    | none => exact (hpur false).append (hpdr false)

theorem leads_clkSetOps (hdata : ∀ q r d, Φ q r → Φ q { r with data := d }) (bits : Config) (p : Nat) :
    Leads par n Φ Φ Φ (clkSetOps bits p) := by
  refine leads_dataOnly hdata (fun _ _ => id) fun op hop => ?_
  unfold clkSetOps bitUpdate at hop
  split at hop
  · cases List.mem_singleton.1 hop
    rfl
  · rcases List.mem_pair.1 hop with rfl | rfl <;> rfl

theorem leads_initItems (hdata : ∀ q r d, Φ q r → Φ q { r with data := d })
    (hpins : ∀ p b, par.isReserved p b = false → PinSteps par n Φ p b) (j : Nat) (rs : List PinRecord) :
    Leads par n Φ Φ Φ ((initItems par j rs).map Prod.snd) := by
  induction rs generalizing j with
  | nil => exact .nil fun _ _ => id
  | cons r rs ih =>
    rw [initItems, recordItems, List.map_append, List.map_append, place_map_snd]
    refine ((leads_clkSetOps hdata par r.p).append ?_).append (ih (j + 1))
    split
    · exact .nil fun _ _ => id
    · next hr =>
      rw [pinItems_map_snd]
      exact (hpins r.p r.bit (by simpa using hr)).init r rfl rfl

theorem leads_directionOps (hpins : ∀ p b, par.isReserved p b = false → PinSteps par n Φ p b) (r : PinRecord)
    (d : Dir) : Leads par n Φ Φ Φ (directionOps par r d) := by
  unfold directionOps
  split
  · exact .nil fun _ _ => id
  · next hr => exact (hpins r.p r.bit (by simpa using hr)).dir d.bit

theorem leads_refreshItems (hpins : ∀ p b, par.isReserved p b = false → PinSteps par n Φ p b) (j : Nat)
    (rs : List PinRecord) : Leads par n Φ Φ Φ ((refreshItems par j rs).map Prod.snd) := by
  induction rs generalizing j with
  | nil => exact .nil fun _ _ => id
  | cons r rs ih =>
    rw [refreshItems, List.map_append, place_map_snd]
    exact (leads_directionOps hpins r r.direction).append (ih (j + 1))

theorem leads_accessBody (hdata : ∀ q r d, Φ q r → Φ q { r with data := d }) {ops : List MicroOp} (res : Result)
    (h : ∀ op ∈ ops, op.loc.dataOnly = true) : Leads par n Φ Φ Φ ((accessBody ops res).items.map Prod.snd) := by
  rw [accessBody, place_map_snd]
  exact leads_dataOnly hdata (fun _ _ => id) h

/-- Every body keeps what the updates of single pins keep: reserved pins get none (R163), and the channel commands write
`DATA` alone (R190). -/
theorem IsBody.leads {i : Instr} {g : Word} {body : Body} (h : IsBody par n g i body)
    (hdata : ∀ q r d, Φ q r → Φ q { r with data := d })
    (hpins : ∀ p b, par.isReserved p b = false → PinSteps par n Φ p b) :
    Leads par n Φ Φ Φ (body.items.map Prod.snd) := by
  cases h with
  | init w rs ht => exact leads_initItems hdata hpins 0 rs
  | setDir d pin arg r hr =>
    rw [setDirBody, place_map_snd]
    exact leads_directionOps hpins r d
  | setMode code pin arg m r hr hm =>
    rw [setModeBody, place_map_snd]
    split
    · exact .nil fun _ _ => id
    · next hres => exact (hpins r.p r.bit (by simpa using hres)).function m
  | refreshDir arg rs ht => exact leads_refreshItems hpins 0 rs
  | _ => exact leads_accessBody hdata _ (by simp [MicroOp.loc, Loc.dataOnly, PinRecord.aliasWord])

/-- What the updates of single pins keep, every call keeps, also when it stops at a mark. -/
theorem exec_portsHave {i : Instr} {s t : State} (h : exec i s = .next t)
    (hdata : ∀ q r d, Φ q r → Φ q { r with data := d })
    (hpins : ∀ p b, s.par.isReserved p b = false → PinSteps s.par s.nports Φ p b)
    (hs : ∀ q < s.nports, Φ q (s.port q)) : PortsHave s.par s.nports Φ t := by
  rw [exec_eq_call] at h
  exact call_portsHave h ⟨rfl, rfl, hs⟩ fun _ _ hb => (isBody_of_ok hb).leads hdata hpins

end

end Sys2Proof.Machine

/-! ### Pins that keep their configuration (spec/10_state.md R34, R38, R49) -/

namespace Sys2Proof.Machine

/-- The seven configuration kinds agree on pin `b` in two values of a port. -/
structure PortRegs.SamePin (b : Bit) (r r' : PortRegs) : Prop where
  bit : ∀ k : Kind, k.isConfigBit = true → (r'.stored k).getLsbD b.val = (r.stored k).getLsbD b.val
  nibble : r'.muxsel.extractLsb' (4 * b.val) 4 = r.muxsel.extractLsb' (4 * b.val) 4

theorem PortRegs.SamePin.refl (b : Bit) (r : PortRegs) : PortRegs.SamePin b r r := ⟨fun _ _ => rfl, rfl⟩

theorem PortRegs.SamePin.trans {b : Bit} {r r' r'' : PortRegs} (h : PortRegs.SamePin b r r')
    (g : PortRegs.SamePin b r' r'') : PortRegs.SamePin b r r'' :=
  ⟨fun k hk => (g.bit k hk).trans (h.bit k hk), g.nibble.trans h.nibble⟩

theorem samePinConfig_of_samePin {s t : State} {p : Nat} {b : Bit} (h : PortRegs.SamePin b (s.port p) (t.port p)) :
    samePinConfig s t p b := by
  have hbit : ∀ x y : Byte, (x.setWidth 32 : Word).getLsbD b.val = (y.setWidth 32 : Word).getLsbD b.val →
      x.getLsbD b.val = y.getLsbD b.val := fun x y hxy => by rwa [setWidth_bit, setWidth_bit] at hxy
  exact ⟨hbit _ _ (h.bit .dir rfl), hbit _ _ (h.bit .afen rfl), hbit _ _ (h.bit .pur rfl), hbit _ _ (h.bit .pdr rfl),
    hbit _ _ (h.bit .den rfl), hbit _ _ (h.bit .amsel rfl), h.nibble⟩

theorem PortRegs.stored_data_update (r : PortRegs) (d : Byte) {k : Kind} (hk : k.isConfigBit = true) :
    ({ r with data := d } : PortRegs).stored k = r.stored k := by
  cases k <;> simp_all [Kind.isConfigBit, PortRegs.stored]

theorem PortRegs.stored_locked_update (r : PortRegs) (l : Bool) {k : Kind} (hk : k.isConfigBit = true) :
    ({ r with locked := l } : PortRegs).stored k = r.stored k := by
  cases k <;> simp_all [Kind.isConfigBit, PortRegs.stored]

theorem PortRegs.putNibble_stored (par : Config) (b : Bit) (c : BitVec 4) (r : PortRegs) {k : Kind}
    (hk : k.isConfigBit = true) : (r.putNibble par b c).stored k = r.stored k :=
  PortRegs.write_stored_other par .muxsel k _ r (by rintro rfl; cases hk)

theorem PortRegs.samePin_putBit (par : Config) {k : Kind} {b i : Bit} (v : Bool) (r : PortRegs) (hk : k ≠ .muxsel)
    (h : i ≠ b) : PortRegs.SamePin i r (r.putBit par k b v) where
  bit _ hk' := PortRegs.putBit_stored_bit_other_pin par v r h hk'
  nibble := by rw [PortRegs.putBit_muxsel par b v r hk]

theorem PortRegs.samePin_putNibble (par : Config) {b i : Bit} (c : BitVec 4) (r : PortRegs) (h : i ≠ b) :
    PortRegs.SamePin i r (r.putNibble par b c) where
  bit _ hk := by rw [PortRegs.putNibble_stored par b c r hk]
  nibble := by
    rw [PortRegs.putNibble, PortRegs.write_muxsel_nibble]
    dsimp only
    split
    · rw [putNibbleIn_nibble, if_neg h]
    · rfl

theorem PortRegs.samePin_data (b : Bit) (r : PortRegs) (d : Byte) : PortRegs.SamePin b r { r with data := d } :=
  ⟨fun _ hk => by rw [PortRegs.stored_data_update r d hk], rfl⟩

theorem PortRegs.samePin_locked (b : Bit) (r : PortRegs) (l : Bool) : PortRegs.SamePin b r { r with locked := l } :=
  ⟨fun _ hk => by rw [PortRegs.stored_locked_update r l hk], rfl⟩

/-! #### Reserved pins -/

/-- Pin `(p, b)` is configured as in `r₀`. -/
def PinAs (p : Nat) (b : Bit) (r₀ : PortRegs) (q : Nat) (r : PortRegs) : Prop := q = p → PortRegs.SamePin b r₀ r

theorem pinSteps_pinAs {par : Config} {n p q : Nat} {b i : Bit} {r₀ : PortRegs} (h : q = p → b ≠ i) :
    PinSteps par n (PinAs p b r₀) q i := by
  have hkeep : PinKeeps par (PinAs p b r₀) q i :=
    { put := fun k v r he _ _ hr hq => (hr hq).trans (PortRegs.samePin_putBit par v r he.muxsel (h hq))
      nibble := fun c r hr hq => (hr hq).trans (PortRegs.samePin_putNibble par c r (h hq))
      unlock := fun r hr hq => (hr hq).trans (PortRegs.samePin_locked b r false) }
  refine hkeep.pinSteps fun k v r hk hr hq => (hr hq).trans (PortRegs.samePin_putBit par v r ?_ (h hq))
  rcases hk with rfl | rfl <;> nofun

/-- A call leaves the configuration of a reserved pin as it was (R163). -/
theorem exec_samePinConfig {i : Instr} {s t : State} {p : Nat} {b : Bit} (hres : s.par.isReserved p b = true)
    (h : exec i s = .next t) : samePinConfig s t p b := by
  have hpins : ∀ q j, s.par.isReserved q j = false → PinSteps s.par s.nports (PinAs p b (s.port p)) q j := by
    intro q j hj
    refine pinSteps_pinAs ?_
    rintro rfl rfl
    rw [hres] at hj
    cases hj
  obtain ⟨_, hn, hΦ⟩ := exec_portsHave h (fun _ r d hr hq => (hr hq).trans (PortRegs.samePin_data b r d)) hpins
    fun q _ hq => hq ▸ .refl b _
  refine samePinConfig_of_samePin ?_
  rcases Nat.lt_or_ge p s.nports with hp | hp
  · exact hΦ p hp rfl
  · rw [State.port_of_ge hp, State.port_of_ge (hn ▸ hp)]
    exact .refl b _

/-! #### Commit bits -/

/-- Every pin of port `q` that is not protected is committed. -/
def OpenPort (par : Config) (q : Nat) (r : PortRegs) : Prop :=
  ∀ b : Bit, par.isProtected q b = false → r.commit.getLsbD b.val = true

theorem OpenPort.putBit {par : Config} {q : Nat} {r : PortRegs} (h : OpenPort par q r) {k : Kind} {v : Bool}
    (he : PinEdit k v) (b : Bit) : OpenPort par q (r.putBit par k b v) :=
  fun i hi => he.commit_bit par b (h i hi)

theorem PortRegs.putNibble_commit (par : Config) (b : Bit) (c : BitVec 4) (r : PortRegs) :
    (r.putNibble par b c).commit = r.commit := PortRegs.write_commit_other par _ r nofun

theorem OpenPort.putNibble {par : Config} {q : Nat} {r : PortRegs} (h : OpenPort par q r) (b : Bit) (c : BitVec 4) :
    OpenPort par q (r.putNibble par b c) := by
  rwa [OpenPort, PortRegs.putNibble_commit]

theorem pinEdit_resistor {k : Kind} (v : Bool) (h : k = .pur ∨ k = .pdr) : PinEdit k v := by
  rcases h with rfl | rfl <;> exact ⟨nofun, nofun, nofun⟩

theorem pinSteps_openPort (par : Config) (n p : Nat) (b : Bit) : PinSteps par n (OpenPort par) p b := by
  have hkeep : PinKeeps par (OpenPort par) p b :=
    { put := fun _ _ _ he _ _ hr => hr.putBit he b
      nibble := fun c _ hr => hr.putNibble b c
      unlock := fun _ hr => hr }
  exact hkeep.pinSteps fun _ v _ hk hr => hr.putBit (pinEdit_resistor v hk) b

theorem PortsHave.commitOpen {s t : State} (h : PortsHave s.par s.nports (OpenPort s.par) t) : CommitOpen t := by
  obtain ⟨hp, hn, hΦ⟩ := h
  intro q hq b hb
  rw [hp] at hb
  exact hΦ q (hn ▸ hq) b hb

/-- No call clears a commit bit. -/
theorem exec_commitOpen {i : Instr} {s t : State} (hs : CommitOpen s) (h : exec i s = .next t) : CommitOpen t :=
  (exec_portsHave h (fun _ _ _ hr => hr) (fun q j _ => pinSteps_openPort s.par s.nports q j) hs).commitOpen

theorem commitOpen_resetWith (par : Config) (d : ResetDraw) : CommitOpen (State.resetWith par d) := by
  intro p hp b hb
  obtain ⟨_, hcommit⟩ := State.resetWith_port_gates par d hp
  rw [hcommit b]
  exact congrArg not hb

/-! #### Resistor bits -/

/-- At most one of the two resistor bits of pin `b` is set. -/
def OneResistor (b : Bit) (r : PortRegs) : Prop :=
  (r.stored .pur).getLsbD b.val = false ∨ (r.stored .pdr).getLsbD b.val = false

theorem oneResistor_iff {b : Bit} {r : PortRegs} :
    OneResistor b r ↔ ¬(r.pur.getLsbD b.val = true ∧ r.pdr.getLsbD b.val = true) := by
  rw [OneResistor, PortRegs.stored, PortRegs.stored, setWidth_bit, setWidth_bit]
  cases r.pur.getLsbD b.val <;> cases r.pdr.getLsbD b.val <;> decide

/-- Resistor bits that were set in `r`, if they are set in `r'`. -/
theorem OneResistor.of_le {b : Bit} {r r' : PortRegs} (h : OneResistor b r)
    (hle : ∀ k, k = .pur ∨ k = .pdr → (r.stored k).getLsbD b.val = false → (r'.stored k).getLsbD b.val = false) :
    OneResistor b r' := h.imp (hle .pur (.inl rfl)) (hle .pdr (.inr rfl))

theorem isConfigBit_resistor {k : Kind} (h : k = .pur ∨ k = .pdr) : k.isConfigBit = true := by
  rcases h with rfl | rfl <;> rfl

theorem OneResistor.of_samePin {b : Bit} {r r' : PortRegs} (h : OneResistor b r) (hs : PortRegs.SamePin b r r') :
    OneResistor b r' := h.of_le fun k hk hf => (hs.bit k (isConfigBit_resistor hk)).trans hf

/-- An update of another kind leaves the resistor bits. -/
theorem OneResistor.putBit_other {par : Config} {b i : Bit} {r : PortRegs} (h : OneResistor b r) {k : Kind} (v : Bool)
    (hu : k ≠ .pur) (hd : k ≠ .pdr) : OneResistor b (r.putBit par k i v) := by
  rwa [OneResistor, PortRegs.putBit_stored_other par i v r (Ne.symm hu),
    PortRegs.putBit_stored_other par i v r (Ne.symm hd)]

/-- A clear of a resistor bit keeps a clear one clear. -/
theorem OneResistor.clear {par : Config} {b : Bit} {r : PortRegs} (h : OneResistor b r) {k : Kind}
    (hk : k = .pur ∨ k = .pdr) : OneResistor b (r.putBit par k b false) := by
  refine h.of_le fun k' hk' hf => ?_
  by_cases he : k' = k
  · subst he
    rw [PortRegs.putBit_stored_bit par b false r (isConfigBit_resistor hk')]
    split
    · rfl
    · exact hf
  · rwa [PortRegs.putBit_stored_other par b false r he]

/-- The assertion of R34 along a command: unprotected pins committed, and pin `(p, b)` with at most one resistor. -/
def ResistorsOk (par : Config) (p : Nat) (b : Bit) (q : Nat) (r : PortRegs) : Prop :=
  OpenPort par q r ∧ (q = p → OneResistor b r)

/-- The same, with pin `(p, b)` committed. -/
def ResistorsOpen (par : Config) (p : Nat) (b : Bit) (q : Nat) (r : PortRegs) : Prop :=
  ResistorsOk par p b q r ∧ (q = p → r.commit.getLsbD b.val = true)

section
variable {par : Config} {n p : Nat} {b : Bit}

theorem pinKeeps_resistorsOk (q : Nat) (i : Bit) : PinKeeps par (ResistorsOk par p b) q i where
  put _ v _ he hu hd hr := ⟨hr.1.putBit he i, fun hq => (hr.2 hq).putBit_other v hu hd⟩
  nibble c r hr := ⟨hr.1.putNibble i c, fun hq => (hr.2 hq).of_le fun _ hk hf => by
    rwa [PortRegs.putNibble_stored par i c r (isConfigBit_resistor hk)]⟩
  unlock r hr := ⟨hr.1, fun hq => (hr.2 hq).of_samePin (PortRegs.samePin_locked b r false)⟩

theorem pinKeeps_resistorsOpen (q : Nat) (i : Bit) : PinKeeps par (ResistorsOpen par p b) q i where
  put k v r he hu hd hr :=
    ⟨(pinKeeps_resistorsOk q i).put k v r he hu hd hr.1, fun hq => he.commit_bit par i (hr.2 hq)⟩
  nibble c r hr :=
    ⟨(pinKeeps_resistorsOk q i).nibble c r hr.1, fun hq => by rw [PortRegs.putNibble_commit]; exact hr.2 hq⟩
  unlock r hr := ⟨(pinKeeps_resistorsOk q i).unlock r hr.1, hr.2⟩

/-- The updates of another pin, its resistor bits included. -/
theorem pinSteps_resistors_other {q : Nat} {i : Bit} (h : q = p → b ≠ i) :
    PinSteps par n (ResistorsOk par p b) q i := by
  refine (pinKeeps_resistorsOk q i).pinSteps fun k v r hk hr => ?_
  have he := pinEdit_resistor v hk
  exact ⟨hr.1.putBit he i, fun hq => (hr.2 hq).of_samePin (PortRegs.samePin_putBit par v r he.muxsel (h hq))⟩

/-- The unlock sequence commits the pin (R167). -/
theorem leads_unlock_resistorsOpen :
    Leads par n (ResistorsOk par p b) (ResistorsOk par p b) (ResistorsOpen par p b) (unlockOps par p b) := by
  have hkey : Leads par n (ResistorsOk par p b) (ResistorsOk par p b)
      (fun q r => ResistorsOk par p b q r ∧ (q = p → r.locked = false))
      [.store (.reg p .lock) (.const par.unlockKey)] :=
    leads_writeKey (fun _ _ => id) (fun r hr => ⟨(pinKeeps_resistorsOk p b).unlock r hr, fun _ => rfl⟩)
      fun q r hq hr => ⟨hr, fun he => absurd he hq⟩
  refine hkey.append (leads_putBitOps (k := .commit) (v := true) nofun (fun _ _ hr => hr.1) (fun r hr => ?_)
    fun q r hq hr => ⟨hr.1, fun he => absurd he hq⟩)
  refine ⟨(pinKeeps_resistorsOk p b).put .commit true r ⟨nofun, nofun, fun _ => rfl⟩ nofun nofun hr.1, fun _ => ?_⟩
  rw [PortRegs.putBit_commit_unlocked par b true r (hr.2 rfl), putByteBit_bit _ _ _ _ b.isLt, if_pos rfl]

theorem resistorsOpen_clear {k : Kind} (hk : k = .pur ∨ k = .pdr) {r : PortRegs} (hr : ResistorsOpen par p b p r) :
    ResistorsOpen par p b p (r.putBit par k b false) :=
  ⟨⟨hr.1.1.putBit (pinEdit_resistor false hk) b, fun hq => (hr.1.2 hq).clear hk⟩,
    fun hq => (pinEdit_resistor false hk).commit_bit par b (hr.2 hq)⟩

theorem leads_clear {k : Kind} (hk : k = .pur ∨ k = .pdr) :
    Leads par n (ResistorsOk par p b) (ResistorsOpen par p b) (ResistorsOpen par p b) (clrBitOps par p k b) :=
  leads_putBitOps (v := false) (pinEdit_resistor false hk).lock (fun _ _ hr => hr.1)
    (fun _ hr => resistorsOpen_clear hk hr) fun _ _ _ => id

/-- Step 4 with a resistor: the opposite bit is cleared first, and the pin is committed, so the clear lands (R165). -/
theorem leads_clear_set {off on : Kind} (hoff : off = .pur ∨ off = .pdr) (hon : on = .pur ∨ on = .pdr)
    (hne : off ≠ on) :
    Leads par n (ResistorsOk par p b) (ResistorsOpen par p b) (ResistorsOpen par p b)
      (clrBitOps par p off b ++ setBitOps par p on b) := by
  have hclear : Leads par n (ResistorsOk par p b) (ResistorsOpen par p b)
      (fun q r => ResistorsOpen par p b q r ∧ (q = p → (r.stored off).getLsbD b.val = false))
      (putBitOps par p off b false) := by
    refine leads_putBitOps (pinEdit_resistor false hoff).lock (fun _ _ hr => hr.1)
      (fun r hr => ⟨resistorsOpen_clear hoff hr, fun _ => ?_⟩) fun q r hq hr => ⟨hr, fun he => absurd he hq⟩
    rw [PortRegs.putBit_stored_bit par b false r (isConfigBit_resistor hoff),
      if_pos ⟨PortRegs.writable_of_commit par off (hr.2 rfl), rfl⟩]
  refine hclear.append (leads_putBitOps (v := true) (pinEdit_resistor true hon).lock (fun _ _ hr => hr.1.1)
    (fun r hr => ?_) fun _ _ _ hr => hr.1)
  have he := pinEdit_resistor true hon
  have hstays : ((r.putBit par on b true).stored off).getLsbD b.val = false := by
    rw [PortRegs.putBit_stored_other par b true r hne]
    exact hr.2 rfl
  refine ⟨⟨hr.1.1.1.putBit he b, fun _ => ?_⟩, fun hq => he.commit_bit par b (hr.1.2 hq)⟩
  rcases hoff with rfl | rfl
  · exact .inl hstays
  · exact .inr hstays

theorem pinSteps_resistors_own : PinSteps par n (ResistorsOk par p b) p b where
  dir := (pinKeeps_resistorsOk p b).leads_dir fun _ _ => id
  function := (pinKeeps_resistorsOk p b).leads_function fun _ _ => id
  init := by
    rintro r rfl rfl
    refine leads_pinOps (fun _ _ hr => hr.1) (pinKeeps_resistorsOpen r.p r.bit) (fun _ => leads_unlock_resistorsOpen)
      (fun hopen q x hx => ⟨hx, ?_⟩) fun z => ?_
    · rintro rfl
      exact hx.1 r.bit hopen
    · cases z with
      | pullUp => exact leads_clear_set (.inr rfl) (.inl rfl) nofun
      | pullDown => exact leads_clear_set (.inl rfl) (.inr rfl) nofun
      | none => exact (leads_clear (.inl rfl)).append (leads_clear (.inr rfl))

end

theorem exec_oneResistor {i : Instr} {s t : State} {p : Nat} {b : Bit} (hs : CommitOpen s) (h : exec i s = .next t)
    (hone : OneResistor b (s.port p)) : OneResistor b (t.port p) := by
  have hpins : ∀ q j, s.par.isReserved q j = false → PinSteps s.par s.nports (ResistorsOk s.par p b) q j := by
    intro q j _
    by_cases hpin : q = p ∧ b = j
    · obtain ⟨rfl, rfl⟩ := hpin
      exact pinSteps_resistors_own
    · exact pinSteps_resistors_other fun hq hb => hpin ⟨hq, hb⟩
  obtain ⟨_, hn, hΦ⟩ := exec_portsHave h
    (fun _ r d hr => ⟨hr.1, fun hq => (hr.2 hq).of_samePin (PortRegs.samePin_data b r d)⟩) hpins
    fun q hq => ⟨hs q hq, fun he => he ▸ hone⟩
  rcases Nat.lt_or_ge p s.nports with hp | hp
  · exact (hΦ p hp).2 rfl
  · rw [State.port_of_ge (hn ▸ hp)]
    exact .inl (by simp [PortRegs.stored, PortRegs.blank])

end Sys2Proof.Machine

namespace Sys2Proof

open Machine

/-- Settles O51: the only updates a command makes of configuration bits are of pins that are not reserved. -/
theorem reservedPinsAreNeverReconfigured : Obligations.ReservedPinsAreNeverReconfigured :=
  fun _ _ _ _ _ hres h => exec_samePinConfig hres h

/-- Settles O52: only step 4 of `INIT` sets a resistor bit, and just before it the same pin's opposite bit was cleared,
the pin being committed by then. -/
theorem resistorBitsStayExclusive : Obligations.ResistorBitsStayExclusive :=
  fun _ _ _ _ _ hs h hone => oneResistor_iff.1 (exec_oneResistor hs h (oneResistor_iff.2 hone))

/-- Settles O54: reset commits the pins that are not protected, and commands only set commit bits. -/
theorem unprotectedPinsStayCommitted : Obligations.UnprotectedPinsStayCommitted :=
  ⟨commitOpen_resetWith, fun _ _ _ hs h => exec_commitOpen hs h⟩

end Sys2Proof

/-! ### Accesses to ports, clocked and unclocked (spec/20_memory.md R56, R57, R65) -/

namespace Sys2Proof.Machine

/-- The one read that draws (R37). -/
theorem regRead_lock_of_clocked (s : State) (p : Nat) (h : Clocked s p) :
    regRead s p .lock = .ok (Config.freeWord s.draws, { s with draws := s.draws + 1 }) := by
  rw [regRead, s.denied_of_clocked p h]

section
variable {s : State} {p : Nat} {l : Loc}

/-- Every read of a word of an unclocked port is the fault of the clock check. -/
theorem State.load_of_clockOff (hp : p < s.nports) (hc : s.clken.getLsbD p = false) (hl : l.onPort p = true) :
    s.load l = .error (.clockOff p) := by
  have hd := s.denied_of_clockOff p hp hc
  cases l with
  | reg q k => cases eq_of_beq hl; simp only [State.load, regRead, hd]
  | clken => cases hl
  | aliasBit q b => cases eq_of_beq hl; rw [State.load, aliasRead, hd]

/-- Every write of a word of an unclocked port is the fault of the clock check. -/
theorem State.store_of_clockOff (hp : p < s.nports) (hc : s.clken.getLsbD p = false) (hl : l.onPort p = true)
    (v : Word) : s.store l v = .error (.clockOff p) := by
  have hd := s.denied_of_clockOff p hp hc
  cases l with
  | reg q k => cases eq_of_beq hl; rw [State.store, regWrite, hd]
  | clken => cases hl
  | aliasBit q b => cases eq_of_beq hl; rw [State.store, aliasWrite, hd]

/-- Every micro-op on a word of an unclocked port is that fault (R230). -/
theorem performOp_of_clockOff (hp : p < s.nports) (hc : s.clken.getLsbD p = false) {op : MicroOp}
    (hl : op.loc.onPort p = true) (c : Nat) : performOp c op s = .error (.clockOff p) := by
  cases op with
  | load l => simp only [performOp, State.load_of_clockOff (l := l) hp hc hl]
  | store l d => exact State.store_of_clockOff hp hc hl _
  | update l d => simp only [performOp, State.load_of_clockOff (l := l) hp hc hl]

theorem Loc.onPort_iff : l.onPort p = true ↔ (∃ k, l = .reg p k) ∨ ∃ b, l = .aliasBit p b := by
  cases l <;> simp [Loc.onPort]

end

/-! #### What a register write stores, bit by bit -/

/-- `Writable(p, b, K)` (R66). -/
theorem PortRegs.writable_bit (par : Config) (r : PortRegs) (k : Kind) (b : Bit) :
    (r.writable par k).getLsbD b.val = true ↔ par.gates k = false ∨ r.commit.getLsbD b.val = true := by
  unfold PortRegs.writable
  split
  · next hg => simp [hg]
  · next hg =>
    have hones : (0xFF : Byte).getLsbD b.val = true := (by decide : ∀ i : Bit, (0xFF : Byte).getLsbD i.val = true) b
    exact iff_of_true hones (.inl (Bool.eq_false_of_not_eq_true hg))

theorem PortRegs.write_lock_locked (par : Config) (v : Word) (r : PortRegs) :
    (r.write par .lock v).locked = !(v == par.unlockKey) := rfl

theorem PortRegs.write_commit (par : Config) (v : Word) (r : PortRegs) :
    (r.write par .commit v).commit = if r.locked then r.commit else v.setWidth 8 := by
  rw [PortRegs.write]
  split <;> rfl

theorem PortRegs.write_commit_locked (par : Config) (v : Word) {r : PortRegs} (h : r.locked = true) :
    r.write par .commit v = r := if_pos h

/-- A configuration bit takes the written value where it is writable (R57). -/
theorem PortRegs.write_configBit (par : Config) (v : Word) (r : PortRegs) {k : Kind} (hk : k.isConfigBit = true)
    (b : Bit) :
    ((r.write par k v).stored k).getLsbD b.val =
      if par.gates k = false ∨ r.commit.getLsbD b.val = true then v.getLsbD b.val
      else (r.stored k).getLsbD b.val := by
  rw [PortRegs.write_stored_configBit par v r hk, setWidth_bit, mergeByte_bit]
  simp only [PortRegs.writable_bit]
  simp [-BitVec.getLsbD_eq_getElem]

/-- A nibble of `MUXSEL` takes the written value where its pin is writable (R57). -/
theorem PortRegs.write_muxsel_extract (par : Config) (v : Word) (r : PortRegs) (b : Bit) :
    (r.write par .muxsel v).muxsel.extractLsb' (4 * b.val) 4 =
      if par.gates .muxsel = false ∨ r.commit.getLsbD b.val = true then v.extractLsb' (4 * b.val) 4
      else r.muxsel.extractLsb' (4 * b.val) 4 := by
  refine (mergeNibbles_nibble _ _ _ b).trans ?_
  simp only [PortRegs.writable_bit]

/-! #### The lock of a port -/

/-- Nothing but a write to `LOCK[p]` moves the lock of port `p` (R67). -/
theorem State.store_locked_other {s t : State} {p : Nat} {l : Loc} {v : Word} (hl : l ≠ .reg p .lock)
    (h : s.store l v = .ok t) : (t.port p).locked = (s.port p).locked := by
  have hset : ∀ q r, Clocked s q → (q = p → r.locked = (s.port p).locked) →
      ((s.setPort q r).port p).locked = (s.port p).locked := by
    intro q r hq hr
    by_cases hqp : q = p
    · subst hqp
      rw [State.port_setPort_same _ _ _ hq.1]
      exact hr rfl
    · rw [State.port_setPort_other _ _ _ _ hqp]
  rcases State.store_ok h with ⟨q, k, rfl, hq, rfl⟩ | ⟨_, rfl⟩ | ⟨q, b, _, hq, rfl⟩
  · refine hset q _ hq ?_
    rintro rfl
    exact PortRegs.write_locked s.par k v _ fun hk => hl (hk ▸ rfl)
  · rfl
  · refine hset q _ hq ?_
    rintro rfl
    rfl

theorem State.resetWith_locked (par : Config) (d : ResetDraw) (p : Nat) :
    ((State.resetWith par d).port p).locked = true := by
  rcases Nat.lt_or_ge p (State.resetWith par d).nports with hp | hp
  · exact (State.resetWith_port_gates par d hp).1
  · rw [State.port_of_ge hp]
    rfl

theorem Clocked.setPort {s : State} {p : Nat} (h : Clocked s p) (q : Nat) (r : PortRegs) :
    Clocked (s.setPort q r) p := ⟨(s.setPort_nports q r).symm ▸ h.1, h.2⟩

/-- The three micro-ops of the commit protocol (R167): key, `COMMIT` read, `COMMIT` write. -/
theorem commitProtocol_of_clocked {s : State} {p : Nat} (h : Clocked s p) (b : Bit) :
    ∃ t u w, regWrite s p .lock s.par.unlockKey = .ok t ∧ regRead t p .commit = .ok (u, t) ∧
      regWrite t p .commit (setBitIn u b.val) = .ok w ∧
      (w.port p).commit = putByteBit (s.port p).commit b true := by
  let t := s.setPort p ((s.port p).write s.par .lock s.par.unlockKey)
  have ht : Clocked t p := h.setPort p _
  have hport : t.port p = (s.port p).write s.par .lock s.par.unlockKey := State.port_setPort_same _ _ _ h.1
  have hopen : (t.port p).locked = false := by
    rw [hport, PortRegs.write_lock_locked, beq_self_eq_true]
    rfl
  refine ⟨t, _, _, regWrite_of_clocked s p _ _ h, regRead_of_clocked t p .commit ht nofun,
    regWrite_of_clocked t p _ _ ht, ?_⟩
  rw [State.port_setPort_same _ _ _ ht.1]
  refine (PortRegs.putBit_commit_unlocked t.par b true _ hopen).trans ?_
  rw [hport]
  rfl

/-! #### The step of an ENV access -/

theorem step_env {s : State} (hu : Unmarked s) {a : EnvAccess} {rest : List Event} (ha : s.agenda = .env a :: rest) :
    step s = envEvent a { s with agenda := rest } := by
  simp only [step, hu.1, hu.2, ha, stepEvent]

section
variable {s t : State} {l : Loc} {v : Word} {f : Fault}

theorem envEvent_read_ok (he : s.par.env = true) (h : s.load l = .ok (v, t)) :
    envEvent (.read l) s = .next { t with envReads := t.envReads ++ [v] } := by
  simp only [envEvent, he, h, if_true]

theorem envEvent_read_error (he : s.par.env = true) (h : s.load l = .error f) :
    envEvent (.read l) s = .next (s.markFault f) := by
  simp only [envEvent, he, h, if_true]

theorem envEvent_write_ok (he : s.par.env = true) (h : s.store l v = .ok t) : envEvent (.write l v) s = .next t := by
  simp only [envEvent, he, h, if_true]

theorem envEvent_write_error (he : s.par.env = true) (h : s.store l v = .error f) :
    envEvent (.write l v) s = .next (s.markFault f) := by
  simp only [envEvent, he, h, if_true]

theorem envEvent_off (he : s.par.env = false) (a : EnvAccess) : envEvent a s = .refused .eventNotEnabled := by
  simp [envEvent, he]

/-- A load changes no register. -/
theorem State.load_surface (h : s.load l = .ok (v, t)) : t.ports = s.ports ∧ t.clken = s.clken := by
  rcases State.load_ok h with rfl | ⟨_, rfl⟩ <;> exact ⟨rfl, rfl⟩

end

end Sys2Proof.Machine

namespace Sys2Proof

open Machine

/-- Settles O6: with the clock on the check passes, and the read returns what is stored. -/
theorem regReadReturnsTheStoredWord : Obligations.RegReadReturnsTheStoredWord := by
  intro s p h
  have hread := fun k => regRead_of_clocked s p k h
  exact ⟨hread .data nofun, hread .dir nofun, hread .afen nofun, hread .pur nofun, hread .pdr nofun, hread .den nofun,
    hread .commit nofun, hread .amsel nofun, hread .muxsel nofun, regRead_lock_of_clocked s p h⟩

/-- Settles O7: with the clock on the write is `PortRegs.write` on that port, whose gates are a mask. -/
theorem regWriteStoresWhatIsWritable : Obligations.RegWriteStoresWhatIsWritable := by
  intro s p k v h
  refine ⟨_, regWrite_of_clocked s p k v h, ?_⟩
  rw [State.port_setPort_same _ _ _ h.1]
  refine ⟨rfl, fun k' hk' => PortRegs.write_stored_other _ _ _ v _ hk', ?_, ?_, ?_, ?_, ?_⟩
  · rintro rfl
    simp [PortRegs.write_lock_locked]
  · rintro rfl
    exact PortRegs.write_commit _ v _
  · rintro rfl
    rfl
  · intro hk b
    refine PortRegs.write_configBit _ v _ ?_ b
    rcases hk with rfl | rfl | rfl | rfl | rfl | rfl <;> rfl
  · rintro rfl b
    exact PortRegs.write_muxsel_extract _ v _ b

/-- Settles O8: the clock check comes before any access, so the micro-op has nothing to undo. -/
theorem unclockedAccessFaults : Obligations.UnclockedAccessFaults := by
  intro s p l v hp hc hl
  have hon := Loc.onPort_iff.2 hl
  have hfault : ∀ op : MicroOp, op.loc.onPort p = true → ∀ c q, itemStep c op q s = s.markFault (.clockOff p) :=
    fun _ hop c q => itemStep_of_fault (performOp_of_clockOff hp hc hop c) q
  exact ⟨State.load_of_clockOff hp hc hon, State.store_of_clockOff hp hc hon v,
    fun c q d => ⟨hfault (.load l) hon c q, hfault (.store l d) hon c q, hfault (.update l d) hon c q⟩⟩

/-- Settles O10: of all writes only the one to `LOCK[p]` reaches the lock of port `p`. -/
theorem lockMovesOnlyOnLockWrites : Obligations.LockMovesOnlyOnLockWrites := by
  refine ⟨fun s p v h => ⟨_, regWrite_of_clocked s p .lock v h, ?_⟩,
    fun _ _ _ _ _ hl h => State.store_locked_other hl h, State.resetWith_locked⟩
  rw [State.port_setPort_same _ _ _ h.1]
  exact PortRegs.write_lock_locked s.par v _

/-- Settles O11: the key unlocks, so the `COMMIT` write lands and sets bit `b` alone. -/
theorem keyThenCommitMakesAPinWritable : Obligations.KeyThenCommitMakesAPinWritable := by
  refine ⟨fun s p v h hlocked => ?_, fun s p b h => ?_⟩
  · rw [regWrite_of_clocked s p _ v h, PortRegs.write_commit_locked _ v hlocked, s.setPort_port p h.1]
  · obtain ⟨t, u, w, hkey, hread, hwrite, hcommit⟩ := commitProtocol_of_clocked h b
    refine ⟨t, u, w, hkey, hread, hwrite, fun k => PortRegs.writable_of_commit w.par k ?_, fun b' hb' => ?_⟩
    · rw [hcommit, putByteBit_bit _ _ _ _ b.isLt, if_pos rfl]
    · rw [hcommit, putByteBit_bit _ _ _ _ b'.isLt, if_neg fun he => hb' (Fin.ext he)]

/-- Settles O12: on a clocked port each single-bit word is one bit of the data byte. -/
theorem aliasWordsReachOneDataBit : Obligations.AliasWordsReachOneDataBit := by
  intro s p b v h
  refine ⟨aliasRead_of_clocked s p b h, _, aliasWrite_of_clocked s p b v h, ?_⟩
  rw [State.port_setPort_same _ _ _ h.1]
  refine ⟨rfl, ?_, fun b' hb' => ?_⟩
  · rw [putByteBit_bit _ _ _ _ b.isLt, if_pos rfl]
  · rw [putByteBit_bit _ _ _ _ b'.isLt, if_neg fun he => hb' (Fin.ext he)]

/-- Settles O13: the access to `CLKEN` has no check and no gate. -/
theorem clkenIsPlainStorage : Obligations.ClkenIsPlainStorage :=
  fun _ _ => ⟨rfl, rfl, rfl, fun _ => rfl⟩

/-- Settles O15: the event leaves the agenda and the access is the primitive's. -/
theorem envAccessesUseThePrimitives : Obligations.EnvAccessesUseThePrimitives := by
  intro s l v rest hu s'
  have hstep : ∀ a, s.agenda = .env a :: rest → step s = envEvent a s' := fun _ => step_env hu
  refine ⟨fun he ha => ⟨fun w t hl => ?_, fun f hf => ?_⟩, fun he ha => ⟨fun t ht => ?_, fun f hf => ?_⟩, ?_, ?_, ?_⟩
  · have hreads : t.envReads = s.envReads := (opFrame_load hl 0).envReads
    refine ⟨?_, State.load_surface (s := s') hl⟩
    rw [hstep _ ha, envEvent_read_ok (s := s') he hl, hreads]
  · exact (hstep _ ha).trans (envEvent_read_error (s := s') he hf)
  · exact (hstep _ ha).trans (envEvent_write_ok (s := s') he ht)
  · exact (hstep _ ha).trans (envEvent_write_error (s := s') he hf)
  · rintro p k rfl h
    exact regWrite_of_clocked s' p k v h
  · intro p hl hp hc
    have hon := Loc.onPort_iff.2 hl
    exact ⟨State.load_of_clockOff (s := s') hp hc hon, State.store_of_clockOff (s := s') hp hc hon v⟩
  · intro he a ha
    exact (hstep a ha).trans (envEvent_off (s := s') he a)

end Sys2Proof

/-! ### What calls keep of the surface and of the module (spec/20_memory.md R52, R59) -/

namespace Sys2Proof

theorem Kind.mem_all (k : Kind) : k ∈ Kind.all := by
  cases k <;> decide

/-- The kinds of registers a command writes (R52, R175, R190). -/
def Instr.writes : Instr → List Kind
  | .init _ => Kind.all
  | .setDir _ _ _ | .refreshDir _ => [.dir]
  | .setMode _ _ _ => [.afen, .muxsel, .amsel, .den]
  | .writeCh _ _ _ | .writePort _ _ | .writeGroup _ _ | .flipCh _ _ => [.data]
  | .readCh _ _ | .readPort _ _ | .readGroup _ => []

end Sys2Proof

namespace Sys2Proof.Machine

/-! #### Assertions about the whole state along a call -/

/-- What every stage of a command `k` but its micro-ops keeps: the surface, and for a command other than `INIT` the
state of the module. -/
structure StageFrame (k : Command) (s t : State) : Prop extends SamePorts s t where
  clken : t.clken = s.clken
  mstate : k.isInit = false → t.mstate = s.mstate
  cfg : k.isInit = false → t.cfg = s.cfg

theorem StageFrame.refl (k : Command) (s : State) : StageFrame k s s := ⟨⟨rfl, rfl⟩, rfl, fun _ => rfl, fun _ => rfl⟩

theorem stageFrame_of_isInit {k : Command} {s t : State} (hk : k.isInit = true) (hp : SamePorts s t)
    (hc : t.clken = s.clken) : StageFrame k s t :=
  ⟨hp, hc, fun h => (nomatch hk.symm.trans h), fun h => (nomatch hk.symm.trans h)⟩

theorem stageFrame_setCtx (k : Command) (s : State) (c : Nat) (x : Ctx) : StageFrame k s (s.setCtx c x) :=
  { StageFrame.refl k s with }

theorem stageFrame_markFault (k : Command) (s : State) (f : Fault) : StageFrame k s (s.markFault f) :=
  { StageFrame.refl k s with }

theorem stageFrame_markRefused (k : Command) (s : State) (r : Refusal) : StageFrame k s (s.markRefused r) :=
  { StageFrame.refl k s with }

theorem stageFrame_issue (k : Command) (c : Nat) (s : State) : StageFrame k s (issue k c s) := by
  unfold issue
  split
  · split
    · exact stageFrame_markFault k s _
    · exact stageFrame_setCtx k s c _
  · exact stageFrame_setCtx k s c _

theorem stageFrame_enterBody (k : Command) (c : Nat) (s : State) : StageFrame k s (enterBody k c s) := by
  unfold enterBody
  split
  · exact stageFrame_markRefused k s _
  · cases hk : k.isInit with
    | true => exact stageFrame_of_isInit hk ⟨rfl, rfl⟩ rfl
    | false => exact stageFrame_setCtx k s c _

theorem stageFrame_guardStep (k : Command) (c : Nat) (s : State) : StageFrame k s (guardStep k c s) := by
  unfold guardStep
  split
  · split
    · exact stageFrame_enterBody k c s
    · exact { StageFrame.refl k s with }
  · split
    · exact stageFrame_markRefused k s _
    · exact stageFrame_enterBody k c s

theorem stageFrame_finStep (k : Command) (c : Nat) (res : Result) (s : State) : StageFrame k s (finStep k c res s) := by
  unfold finStep
  cases hk : k.isInit with
  | true => exact stageFrame_of_isInit hk ⟨rfl, rfl⟩ rfl
  | false => exact stageFrame_setCtx k s c _

theorem stageFrame_complete (k : Command) (c : Nat) (s : State) : StageFrame k s (complete c s) :=
  { StageFrame.refl k s with }

/-- Micro-ops do not look at positions. -/
theorem performOp_setPos {c : Nat} {s : State} (hc : c < s.nctx) (op : MicroOp) (q : Pos) :
    performOp c op (s.setPos c q) = (performOp c op s).map fun t => t.setPos c q := by
  refine (performOp_dress s c { s.ctx c with pos := q } s.cfg op hc).trans ?_
  cases h : performOp c op s with
  | error f => rfl
  | ok t =>
    have hf := performOp_frame h
    have hctx : ({ { s.ctx c with pos := q } with tmp := (t.ctx c).tmp } : Ctx) = { t.ctx c with pos := q } := by
      rw [hf.own]
    simp only [Except.map, State.dress, hctx, ← hf.cfg]
    rfl

theorem OpsEnd.setPos {c : Nat} {E Q : State → Prop} {ops : List MicroOp} {s : State} {q : Pos}
    (h : OpsEnd c E Q ops s) (hc : c < s.nctx) (hE : ∀ t, E t → E (t.setPos c q)) (hQ : ∀ t, Q t → Q (t.setPos c q)) :
    OpsEnd c E Q ops (s.setPos c q) := by
  induction ops generalizing s with
  | nil => exact hQ s h
  | cons op ops ih =>
    rw [OpsEnd] at h ⊢
    rw [performOp_setPos hc]
    cases hop : performOp c op s with
    | error f => rw [hop] at h; exact hE s h
    | ok t => rw [hop] at h; exact ih h ((performOp_frame hop).nctx ▸ hc)

/-- What each micro-op of a list keeps, the list keeps. -/
theorem opsEnd_of_each {R : State → Prop} {ops : List MicroOp}
    (h : ∀ op ∈ ops, ∀ c s t, performOp c op s = .ok t → R s → R t) {c : Nat} {s : State} (hs : R s) :
    OpsEnd c R R ops s := by
  induction ops generalizing s with
  | nil => exact hs
  | cons op ops ih =>
    refine opsEnd_cons (fun _ _ => hs) fun t ht => ih (fun o ho => h o (List.mem_cons_of_mem op ho)) ?_
    exact h op List.mem_cons_self c s t ht hs

section
variable {k : Command} {R : State → Prop} (hR : ∀ s t, StageFrame k s t → R s → R t)
include hR

theorem runItems_keeps {c : Nat} {fin : Pos} {items : List Item} {s : State} (hlive : s.live = true)
    (hc : c < s.nctx) (h : OpsEnd c R R (items.map Prod.snd) s) : R (runItems c fin items s) := by
  induction items generalizing s with
  | nil => exact h
  | cons item rest ih =>
    rw [List.map_cons, OpsEnd] at h
    rw [runItems]
    cases hop : performOp c item.2 s with
    | error f =>
      rw [hop] at h
      rw [itemStep_of_fault hop, State.andThen_of_marked _ _ (State.markFault_not_live s f)]
      exact hR _ _ (stageFrame_markFault k s f) h
    | ok t =>
      rw [hop] at h
      have hf := performOp_frame hop
      have hct : c < t.nctx := hf.nctx ▸ hc
      have hmove : ∀ u, R u → R (u.setPos c (headPos fin rest)) := fun u => hR _ _ (stageFrame_setCtx k u c _)
      have hlt : (t.setPos c (headPos fin rest)).live = true := hf.live.trans hlive
      rw [itemStep_of_ok hop, State.andThen_of_live _ _ hlt]
      exact ih hlt (by rwa [State.setPos_nctx]) (OpsEnd.setPos h hct hmove hmove)

theorem runBody_keeps {c : Nat} {s : State} (hlive : s.live = true) (hc : c < s.nctx) (hs : R s)
    (hbody : ∀ b, k.bodyIn s = .ok b → OpsEnd c R R (b.items.map Prod.snd) s) : R (runBody k c s) := by
  unfold runBody
  split
  · exact hR _ _ (stageFrame_setCtx k s c _) hs
  · split
    · exact hR _ _ (stageFrame_markRefused k s _) hs
    · next b hb =>
      have hrun := runItems_keeps hR (fin := b.finPos) hlive hc (hbody b hb)
      exact State.andThen_intro (fun _ => hrun) fun _ => hR _ _ (stageFrame_finStep k c b.result _) hrun

/-- An assertion that only micro-ops can break, and that the micro-ops of every body of the command keep, is kept by
every call of it, also when it stops at a mark. -/
theorem call_keeps {s t : State} (h : call k s = .next t) (hs : R s)
    (hbody : ∀ u b, k.bodyIn u = .ok b → s.cur < u.nctx → R u → OpsEnd s.cur R R (b.items.map Prod.snd) u) : R t := by
  obtain ⟨_, hi, rfl⟩ := call_next h
  have hissue := hR _ _ (stageFrame_issue k s.cur s) hs
  have hc : s.cur < (guardStep k s.cur (issue k s.cur s)).nctx := by
    rw [(extends_guardStep k s.cur _).nctx, (extends_issue k s.cur s).nctx]
    exact (State.canIssue_iff.1 hi).1
  refine State.andThen_intro (fun _ => hissue) fun _ => ?_
  unfold runIssued
  split
  · exact hR _ _ (stageFrame_complete k _ _) hissue
  · have hguard := hR _ _ (stageFrame_guardStep k s.cur _) hissue
    have hrun := State.andThen_intro (P := R) (fun _ => hguard)
      fun hl => runBody_keeps hR hl hc hguard fun b hb => hbody _ b hb hc hguard
    exact State.andThen_intro (fun _ => hrun) fun _ => hR _ _ (stageFrame_complete k _ _) hrun

end

/-! #### Which kinds a micro-op writes -/

/-- A write of the word changes a register of one of the kinds `ks`, if any: a single-bit word is a bit of `DATA` (R40). -/
def Loc.within (ks : List Kind) : Loc → Prop
  | .reg _ k => k ∈ ks
  | .aliasBit _ _ => .data ∈ ks
  | .clken => False

/-- The micro-op writes no word but of the kinds `ks`. -/
def MicroOp.writesWithin (ks : List Kind) : MicroOp → Prop
  | .load _ => True
  | .store l _ | .update l _ => l.within ks

/-- What a command that writes registers of the kinds `ks` only leaves: the other kinds, `CLKEN` and the state of the
module. -/
structure WritesWithin (ks : List Kind) (s t : State) : Prop where
  clken : t.clken = s.clken
  mstate : t.mstate = s.mstate
  cfg : t.cfg = s.cfg
  stored : ∀ q k, k ∉ ks → (t.port q).stored k = (s.port q).stored k

section
variable {ks : List Kind}

theorem WritesWithin.refl (ks : List Kind) (s : State) : WritesWithin ks s s := ⟨rfl, rfl, rfl, fun _ _ _ => rfl⟩

theorem WritesWithin.trans {s t u : State} (h : WritesWithin ks s t) (g : WritesWithin ks t u) :
    WritesWithin ks s u where
  clken := g.clken.trans h.clken
  mstate := g.mstate.trans h.mstate
  cfg := g.cfg.trans h.cfg
  stored q k hk := (g.stored q k hk).trans (h.stored q k hk)

theorem StageFrame.writesWithin {k : Command} {s t : State} (h : StageFrame k s t) (hk : k.isInit = false) :
    WritesWithin ks s t :=
  ⟨h.clken, h.mstate hk, h.cfg hk, fun q _ _ => by rw [State.port, State.port, h.ports]⟩

theorem writesWithin_load {s t : State} {l : Loc} {v : Word} (h : s.load l = .ok (v, t)) : WritesWithin ks s t := by
  rcases State.load_ok h with rfl | ⟨_, rfl⟩
  · exact .refl ks _
  · exact { WritesWithin.refl ks s with }

theorem writesWithin_setPort {s : State} {p : Nat} {r : PortRegs} (hp : p < s.nports)
    (h : ∀ k, k ∉ ks → r.stored k = (s.port p).stored k) : WritesWithin ks s (s.setPort p r) := by
  refine ⟨rfl, rfl, rfl, fun q k hk => ?_⟩
  by_cases hq : p = q
  · subst hq
    rw [State.port_setPort_same _ _ _ hp, h k hk]
  · rw [State.port_setPort_other _ _ _ _ hq]

theorem writesWithin_store {s t : State} {l : Loc} {v : Word} (hl : l.within ks) (h : s.store l v = .ok t) :
    WritesWithin ks s t := by
  rcases State.store_ok h with ⟨p, k, rfl, hp, rfl⟩ | ⟨rfl, _⟩ | ⟨p, b, rfl, hp, rfl⟩
  · exact writesWithin_setPort hp.1 fun k' hk' =>
      PortRegs.write_stored_other _ _ _ v _ (ne_of_mem_of_not_mem hl hk').symm
  · exact hl.elim
  · refine writesWithin_setPort hp.1 fun k' hk' => ?_
    cases k' with
    | data => exact absurd hl hk'
    | _ => rfl

theorem writesWithin_performOp {c : Nat} {op : MicroOp} {s t : State} (hop : op.writesWithin ks)
    (h : performOp c op s = .ok t) : WritesWithin ks s t := by
  cases op with
  | load l =>
    simp only [performOp] at h
    split at h
    · cases h
    · next hl =>
      cases h
      exact (writesWithin_load hl).trans { WritesWithin.refl ks _ with }
  | store l d => exact writesWithin_store hop h
  | update l d =>
    simp only [performOp] at h
    split at h
    · cases h
    · next hl => exact (writesWithin_load hl).trans (writesWithin_store hop h)

/-! #### Which kinds the bodies write -/

theorem bitUpdate_writesWithin (par : Config) {l : Loc} (hl : l.within ks) (d : Datum) :
    ∀ op ∈ bitUpdate par l d, op.writesWithin ks := by
  unfold bitUpdate
  split
  · exact List.forall_mem_singleton.2 hl
  · exact List.forall_mem_cons.2 ⟨trivial, List.forall_mem_singleton.2 hl⟩

theorem putBitOps_writesWithin (par : Config) (p : Nat) {k : Kind} (hk : k ∈ ks) (b : Bit) (v : Bool) :
    ∀ op ∈ putBitOps par p k b v, op.writesWithin ks := by
  cases v <;> exact bitUpdate_writesWithin par (l := .reg p k) hk _

theorem putNibbleOps_writesWithin (p : Nat) (hk : .muxsel ∈ ks) (b : Bit) (c : BitVec 4) :
    ∀ op ∈ putNibbleOps p b c, op.writesWithin ks :=
  List.forall_mem_cons.2 ⟨trivial, List.forall_mem_singleton.2 hk⟩

theorem directionOps_writesWithin (par : Config) (r : PinRecord) (d : Dir) :
    ∀ op ∈ directionOps par r d, op.writesWithin [.dir] := by
  unfold directionOps
  split
  · exact List.forall_mem_nil _
  · exact putBitOps_writesWithin par r.p List.mem_cons_self r.bit d.bit

theorem refreshItems_writesWithin (par : Config) (j : Nat) (rs : List PinRecord) :
    ∀ op ∈ (refreshItems par j rs).map Prod.snd, op.writesWithin [.dir] := by
  induction rs generalizing j with
  | nil => exact List.forall_mem_nil _
  | cons r rs ih =>
    rw [refreshItems, List.map_append, place_map_snd]
    exact List.forall_mem_append.2 ⟨directionOps_writesWithin par r r.direction, ih (j + 1)⟩

/-- The function-select sequence writes four kinds (R166). -/
theorem functionOps_writesWithin (par : Config) (p : Nat) (b : Bit) (m : Mode)
    (hks : [.afen, .muxsel, .amsel, .den] ⊆ ks) :
    ∀ op ∈ functionOps par p b m, op.writesWithin ks := by
  have ha := putBitOps_writesWithin par p (k := .afen) (hks (by simp)) b
  have hm := putNibbleOps_writesWithin p (hks (by simp)) b
  have hs := putBitOps_writesWithin par p (k := .amsel) (hks (by simp)) b
  have hd := putBitOps_writesWithin par p (k := .den) (hks (by simp)) b
  cases m <;> simp only [functionOps, List.forall_mem_append]
  case gpio => exact ⟨⟨⟨ha false, hm _⟩, hs false⟩, hd true⟩
  case alt k => exact ⟨⟨⟨ha true, hm _⟩, hs false⟩, hd true⟩
  case analog => exact ⟨⟨⟨ha false, hm _⟩, hs true⟩, hd false⟩

end

theorem IsBody.writesWithin {i : Instr} {par : Config} {n : Nat} {g : Word} {b : Body} (h : IsBody par n g i b)
    (hi : (commandOf i).isInit = false) : ∀ op ∈ b.items.map Prod.snd, op.writesWithin i.writes := by
  cases h with
  | init w rs ht => cases hi
  | setDir d pin arg r hr =>
    rw [setDirBody, place_map_snd]
    exact directionOps_writesWithin par r d
  | setMode code pin arg m r hr hm =>
    rw [setModeBody, place_map_snd]
    split
    · exact List.forall_mem_nil _
    · exact functionOps_writesWithin par r.p r.bit m (List.Subset.refl _)
  | refreshDir arg rs ht => exact refreshItems_writesWithin par 0 rs
  | _ => simp [accessBody, MicroOp.writesWithin, Loc.within, PinRecord.aliasWord, Instr.writes]

/-- A command other than `INIT` writes its own kinds of registers and nothing else of the surface or the module, also
when it stops at a mark. -/
theorem exec_writesWithin {i : Instr} {s t : State} (hi : (commandOf i).isInit = false) (h : exec i s = .next t) :
    WritesWithin i.writes s t := by
  rw [exec_eq_call] at h
  refine call_keeps (R := WritesWithin i.writes s) (fun _ _ hf hs => hs.trans (hf.writesWithin hi)) h
    (.refl _ s) fun u b hb _ hu => opsEnd_of_each (fun op hop _ _ _ hok hv => ?_) hu
  exact hv.trans (writesWithin_performOp ((isBody_of_ok hb).writesWithin hi op hop) hok)

/-! #### Access is never withdrawn (spec/20_memory.md R59, R68) -/

/-- Steps 2 to 5 of a record write registers, not `CLKEN` (R161). -/
theorem pinOps_writesWithin (par : Config) (r : PinRecord) : ∀ op ∈ pinOps par r, op.writesWithin Kind.all := by
  have hput := fun k => putBitOps_writesWithin par r.p (Kind.mem_all k) r.bit
  have hunlock : ∀ op ∈ unlockOps par r.p r.bit, op.writesWithin Kind.all :=
    List.forall_mem_cons.2 ⟨Kind.mem_all .lock, hput .commit true⟩
  have hres : ∀ op ∈ resistorOps par r.p r.bit r.resistor, op.writesWithin Kind.all := by
    cases r.resistor with
    | none => exact List.forall_mem_append.2 ⟨hput .pur false, hput .pdr false⟩
    | pullUp => exact List.forall_mem_append.2 ⟨hput .pdr false, hput .pur true⟩
    | pullDown => exact List.forall_mem_append.2 ⟨hput .pur false, hput .pdr true⟩
  have hfun := functionOps_writesWithin par r.p r.bit r.mode fun k _ => Kind.mem_all k
  simp only [pinOps, List.forall_mem_append]
  refine ⟨⟨⟨⟨?_, hput .dir _⟩, ?_⟩, ?_⟩, hfun⟩
  · split
    · exact hunlock
    · exact List.forall_mem_nil _
  · split
    · exact hput .data _
    · exact List.forall_mem_nil _
  · split
    · exact hres
    · exact List.forall_mem_nil _

/-- Clock bit `j` is on. -/
def ClockOn (j : Nat) (s : State) : Prop := s.clken.getLsbD j = true

theorem ClockOn.setBitIn {t : Word} {j : Nat} (h : t.getLsbD j = true) (p : Nat) : (setBitIn t p).getLsbD j = true := by
  rw [setBitIn_bit t p j (BitVec.lt_of_getLsbD h), h, Bool.true_or]

/-- `ClkSet(p)` clears no clock bit: the word it writes is the one just read, with a bit set (R144). -/
theorem ClockOn.clkSetOps {j c : Nat} {s : State} (h : ClockOn j s) (hc : c < s.nctx) (par : Config) (p : Nat) :
    OpsEnd c (ClockOn j) (ClockOn j) (clkSetOps par p) s := by
  unfold Machine.clkSetOps bitUpdate
  split
  · exact ClockOn.setBitIn h p
  · change ((Datum.setBit p).eval ((s.setTmp c s.clken).ctx c).tmp).getLsbD j = true
    rw [State.setTmp, State.ctx_setCtx_same _ _ _ hc]
    exact ClockOn.setBitIn h p

theorem ClockOn.initItems {j c : Nat} {s : State} (h : ClockOn j s) (hc : c < s.nctx) (par : Config) (n : Nat)
    (rs : List PinRecord) : OpsEnd c (ClockOn j) (ClockOn j) ((initItems par n rs).map Prod.snd) s := by
  induction rs generalizing n s with
  | nil => exact h
  | cons r rs ih =>
    rw [Machine.initItems, recordItems, List.map_append, List.map_append, place_map_snd]
    refine ((h.clkSetOps hc par r.p).append hc fun t _ ht => ?_).append hc fun t hct ht => ih ht hct (n + 1)
    split
    · exact ht
    · rw [pinItems_map_snd]
      refine opsEnd_of_each (fun op hop _ u v hok hu => ?_) ht
      rwa [ClockOn, (writesWithin_performOp (pinOps_writesWithin par r op hop) hok).clken]

/-- No call clears a clock bit. -/
theorem exec_clockOn {i : Instr} {s t : State} {j : Nat} (h : exec i s = .next t) (hs : ClockOn j s) : ClockOn j t := by
  cases hi : (commandOf i).isInit with
  | false => rwa [ClockOn, (exec_writesWithin hi h).clken]
  | true =>
    rw [exec_eq_call] at h
    refine call_keeps (fun u v hf hu => by rwa [ClockOn, hf.clken]) h hs fun u b hb hc hu => ?_
    cases isBody_of_ok hb with
    | init w rs ht => exact hu.initItems hc _ 0 rs
    | _ => cases hi

/-- The port still grants what `r₀` granted: commit bit `b`, and the lock open. -/
structure PortRegs.Grants (b : Bit) (r₀ r : PortRegs) : Prop where
  commit : r₀.commit.getLsbD b.val = true → r.commit.getLsbD b.val = true
  unlocked : r₀.locked = false → r.locked = false

/-- Port `p` still grants what `r₀` granted. -/
def GrantsAs (p : Nat) (b : Bit) (r₀ : PortRegs) (q : Nat) (r : PortRegs) : Prop := q = p → PortRegs.Grants b r₀ r

theorem PortRegs.Grants.putBit {b i : Bit} {r₀ r : PortRegs} (h : PortRegs.Grants b r₀ r) (par : Config) {k : Kind}
    {v : Bool} (he : PinEdit k v) : PortRegs.Grants b r₀ (r.putBit par k i v) where
  commit hb := he.commit_bit par i (h.commit hb)
  unlocked hl := (PortRegs.write_locked par k _ r he.lock).trans (h.unlocked hl)

theorem pinSteps_grantsAs (par : Config) (n p q : Nat) (b i : Bit) (r₀ : PortRegs) :
    PinSteps par n (GrantsAs p b r₀) q i := by
  have hkeep : PinKeeps par (GrantsAs p b r₀) q i :=
    { put := fun _ _ _ he _ _ hr hq => (hr hq).putBit par he
      nibble := fun c r hr hq => ⟨fun hb => by rw [PortRegs.putNibble_commit]; exact (hr hq).commit hb, (hr hq).unlocked⟩
      unlock := fun _ hr hq => ⟨(hr hq).commit, fun _ => rfl⟩ }
  exact hkeep.pinSteps fun _ v _ hk hr hq => (hr hq).putBit par (pinEdit_resistor v hk)

/-- No call clears a commit bit or closes a lock. -/
theorem exec_grants {i : Instr} {s t : State} (h : exec i s = .next t) (p : Nat) (b : Bit) :
    PortRegs.Grants b (s.port p) (t.port p) := by
  obtain ⟨_, hn, hΦ⟩ := exec_portsHave (Φ := GrantsAs p b (s.port p)) h
    (fun _ _ _ hr hq => ⟨(hr hq).commit, (hr hq).unlocked⟩) (fun q j _ => pinSteps_grantsAs s.par s.nports p q b j _)
    fun q _ hq => hq ▸ ⟨id, id⟩
  rcases Nat.lt_or_ge p s.nports with hp | hp
  · exact hΦ p hp rfl
  · rw [State.port_of_ge hp, State.port_of_ge (hn ▸ hp)]
    exact ⟨id, id⟩

end Sys2Proof.Machine

namespace Sys2Proof

open Machine

/-- Settles O53: `CLKEN` and `COMMIT` are only written with a bit set in the word just read, and `LOCK` only with the
key. -/
theorem commandsNeverWithdrawAccess : Obligations.CommandsNeverWithdrawAccess :=
  fun _ _ _ p b h => ⟨exec_clockOn h, (exec_grants h p b).commit, (exec_grants h p b).unlocked⟩

/-- Settles O55: each command's micro-ops write registers of its own kinds. -/
theorem commandsWriteOnlyTheirKinds : Obligations.CommandsWriteOnlyTheirKinds := by
  intro i s t hi h
  have hinit : (commandOf i).isInit = false := by
    cases i with
    | init w => exact absurd rfl (hi w)
    | _ => rfl
  have hw := exec_writesWithin hinit h
  refine ⟨hw.clken, hw.mstate, hw.cfg, fun q k hk => ?_⟩
  have hmem : k ∈ i.writes := by
    by_contra hn
    exact hk (hw.stored q k hn)
  cases i with
  | init w => cases hinit
  | readCh | readPort | readGroup => exact absurd hmem List.not_mem_nil
  | _ => simpa only [Instr.writes, List.mem_cons, List.not_mem_nil, or_false] using hmem

end Sys2Proof

/-! ### Encodings of commands (spec/30_encoding.md R90 to R101) -/

namespace Sys2Proof

@[simp] theorem cmdVal_cmdWord (opc val : Byte) (idx : BitVec 16) : cmdVal (cmdWord opc val idx) = val := by
  rw [cmdVal, cmdWord, BitVec.extractLsb'_append_eq_of_le (Nat.le_refl 16)]
  exact BitVec.extractLsb'_append_eq_right

@[simp] theorem cmdIdx_cmdWord (opc val : Byte) (idx : BitVec 16) : cmdIdx (cmdWord opc val idx) = idx :=
  BitVec.extractLsb'_append_eq_right

/-! #### Decoding what was encoded -/

@[simp] theorem decodeNoOperand_cmdWord (opc : Byte) (i : Instr) :
    decodeNoOperand (cmdWord opc 0#8 0#16) i = .ok i := by
  simp [decodeNoOperand]

@[simp] theorem decodeIndex_cmdWord (opc : Byte) (idx : BitVec 16) (f : BitVec 16 → Instr) :
    decodeIndex (cmdWord opc 0#8 idx) f = .ok (f idx) := by
  simp [decodeIndex]

@[simp] theorem dirOfVal_valOfDir (d : Dir) : dirOfVal (valOfDir d) = some d := by
  cases d <;> rfl

@[simp] theorem levelOfVal_valOfLevel (l : Level) : levelOfVal (valOfLevel l) = some l := by
  cases l <;> rfl

/-- The opcode tells the command (R101), and its format gives the operands back (R93 to R98). -/
theorem decode_encode (i : Instr) : decode (cmdOf i) (argOf i) = .ok i := by
  cases i <;> simp [decode, cmdOf, argOf, encode]

theorem decode_eq_ok_iff {cmd arg : Word} {i : Instr} : decode cmd arg = .ok i ↔ cmdOf i = cmd ∧ argOf i = arg := by
  refine ⟨encode_of_decode, ?_⟩
  rintro ⟨rfl, rfl⟩
  exact decode_encode i

/-- Settles O1: each command's fields are read back from its word, and a word's fields make up the word. -/
theorem encodedCommandsDecodeToThemselves : Obligations.EncodedCommandsDecodeToThemselves :=
  ⟨decode_encode, fun _ _ _ => encode_of_decode⟩

/-- Settles O3, by running the decoder. -/
theorem writtenOutWordsDecode : Obligations.WrittenOutWordsDecode := by
  unfold Obligations.WrittenOutWordsDecode
  decide

/-! #### Words of a row of the opcode table (R92 to R98)

A word that matches a row is rebuilt from the fields that the row's mask leaves free. -/

section
variable {cmd mask w : Word} {opc val : Byte}

theorem cmdOpc_of_match (h : cmd &&& mask = w) : cmdOpc cmd &&& cmdOpc mask = cmdOpc w :=
  BitVec.extractLsb'_and.symm.trans (congrArg cmdOpc h)

theorem cmdVal_of_match (h : cmd &&& mask = w) : cmdVal cmd &&& cmdVal mask = cmdVal w :=
  BitVec.extractLsb'_and.symm.trans (congrArg cmdVal h)

/-- A row whose mask looks at the whole opcode fixes it. -/
theorem cmdWord_of_match (h : cmd &&& mask = cmdWord opc 0 0) (hm : cmdOpc mask = BitVec.allOnes 8)
    (hv : cmdVal cmd = val) : cmdWord opc val (cmdIdx cmd) = cmd := by
  have ho := cmdOpc_of_match h
  rw [hm, BitVec.and_allOnes, cmdOpc_cmdWord] at ho
  exact cmdWord_eq ho hv rfl

/-- The rows of formats P, PA and HV, where `VAL` must be zero. -/
theorem cmdWord_of_indexRow (h : cmd &&& 0xFFFF0000 = cmdWord opc 0 0) : cmdWord opc 0 (cmdIdx cmd) = cmd := by
  have hv := cmdVal_of_match h
  rw [show cmdVal 0xFFFF0000 = BitVec.allOnes 8 from rfl, BitVec.and_allOnes, cmdVal_cmdWord] at hv
  exact cmdWord_of_match h rfl hv

/-- The rows of formats Z and H, which leave nothing free. -/
theorem cmdWord_of_fixedRow (h : cmd &&& 0xFFFFFFFF = cmdWord opc 0 0) : cmdWord opc 0 0 = cmd :=
  h.symm.trans BitVec.and_allOnes

end

theorem eq_zero_or_one_of_and {v : Byte} (h : v &&& 0xFE = 0) : v = 0 ∨ v = 1 := by
  revert v
  decide

theorem exists_valOfDir {v : Byte} (h : v &&& 0xFE = 0) : ∃ d, v = valOfDir d := by
  rcases eq_zero_or_one_of_and h with rfl | rfl
  · exact ⟨.input, rfl⟩
  · exact ⟨.output, rfl⟩

theorem exists_valOfLevel {v : Byte} (h : v &&& 0xFE = 0) : ∃ l, v = valOfLevel l := by
  rcases eq_zero_or_one_of_and h with rfl | rfl
  · exact ⟨.low, rfl⟩
  · exact ⟨.high, rfl⟩

theorem Instr.encodesItsRow (i : Instr) : Laws.EncodesItsRow.Statement i := by
  cases i with
  | init h => exact Laws.EncodesItsRow.init h
  | setDir d pin arg => exact Laws.EncodesItsRow.setDir d pin arg
  | setMode code pin arg => exact Laws.EncodesItsRow.setMode code pin arg
  | refreshDir arg => exact Laws.EncodesItsRow.refreshDir arg
  | readCh pin arg => exact Laws.EncodesItsRow.readCh pin arg
  | writeCh l pin arg => exact Laws.EncodesItsRow.writeCh l pin arg
  | readPort port arg => exact Laws.EncodesItsRow.readPort port arg
  | writePort port value => exact Laws.EncodesItsRow.writePort port value
  | readGroup h => exact Laws.EncodesItsRow.readGroup h
  | writeGroup value h => exact Laws.EncodesItsRow.writeGroup value h
  | flipCh pin arg => exact Laws.EncodesItsRow.flipCh pin arg

end Sys2Proof

namespace Sys2Proof.Machine

/-! #### Legal and illegal pairs (R101, R120) -/

theorem legal_of_encode {par : Config} {cmd : Word} (i : Instr) (hc : cmdOf i = cmd) (hw : i.wellFormed par = true) :
    Legal par cmd (argOf i) = true :=
  legal_iff.2 ⟨i, decode_eq_ok_iff.2 ⟨hc, rfl⟩, hw⟩

theorem step_call {s : State} (hu : Unmarked s) {c : Nat} {cmd arg : Word} {rest : List Event}
    (ha : s.agenda = .call c cmd arg :: rest) : step s = stepCall cmd arg (s.fetchCall c rest) := by
  simp only [step, hu.1, hu.2, ha, stepEvent]

section
variable {s : State} (hi : s.canIssue s.cur = true)
include hi

/-- Issue puts an illegal command straight to FINISH, and Complete answers it (R120, R232). -/
theorem callIllegal_eq_answeredIllegal (cmd arg : Word) :
    callIllegal cmd arg s = .next (s.answeredIllegal cmd arg) := by
  rw [callIllegal, if_pos hi]
  simp only [complete, issueIllegal, State.ctx_setCtx_same _ _ _ (State.canIssue_iff.1 hi).1, State.setCtx_setCtx]
  rfl

/-- A command that the build lacks is an illegal command (R101). -/
theorem call_of_absent {k : Command} (hu : Unmarked s) (hk : k.present s.par = false) :
    call k s = callIllegal k.cmd k.arg s := by
  have hissue : issue k s.cur s = issueIllegal s.cur k.cmd k.arg s := by
    simp [issue, hk]
  have hph : ((issueIllegal s.cur k.cmd k.arg s).ctx s.cur).pos.ph = .finish := by
    rw [issueIllegal, State.ctx_setCtx_same _ _ _ (State.canIssue_iff.1 hi).1]
    rfl
  have hlive : (issueIllegal s.cur k.cmd k.arg s).live = true := (State.live_iff s).2 hu
  simp only [call, callIllegal, hu.1, hu.2, hi, if_true, hissue, State.andThen_of_live _ _ hlive, runIssued, hph]

theorem stepCall_of_illegal {cmd arg : Word} (hu : Unmarked s) (hl : Legal s.par cmd arg = false) :
    stepCall cmd arg s = callIllegal cmd arg s := by
  cases hd : decode cmd arg with
  | error e => simp only [stepCall, hd]
  | ok i =>
    obtain ⟨hcmd, harg⟩ := encode_of_decode hd
    have hk : (commandOf i).present s.par = false := by
      simpa only [commandOf_present, Legal, hd] using hl
    simp only [stepCall, hd]
    rw [exec_eq_call, call_of_absent hi hu hk, commandOf_cmd, commandOf_arg, hcmd, harg]

end

end Sys2Proof.Machine

namespace Sys2Proof

open Machine

/-- Settles O2: the word of each command lies in the command's row, and each row's words are words of its command. -/
theorem legalWordsAreTheTableRows : Obligations.LegalWordsAreTheTableRows := by
  intro par cmd arg
  constructor
  · intro h
    obtain ⟨i, hd, hw⟩ := legal_iff.1 h
    obtain ⟨rfl, -⟩ := encode_of_decode hd
    have hrow := i.encodesItsRow
    cases i with
    | setMode => exact .inr (.inl ⟨hw, hrow⟩)
    | flipCh => exact .inr (.inr ⟨hw, hrow⟩)
    | _ => exact .inl (List.any_eq_true.2 ⟨_, by simp [Laws.EncodesItsRow.row], beq_iff_eq.2 hrow⟩)
  · simp only [List.any_cons, List.any_nil, Bool.or_eq_true, beq_iff_eq, Bool.false_eq_true, or_false, or_assoc]
    rintro (h | h | h | h | h | h | h | h | h | ⟨hw, h⟩ | ⟨hw, h⟩)
    · exact legal_of_encode (.init arg) (cmdWord_of_fixedRow h) rfl
    · obtain ⟨d, hd⟩ := exists_valOfDir (cmdVal_of_match h)
      exact legal_of_encode (.setDir d (cmdIdx cmd) arg) (cmdWord_of_match h rfl hd) rfl
    · exact legal_of_encode (.refreshDir arg) (cmdWord_of_fixedRow h) rfl
    · exact legal_of_encode (.readCh (cmdIdx cmd) arg) (cmdWord_of_indexRow h) rfl
    · obtain ⟨l, hl⟩ := exists_valOfLevel (cmdVal_of_match h)
      exact legal_of_encode (.writeCh l (cmdIdx cmd) arg) (cmdWord_of_match h rfl hl) rfl
    · exact legal_of_encode (.readPort (cmdIdx cmd) arg) (cmdWord_of_indexRow h) rfl
    · exact legal_of_encode (.writePort (cmdIdx cmd) arg) (cmdWord_of_indexRow h) rfl
    · exact legal_of_encode (.readGroup arg) (cmdWord_of_fixedRow h) rfl
    · exact legal_of_encode (.writeGroup (cmdIdx cmd) arg) (cmdWord_of_indexRow h) rfl
    · exact legal_of_encode (.setMode (cmdVal cmd) (cmdIdx cmd) arg) (cmdWord_of_match h rfl rfl) hw
    · exact legal_of_encode (.flipCh (cmdIdx cmd) arg) (cmdWord_of_indexRow h) hw

/-- Settles O18: whether the pair does not decode or its command is absent, the call is Issue to FINISH and Complete. -/
theorem illegalPairsCompleteWithIll : Obligations.IllegalPairsCompleteWithIll := by
  intro s c cmd arg rest hu ha hc hl
  have hi : (s.fetchCall c rest).canIssue (s.fetchCall c rest).cur = true := hc
  rw [step_call hu ha, stepCall_of_illegal hi hu hl, callIllegal_eq_answeredIllegal hi]

end Sys2Proof

/-! ### Modes, resistors and record words (spec/30_encoding.md R105 to R107) -/

namespace Sys2Proof.Machine

/-- The mode codes are those of the modes of R48, of which alt 0 is none. -/
theorem Mode.ofCode_eq_some_iff {c : Byte} {m : Mode} : Mode.ofCode c = some m ↔ m.code = c ∧ m ≠ .alt 0 := by
  constructor
  · intro h
    unfold Mode.ofCode at h
    split at h
    · next hc => cases h; exact ⟨hc.symm, nofun⟩
    · next hc =>
      split at h
      · next hle =>
        cases h
        have hcode : (c.setWidth 4).setWidth 8 = c := by
          apply BitVec.eq_of_toNat_eq
          simp only [BitVec.toNat_setWidth]
          omega
        refine ⟨hcode, fun h0 => hc ?_⟩
        rw [← hcode, Mode.alt.inj h0]
        rfl
      · split at h
        · next hmax => cases h; exact ⟨BitVec.eq_of_toNat_eq hmax.symm, nofun⟩
        · cases h
  · rintro ⟨rfl, hm⟩
    cases m with
    | gpio | analog => rfl
    | alt k =>
      revert k
      decide

theorem Mode.ofCode_isSome (c : Byte) : (Mode.ofCode c).isSome = true ↔ c.toNat ≤ modeMax := by
  unfold Mode.ofCode modeMax
  split
  · next hc => simp [hc]
  · split
    · simp only [Option.isSome_some, true_iff]; omega
    · split
      · simp only [Option.isSome_some, true_iff]; omega
      · simp only [Option.isSome_none, Bool.false_eq_true, false_iff]; omega

theorem Resistor.ofField_eq_some_iff {f : BitVec 2} {r : Resistor} : Resistor.ofField f = some r ↔ r.field = f := by
  revert f
  cases r <;> decide

theorem Resistor.ofField_isSome (f : BitVec 2) : (Resistor.ofField f).isSome = true ↔ f ≠ 3#2 := by
  revert f
  decide

@[simp] theorem dir_of_bit (d : Dir) : (if d.bit then Dir.output else Dir.input) = d := by
  cases d <;> rfl

@[simp] theorem level_of_bit (l : Level) : (if l.bit then Level.high else Level.low) = l := by
  cases l <;> rfl

@[simp] theorem bit_of_dir (v : Bool) : (if v then Dir.output else Dir.input).bit = v := by
  cases v <;> rfl

@[simp] theorem bit_of_level (v : Bool) : (if v then Level.high else Level.low).bit = v := by
  cases v <;> rfl

/-- A field of one bit is that bit. -/
theorem extractLsb'_one_eq_iff {w : Word} {i : Nat} {v : Bool} :
    w.extractLsb' i 1 = BitVec.ofBool v ↔ w.getLsbD i = v := by
  have hbit : w.extractLsb' i 1 = BitVec.ofBool (w.getLsbD i) := by
    apply BitVec.eq_of_getLsbD_eq
    intro j hj
    obtain rfl : j = 0 := by omega
    simp [BitVec.getLsbD_extractLsb', BitVec.getLsbD_ofBool, -BitVec.getLsbD_eq_getElem]
  rw [hbit, BitVec.ofBool_eq_iff_eq]

/-- The nine fields of the record word `w` are those of `r` (R105). -/
structure PinRecord.HasFields (r : PinRecord) (w : Word) : Prop where
  zero : w.extractLsb' 25 7 = 0
  modeChangeable : w.extractLsb' 24 1 = BitVec.ofBool r.modeChangeable
  dirChangeable : w.extractLsb' 23 1 = BitVec.ofBool r.dirChangeable
  initial : w.extractLsb' 22 1 = BitVec.ofBool r.initial.bit
  resistor : w.extractLsb' 20 2 = r.resistor.field
  direction : w.extractLsb' 19 1 = BitVec.ofBool r.direction.bit
  bit : w.extractLsb' 16 3 = BitVec.ofNat 3 r.bit.val
  mode : w.extractLsb' 8 8 = r.mode.code
  port : w.extractLsb' 0 8 = r.port

/-- Neighbouring fields of `w` join to a field, and all nine to `w`. -/
theorem PinRecord.word_of_hasFields {r : PinRecord} {w : Word} (h : r.HasFields w) : r.word = w := by
  rw [PinRecord.word, ← h.modeChangeable, ← h.dirChangeable, ← h.initial, ← h.resistor, ← h.direction, ← h.bit,
    ← h.mode, ← h.port, ← h.zero]
  repeat rw [BitVec.extractLsb'_append_extractLsb'_eq_extractLsb' (by rfl)]
  exact BitVec.extractLsb'_eq_self

/-- Each field is reached by taking the fields below it off the word. -/
theorem PinRecord.hasFields_word (r : PinRecord) : r.HasFields r.word := by
  constructor
  all_goals
    rw [PinRecord.word]
    repeat rw [BitVec.extractLsb'_append_eq_of_le (by decide)]
  case zero => exact BitVec.extractLsb'_eq_self
  all_goals exact BitVec.extractLsb'_append_eq_right

theorem PinRecord.word_eq_iff {r : PinRecord} {w : Word} : r.word = w ↔ r.HasFields w :=
  ⟨fun h => h ▸ r.hasFields_word, PinRecord.word_of_hasFields⟩

/-- The record word and its record determine each other (R105, R106). -/
theorem PinRecord.ofWord_eq_some_iff {w : Word} {r : PinRecord} :
    PinRecord.ofWord w = some r ↔ r.word = w ∧ r.mode ≠ .alt 0 := by
  rw [PinRecord.word_eq_iff]
  constructor
  · intro h
    unfold PinRecord.ofWord at h
    split at h
    · next m res hm hres =>
      obtain ⟨hcode, hne⟩ := Mode.ofCode_eq_some_iff.1 hm
      have hfield := Resistor.ofField_eq_some_iff.1 hres
      have hbit : w.extractLsb' 16 3 = BitVec.ofNat 3 (w.extractLsb' 16 3).toNat :=
        ((BitVec.ofNat_toNat _ _).trans (BitVec.setWidth_eq _)).symm
      split at h
      · next hz =>
        cases h
        exact ⟨⟨hz, extractLsb'_one_eq_iff.2 rfl, extractLsb'_one_eq_iff.2 rfl,
          extractLsb'_one_eq_iff.2 (bit_of_level _).symm, hfield.symm, extractLsb'_one_eq_iff.2 (bit_of_dir _).symm,
          hbit, hcode.symm, rfl⟩, hne⟩
      · cases h
    · cases h
  · rintro ⟨h, hne⟩
    have hm := Mode.ofCode_eq_some_iff.2 ⟨h.mode.symm, hne⟩
    have hres := Resistor.ofField_eq_some_iff.2 h.resistor.symm
    have hdir := extractLsb'_one_eq_iff.1 h.direction
    have hlevel := extractLsb'_one_eq_iff.1 h.initial
    have hdirc := extractLsb'_one_eq_iff.1 h.dirChangeable
    have hmodec := extractLsb'_one_eq_iff.1 h.modeChangeable
    simp [PinRecord.ofWord, hm, hres, h.zero, h.port, h.bit, hdir, hlevel, hdirc, hmodec,
      -BitVec.getLsbD_eq_getElem]

theorem PinRecord.ofWord_isSome (w : Word) : (PinRecord.ofWord w).isSome = true ↔
    (Resistor.ofField (w.extractLsb' 20 2)).isSome = true ∧ (Mode.ofCode (w.extractLsb' 8 8)).isSome = true ∧
      w.extractLsb' 25 7 = 0#7 := by
  unfold PinRecord.ofWord
  cases Mode.ofCode (w.extractLsb' 8 8) with
  | none => simp
  | some m =>
    cases Resistor.ofField (w.extractLsb' 20 2) with
    | none => simp
    | some res => simp

end Sys2Proof.Machine

namespace Sys2Proof

open Machine

/-- Settles O4: decoding reads the nine fields that make up the word, and refuses by three of them alone. -/
theorem recordWordsRoundTrip : Obligations.RecordWordsRoundTrip := by
  refine ⟨fun w r h => (PinRecord.ofWord_eq_some_iff.1 h).1, fun r h => PinRecord.ofWord_eq_some_iff.2 ⟨rfl, h⟩,
    fun w => ?_⟩
  rw [PinRecord.ofWord_isSome, Resistor.ofField_isSome, Mode.ofCode_isSome]

end Sys2Proof

/-! ### Issue, GUARD and Complete (spec/40_sequencer_common.md R130 to R149) -/

namespace Sys2Proof.Machine

/-! #### The head of the agenda -/

theorem step_of_agenda {s : State} (hu : Unmarked s) {e : Event} {rest : List Event} (ha : s.agenda = e :: rest) :
    step s = stepEvent e rest s := by
  simp only [step, hu.1, hu.2, ha]

/-! #### Issue -/

theorem isInit_eq_beq (i : Instr) : (commandOf i).isInit = (cmdOf i == initWord) := by
  rw [Bool.eq_iff_iff, commandOf_isInit, beq_iff_eq]

theorem issue_of_clash {k : Command} {c : Nat} {s : State} (hp : k.present s.par = true)
    (hc : initClash k.isInit c s = true) : issue k c s = s.markFault .initReentered := by
  rw [issue, if_pos hp, if_pos hc]

theorem issue_of_noClash {k : Command} {c : Nat} {s : State} (hp : k.present s.par = true)
    (hc : initClash k.isInit c s = false) : issue k c s = s.setCtx c ((s.ctx c).latch k.cmd k.arg .guard) := by
  rw [issue, if_pos hp, if_neg (Bool.eq_false_iff.1 hc)]

theorem issue_of_absent {k : Command} {c : Nat} {s : State} (hp : k.present s.par = false) :
    issue k c s = issueIllegal c k.cmd k.arg s := by
  rw [issue, if_neg (Bool.eq_false_iff.1 hp)]

section
variable {s : State} {c : Nat} {cmd arg : Word} (hi : s.canIssue c = true)
include hi

theorem issueEvent_of_decode {i : Instr} (hd : decode cmd arg = .ok i) :
    issueEvent c cmd arg s = .next (issue (commandOf i) c s) := by
  rw [issueEvent, if_pos hi, hd]

/-- A pair that does not decode and a command the build lacks are issued alike (R120). -/
theorem issueEvent_of_illegal (hl : Legal s.par cmd arg = false) :
    issueEvent c cmd arg s = .next (issueIllegal c cmd arg s) := by
  cases hd : decode cmd arg with
  | error e => rw [issueEvent, if_pos hi, hd]
  | ok i =>
    obtain ⟨rfl, rfl⟩ := encode_of_decode hd
    have hp : (commandOf i).present s.par = false := by
      simpa only [commandOf_present, Legal, hd] using hl
    rw [issueEvent_of_decode hi hd, issue_of_absent hp, commandOf_cmd, commandOf_arg]

/-- A lawful pair meets the clash test of R149 as the command it decodes to. -/
theorem issueEvent_of_legal (hl : Legal s.par cmd arg = true) :
    ∃ i, issueEvent c cmd arg s = .next (issue (commandOf i) c s) ∧ (commandOf i).present s.par = true ∧
      (commandOf i).isInit = (cmd == initWord) ∧ (commandOf i).cmd = cmd ∧ (commandOf i).arg = arg := by
  obtain ⟨i, hd, hw⟩ := legal_iff.1 hl
  obtain ⟨rfl, rfl⟩ := encode_of_decode hd
  exact ⟨i, issueEvent_of_decode hi hd, (commandOf_present i s.par).trans hw, isInit_eq_beq i, commandOf_cmd i,
    commandOf_arg i⟩

theorem issueEvent_of_clash (hl : Legal s.par cmd arg = true) (hc : initClash (cmd == initWord) c s = true) :
    issueEvent c cmd arg s = .next (s.markFault .initReentered) := by
  obtain ⟨i, hissue, hp, hinit, _, _⟩ := issueEvent_of_legal hi hl
  rw [hissue, issue_of_clash hp (hinit ▸ hc)]

theorem issueEvent_of_noClash (hl : Legal s.par cmd arg = true) (hc : initClash (cmd == initWord) c s = false) :
    issueEvent c cmd arg s = .next (s.setCtx c ((s.ctx c).latch cmd arg .guard)) := by
  obtain ⟨i, hissue, hp, hinit, hcmd, harg⟩ := issueEvent_of_legal hi hl
  rw [hissue, issue_of_noClash hp (hinit ▸ hc), hcmd, harg]

end

/-- Another context that is not idle, and an `INIT` on either side (R149). -/
theorem initClash_iff {isInit : Bool} {c : Nat} {s : State} :
    initClash isInit c s = true ↔
      ∃ d x, d ≠ c ∧ s.ctxs[d]? = some x ∧ x.pos.ph ≠ .idle ∧ (isInit = true ∨ x.cmd = initWord) := by
  have hmem : ∀ x, x ∈ s.others c ↔ ∃ d, d ≠ c ∧ s.ctxs[d]? = some x :=
    fun _ => List.mem_eraseIdx_iff_getElem?
  simp only [initClash, Bool.or_eq_true, Bool.and_eq_true, List.any_eq_true, bne_iff_ne, Ctx.holdsInit_iff, hmem]
  constructor
  · rintro (⟨hi, x, ⟨d, hd, hx⟩, hph⟩ | ⟨x, ⟨d, hd, hx⟩, hph, hcmd⟩)
    · exact ⟨d, x, hd, hx, hph, .inl hi⟩
    · exact ⟨d, x, hd, hx, hph, .inr hcmd⟩
  · rintro ⟨d, x, hd, hx, hph, hi | hcmd⟩
    · exact .inl ⟨hi, x, ⟨d, hd, hx⟩, hph⟩
    · exact .inr ⟨x, ⟨d, hd, hx⟩, hph, hcmd⟩

/-! #### Calls -/

theorem call_of_ready {k : Command} {s : State} (hu : Unmarked s) (hi : s.canIssue s.cur = true) :
    call k s = .next ((issue k s.cur s).andThen (runIssued k s.cur)) := by
  simp only [call, hu.1, hu.2, hi, if_true]

theorem completeEvent_of_finish {c : Nat} {s : State} (h : (s.ctx c).pos.ph = .finish) :
    completeEvent c s = .next (complete c s) := if_pos h

/-! #### Guards -/

/-- `CFG` as the GUARD step of `k` leaves it where it launches: `INIT` latches its operand (R162). -/
def Command.cfgAfter (k : Command) (s : State) : Word := if k.isInit then k.arg else s.cfg

theorem enterBody_of_error {k : Command} {c : Nat} {s : State} {r : Refusal} (h : k.bodyIn s = .error r) :
    enterBody k c s = s.markRefused r := by
  rw [enterBody, h]

theorem enterBody_of_ok {k : Command} {c : Nat} {s : State} {b : Body} (h : k.bodyIn s = .ok b) :
    enterBody k c s = { s with cfg := k.cfgAfter s }.setPos c (headPos b.finPos b.items) := by
  simp only [enterBody, h, Command.cfgAfter]
  split <;> rfl

@[simp] theorem State.ctx_setPos_failf (s : State) (c : Nat) (q : Pos) :
    ((s.setPos c q).ctx c).failf = (s.ctx c).failf := by
  rcases Nat.lt_or_ge c s.nctx with hc | hc
  · rw [State.setPos, State.ctx_setCtx_same _ _ _ hc]
  · rw [State.setPos, State.setCtx_of_ge hc]

theorem enterBody_silent (k : Command) (c : Nat) (s : State) :
    (enterBody k c s).diag = s.diag ∧ ((enterBody k c s).ctx c).failf = (s.ctx c).failf := by
  cases hb : k.bodyIn s with
  | error r =>
    rw [enterBody_of_error hb]
    exact ⟨rfl, rfl⟩
  | ok b =>
    rw [enterBody_of_ok hb]
    exact ⟨rfl, State.ctx_setPos_failf _ c _⟩

theorem guardStep_of_undefined {k : Command} {c : Nat} {s : State} (hg : s.par.guards = false)
    (h : ∃ g ∈ k.failing s, g.mutability = false) : guardStep k c s = s.markRefused .undefinedAccess := by
  rw [guardStep, if_neg (Bool.eq_false_iff.1 hg), if_pos]
  simpa using h


theorem guardStep_of_stripped {k : Command} {c : Nat} {s : State} (hg : s.par.guards = false)
    (h : ∀ g ∈ k.failing s, g.mutability = true) : guardStep k c s = enterBody k c s :=
  guardStep_of_pass (by rwa [GuardsPass, if_neg (Bool.eq_false_iff.1 hg)])

theorem reportsOf_nil (par : Config) (cmd : Word) : reportsOf par cmd [] = [] := by
  simp [reportsOf, reporting]

/-- The first failing guard always reports, the others with `REPORT_ALL` (R133). -/
theorem reportsOf_cons (par : Config) (cmd : Word) (g : Guard) (gs : List Guard) :
    reportsOf par cmd (g :: gs) = reportWord (cmdOpc cmd) g.error ::
      (if par.reportAll then gs.map fun g' => reportWord (cmdOpc cmd) g'.error else []) := by
  simp only [reportsOf, reporting]
  split <;> rfl

/-- The guard, if it fails. -/
def Guard.ifFails (s : State) (cmd arg : Word) (g : Guard) : List Guard := if g.fails s cmd arg then [g] else []

theorem failingGuards_nil (s : State) (cmd arg : Word) : failingGuards [] s cmd arg = [] := rfl

theorem failingGuards_cons (g : Guard) (gs : List Guard) (s : State) (cmd arg : Word) :
    failingGuards (g :: gs) s cmd arg = g.ifFails s cmd arg ++ failingGuards gs s cmd arg := by
  rw [failingGuards, List.filter_cons, Guard.ifFails]
  split <;> rfl

section
variable {s : State} {cmd arg : Word}

theorem Guard.ifFails_eq {g : Guard} {P : Prop} [Decidable P] (h : g.fails s cmd arg = true ↔ ¬P) :
    g.ifFails s cmd arg = if P then [] else [g] := by
  simp only [Guard.ifFails, h, ite_not]

theorem Guard.ifFails_cfg : Guard.cfg.ifFails s cmd arg = if arg = nullHandle then [.cfg] else [] := by
  simp [Guard.ifFails, Guard.fails]

theorem Guard.ifFails_init : Guard.init.ifFails s cmd arg = if s.mstate = .initialized then [] else [.init] :=
  Guard.ifFails_eq (by simp [Guard.fails, State.isInitialized])

theorem Guard.ifFails_pin : Guard.pin.ifFails s cmd arg = if idxOf cmd < s.par.npins then [] else [.pin] :=
  Guard.ifFails_eq (by simp [Guard.fails])

theorem Guard.ifFails_port : Guard.port.ifFails s cmd arg = if idxOf cmd < s.nports then [] else [.port] :=
  Guard.ifFails_eq (by simp [Guard.fails])

theorem Guard.ifFails_ptr : Guard.ptr.ifFails s cmd arg = if arg = nullHandle then [.ptr] else [] := by
  simp [Guard.ifFails, Guard.fails]

theorem Guard.ifFails_mode : Guard.mode.ifFails s cmd arg = if (cmdVal cmd).toNat ≤ modeMax then [] else [.mode] :=
  Guard.ifFails_eq (by simp [Guard.fails])

theorem Guard.ifFails_dirCh {r : PinRecord} (h : s.guardRecord cmd = some r) :
    Guard.dirCh.ifFails s cmd arg = if r.dirChangeable then [] else [.dirCh] :=
  Guard.ifFails_eq (by simp [Guard.fails, h])

theorem Guard.ifFails_modeCh {r : PinRecord} (h : s.guardRecord cmd = some r) :
    Guard.modeCh.ifFails s cmd arg = if r.modeChangeable then [] else [.modeCh] :=
  Guard.ifFails_eq (by simp [Guard.fails, h])

/-- Without a record the mutability guards are not evaluated (R136). -/
theorem Guard.ifFails_of_noRecord (h : s.guardRecord cmd = none) {g : Guard} (hg : g.mutability = true) :
    g.ifFails s cmd arg = [] := by
  cases g with
  | dirCh | modeCh => simp [Guard.ifFails, Guard.fails, h]
  | _ => cases hg

/-- A record is looked up where `G_INIT` and `G_PIN` hold (R136). -/
theorem State.guardRecord_of_inRange (hm : s.mstate = .initialized) (hpin : idxOf cmd < s.par.npins) {r : PinRecord}
    (hr : recordAt s.par s.nports s.cfg (idxOf cmd) = .ok r) : s.guardRecord cmd = some r := by
  simp [State.guardRecord, State.isInitialized, hm, hpin, hr]

theorem State.guardRecord_of_outOfRange (h : ¬(s.mstate = .initialized ∧ idxOf cmd < s.par.npins)) :
    s.guardRecord cmd = none := by
  rw [State.guardRecord, if_neg]
  simpa [State.isInitialized] using h

end

section
variable (s : State) (pin port : BitVec 16) (arg h : Word)

/-- The guards of a command on a pin, `G_INIT` and `G_PIN` first (R135). -/
theorem failingGuards_initPin (opc val : Byte) (gs : List Guard) :
    failingGuards (.init :: .pin :: gs) s (cmdWord opc val pin) arg =
      (if s.mstate = .initialized then [] else [.init]) ++ (if pin.toNat < s.par.npins then [] else [.pin]) ++
        failingGuards gs s (cmdWord opc val pin) arg := by
  simp only [failingGuards_cons, Guard.ifFails_init, Guard.ifFails_pin, idxOf, cmdIdx_cmdWord, List.append_assoc]

theorem failingGuards_initPin_only (opc val : Byte) :
    failingGuards [.init, .pin] s (cmdWord opc val pin) arg =
      (if s.mstate = .initialized then [] else [.init]) ++ (if pin.toNat < s.par.npins then [] else [.pin]) :=
  (failingGuards_initPin s pin arg opc val []).trans (List.append_nil _)

theorem failingGuards_initPort (opc val : Byte) :
    failingGuards [.init, .port] s (cmdWord opc val port) arg =
      (if s.mstate = .initialized then [] else [.init]) ++ (if port.toNat < s.nports then [] else [.port]) := by
  simp only [failingGuards_cons, failingGuards_nil, Guard.ifFails_init, Guard.ifFails_port, idxOf, cmdIdx_cmdWord,
    List.append_nil]

theorem failing_setDir (d : Dir) :
    (commandOf (.setDir d pin arg)).failing s =
      (if s.mstate = .initialized then [] else [.init]) ++ (if pin.toNat < s.par.npins then [] else [.pin]) ++
        Guard.dirCh.ifFails s (cmdWord 0x02 (valOfDir d) pin) arg :=
  (failingGuards_initPin s pin arg _ _ [.dirCh]).trans (by rw [failingGuards_cons, failingGuards_nil, List.append_nil])

theorem failing_setMode (code : Byte) :
    (commandOf (.setMode code pin arg)).failing s =
      (if s.mstate = .initialized then [] else [.init]) ++ (if pin.toNat < s.par.npins then [] else [.pin]) ++
        (Guard.modeCh.ifFails s (cmdWord 0x03 code pin) arg ++ if code.toNat ≤ modeMax then [] else [.mode]) :=
  (failingGuards_initPin s pin arg _ _ [.modeCh, .mode]).trans (by
    rw [failingGuards_cons, failingGuards_cons, failingGuards_nil, List.append_nil, Guard.ifFails_mode, cmdVal_cmdWord])

theorem failingGuards_initPtr (cmd : Word) :
    failingGuards [.init, .ptr] s cmd h =
      (if s.mstate = .initialized then [] else [.init]) ++ (if h = nullHandle then [.ptr] else []) := by
  simp only [failingGuards_cons, failingGuards_nil, Guard.ifFails_init, Guard.ifFails_ptr, List.append_nil]

end

end Sys2Proof.Machine

namespace Sys2Proof

open Machine

/-- Settles O16: the formula masks the nibble out and puts the code in its place. -/
theorem putNibbleChangesOneNibble : Obligations.PutNibbleChangesOneNibble :=
  ⟨putNibbleIn_bit, fun _ _ _ => ⟨rfl, fun _ => rfl⟩, by decide⟩

/-- Settles O17: the call event leaves the agenda, and the pair is decoded. -/
theorem stepRunsTheDecodedCommand : Obligations.StepRunsTheDecodedCommand := by
  intro s c cmd arg rest i hu ha hd
  rw [step_of_agenda hu ha, stepEvent, stepCall, hd]
  rfl

/-- Settles O19: the pair is first decoded, then tested for a clash, and latched last. -/
theorem issueLatchesThePair : Obligations.IssueLatchesThePair := by
  intro s c cmd arg rest hu ha hi
  rw [step_of_agenda hu ha]
  exact ⟨issueEvent_of_illegal (s := { s with agenda := rest }) hi,
    issueEvent_of_clash (s := { s with agenda := rest }) hi,
    issueEvent_of_noClash (s := { s with agenda := rest }) hi⟩

/-- Settles O20: the clash test is made at Issue, and from the mark it sets no stage goes on. -/
theorem overlappingInitFaults : Obligations.OverlappingInitFaults := by
  refine ⟨fun _ _ _ => initClash_iff, fun i s hu hi hw hc => ?_⟩
  have hp : (commandOf i).present s.par = true := (commandOf_present i s.par).trans hw
  rw [exec_eq_call, call_of_ready hu hi, issue_of_clash hp hc, State.andThen_of_marked _ _ (s.markFault_not_live _)]

/-- Settles O21: a finished context enables its Complete. -/
theorem completeHandsOverTheResponse : Obligations.CompleteHandsOverTheResponse := by
  intro s c rest hu ha hph
  rw [step_of_agenda hu ha]
  exact completeEvent_of_finish (s := { s with agenda := rest }) hph

/-- Settles O29: without guards a GUARD step is a refusal or the launch, and neither reports. -/
theorem strippedGuardsRefuseUndefinedAccess : Obligations.StrippedGuardsRefuseUndefinedAccess := by
  intro k c s hg
  refine ⟨guardStep_of_undefined hg, guardStep_of_stripped hg, ?_⟩
  cases hm : (k.failing s).any fun g => !g.mutability with
  | true =>
    rw [guardStep_of_undefined hg (by simpa using hm)]
    exact ⟨rfl, rfl⟩
  | false =>
    rw [guardStep_of_stripped hg (by simpa using hm)]
    exact enterBody_silent k c s

/-- Settles O28: `G_INIT` and the operand guard come first, and a mutability guard needs a record, which they grant. -/
theorem guardsFailInOrder : Obligations.GuardsFailInOrder := by
  refine ⟨?_, by decide, fun par cmd g gs => ⟨reportsOf_nil par cmd, reportsOf_cons par cmd g gs⟩⟩
  intro s pin port v h a d l code notInit badPin badPort badPtr badMode
  refine ⟨?_, ?_, failingGuards_initPin_only s pin a _ _, failingGuards_initPin_only s pin a _ _,
    failingGuards_initPin_only s pin a _ _, failingGuards_initPort s port a _ _, failingGuards_initPort s port a _ _,
    failingGuards_initPtr s h _, failingGuards_initPtr s h _, fun hbad => ?_, fun r hm hr hpin => ?_⟩
  · exact (failingGuards_cons ..).trans ((List.append_nil _).trans Guard.ifFails_cfg)
  · exact (failingGuards_cons ..).trans ((List.append_nil _).trans Guard.ifFails_init)
  · have hnone : ∀ opc val, s.guardRecord (cmdWord opc val pin) = none := fun opc val => by
      refine State.guardRecord_of_outOfRange fun ⟨hm, hpin⟩ => hbad ?_
      rw [idxOf, cmdIdx_cmdWord] at hpin
      simp only [notInit, badPin, hm, hpin, if_true, List.append_nil]
    rw [failing_setDir, failing_setMode, Guard.ifFails_of_noRecord (hnone _ _) rfl,
      Guard.ifFails_of_noRecord (hnone _ _) rfl]
    exact ⟨List.append_nil _, rfl⟩
  · have hsome : ∀ opc val, s.guardRecord (cmdWord opc val pin) = some r := fun opc val => by
      apply State.guardRecord_of_inRange hm <;> rwa [idxOf, cmdIdx_cmdWord]
    rw [failing_setDir, failing_setMode, if_pos hm, if_pos hpin, Guard.ifFails_dirCh (hsome _ _),
      Guard.ifFails_modeCh (hsome _ _)]
    exact ⟨rfl, rfl⟩

end Sys2Proof

/-! ### The items of a body in their order (spec/40_sequencer_common.md R131)

Positions are ordered by record, then phase, then micro-op. The items of a body stand in this order, FIN after all of
them, so a position tells the item and every step moves the position on. -/

namespace Sys2Proof.Machine

/-- The place of a phase in the order of R25. -/
def Phase.rank : Phase → Nat
  | .idle => 0
  | .guard => 1
  | .clk => 2
  | .unlock => 3
  | .dirp => 4
  | .datap => 5
  | .resp => 6
  | .funcp => 7
  | .access => 8
  | .finish => 9

/-- A place in the order of positions: record, phase, micro-op. -/
abbrev Place : Type := Nat ×ₗ Nat ×ₗ Nat

/-- Micro-op `j` of a phase of record `n`. -/
def Place.mk (n : Nat) (ph : Phase) (j : Nat) : Place := toLex (n, toLex (ph.rank, j))

/-- Where a position stands in the order. -/
def Pos.place (q : Pos) : Place := Place.mk q.record q.ph q.sub

section
variable {n m j k : Nat} {ph ph' : Phase}

theorem Place.le_of_sub (h : j ≤ k) : Place.mk n ph j ≤ Place.mk n ph k := by
  simpa [Place.mk, Prod.Lex.toLex_le_toLex] using h

theorem Place.lt_of_sub (h : j < k) : Place.mk n ph j < Place.mk n ph k := by
  simpa [Place.mk, Prod.Lex.toLex_lt_toLex] using h

theorem Place.lt_of_rank (h : ph.rank < ph'.rank) : Place.mk n ph j < Place.mk n ph' k := by
  simp [Place.mk, Prod.Lex.toLex_lt_toLex, h]

theorem Place.lt_of_record (h : n < m) : Place.mk n ph j < Place.mk m ph' k := by
  simp [Place.mk, Prod.Lex.toLex_lt_toLex, h]

end

/-- The items stand in order, from `lo` on and before `hi`. -/
structure Climbs (lo hi : Place) (xs : List Item) : Prop where
  sorted : xs.Pairwise fun x y => x.1.place < y.1.place
  le : lo ≤ hi
  ge : ∀ x ∈ xs, lo ≤ x.1.place
  lt : ∀ x ∈ xs, x.1.place < hi

section
variable {lo lo' mid hi hi' : Place} {xs ys : List Item}

theorem Climbs.nil (h : lo ≤ hi) : Climbs lo hi [] := 
  ⟨.nil, h, List.forall_mem_nil _, List.forall_mem_nil _⟩

theorem Climbs.append (hx : Climbs lo mid xs) (hy : Climbs mid hi ys) : Climbs lo hi (xs ++ ys) where
  sorted := List.pairwise_append.2 ⟨hx.sorted, hy.sorted, fun x hxs y hys => (hx.lt x hxs).trans_le (hy.ge y hys)⟩
  le := hx.le.trans hy.le
  ge := List.forall_mem_append.2 ⟨hx.ge, fun y hys => hx.le.trans (hy.ge y hys)⟩
  lt := List.forall_mem_append.2 ⟨fun x hxs => (hx.lt x hxs).trans_le hy.le, hy.lt⟩

theorem Climbs.weaken (h : Climbs lo hi xs) (hlo : lo' ≤ lo) (hhi : hi ≤ hi') : Climbs lo' hi' xs :=
  ⟨h.sorted, (hlo.trans h.le).trans hhi, fun x hx => hlo.trans (h.ge x hx), fun x hx => (h.lt x hx).trans_le hhi⟩

end

theorem climbs_place (n : Nat) (ph : Phase) (j : Nat) (ops : List MicroOp) :
    Climbs (.mk n ph j) (.mk n ph (j + ops.length)) (place n ph j ops) := by
  induction ops generalizing j with
  | nil => exact .nil (Place.le_of_sub (Nat.le_refl j))
  | cons op ops ih =>
    have hrest := ih (j + 1)
    have hj : Place.mk n ph j < Place.mk n ph (j + 1) := Place.lt_of_sub (Nat.lt_succ_self j)
    have hone : Climbs (.mk n ph j) (.mk n ph (j + 1)) [(⟨n, ph, j⟩, op)] :=
      ⟨List.pairwise_singleton _ _, hj.le, List.forall_mem_singleton.2 (Place.le_of_sub (Nat.le_refl j)),
        List.forall_mem_singleton.2 hj⟩
    have hlen : j + 1 + ops.length = j + (op :: ops).length := by rw [List.length_cons]; omega
    exact hone.append (hlen ▸ hrest)

/-- The items of one phase end before any later phase of the record. -/
theorem climbs_phase (n : Nat) {ph ph' : Phase} (h : ph.rank < ph'.rank) (ops : List MicroOp) :
    Climbs (.mk n ph 0) (.mk n ph' 0) (place n ph 0 ops) :=
  (climbs_place n ph 0 ops).weaken le_rfl (Place.lt_of_rank h).le

theorem climbs_pinItems (par : Config) (n : Nat) (r : PinRecord) :
    Climbs (.mk n .unlock 0) (.mk n .access 0) (pinItems par n r) :=
  ((((climbs_phase n (ph' := .dirp) (by decide) _).append (climbs_phase n (ph' := .datap) (by decide) _)).append
    (climbs_phase n (ph' := .resp) (by decide) _)).append (climbs_phase n (ph' := .funcp) (by decide) _)).append
    (climbs_phase n (by decide) _)

theorem climbs_recordItems (par : Config) (n : Nat) (r : PinRecord) :
    Climbs (.mk n .clk 0) (.mk n .access 0) (recordItems par n r) := by
  refine (climbs_phase n (ph' := .unlock) (by decide) _).append ?_
  split
  · exact .nil (Place.lt_of_rank (by decide)).le
  · exact climbs_pinItems par n r

theorem climbs_initItems (par : Config) (n : Nat) (rs : List PinRecord) :
    Climbs (.mk n .clk 0) (finAt (n + rs.length)).place (initItems par n rs) := by
  induction rs generalizing n with
  | nil => exact .nil (Place.lt_of_rank (ph' := .access) (by decide)).le
  | cons r rs ih =>
    have hnext : Place.mk n .access 0 ≤ Place.mk (n + 1) .clk 0 := (Place.lt_of_record (Nat.lt_succ_self n)).le
    have hlen : n + 1 + rs.length = n + (r :: rs).length := by rw [List.length_cons]; omega
    exact ((climbs_recordItems par n r).weaken le_rfl hnext).append (hlen ▸ ih (n + 1))

theorem climbs_refreshItems (par : Config) (n : Nat) (rs : List PinRecord) :
    Climbs (.mk n .dirp 0) (finAt (n + rs.length)).place (refreshItems par n rs) := by
  induction rs generalizing n with
  | nil => exact .nil (Place.lt_of_rank (ph' := .access) (by decide)).le
  | cons r rs ih =>
    have hnext : Place.mk n .datap 0 ≤ Place.mk (n + 1) .dirp 0 := (Place.lt_of_record (Nat.lt_succ_self n)).le
    have hlen : n + 1 + rs.length = n + (r :: rs).length := by rw [List.length_cons]; omega
    exact ((climbs_phase n (by decide) _).weaken le_rfl hnext).append (hlen ▸ ih (n + 1))

/-- The items of the body stand in order, and FIN after all of them. -/
def Body.Ordered (b : Body) : Prop := ∃ lo, Climbs lo b.finPos.place b.items

theorem accessBody_ordered (ops : List MicroOp) (res : Result) : (accessBody ops res).Ordered :=
  ⟨_, (Nat.zero_add ops.length) ▸ climbs_place 0 .access 0 ops⟩

theorem IsBody.ordered {i : Instr} {par : Config} {nports : Nat} {cfg : Word} {b : Body}
    (h : IsBody par nports cfg i b) : b.Ordered := by
  cases h with
  | init w rs ht => exact ⟨_, (Nat.zero_add rs.length) ▸ climbs_initItems par 0 rs⟩
  | refreshDir arg rs ht => exact ⟨_, (Nat.zero_add rs.length) ▸ climbs_refreshItems par 0 rs⟩
  | setDir d pin arg r hr => exact ⟨_, climbs_phase 0 (ph' := .access) (by decide) _⟩
  | setMode code pin arg m r hr hm => exact ⟨_, climbs_phase 0 (ph' := .access) (by decide) _⟩
  | _ => exact accessBody_ordered _ _

/-! #### The item at a position -/

theorem nextItem_of_absent {fin q : Pos} {items : List Item} (h : ∀ x ∈ items, x.1 ≠ q) :
    nextItem fin q items = none := by
  induction items with
  | nil => rfl
  | cons x rest ih =>
    rw [nextItem, if_neg (h x List.mem_cons_self)]
    exact ih fun y hy => h y (List.mem_cons_of_mem x hy)

/-- FIN's position is no item's. -/
theorem Body.Ordered.nextItem_finPos {b : Body} (h : b.Ordered) : nextItem b.finPos b.finPos b.items = none := by
  obtain ⟨lo, hc⟩ := h
  exact nextItem_of_absent fun x hx he => (hc.lt x hx).ne (congrArg Pos.place he)

/-- The item at the position of an item of the body is that item. -/
theorem Body.Ordered.nextItem_item {b : Body} (h : b.Ordered) {done rest : List Item} {q : Pos} {op : MicroOp}
    (hb : b.items = done ++ (q, op) :: rest) :
    nextItem b.finPos q b.items = some (op, headPos b.finPos rest) := by
  obtain ⟨lo, hc⟩ := h
  have hbefore : ∀ x ∈ done, x.1 ≠ q := by
    intro x hx he
    have hsort := hc.sorted
    rw [hb] at hsort
    have hlt := (List.pairwise_append.1 hsort).2.2 x hx (q, op) List.mem_cons_self
    exact hlt.ne (congrArg Pos.place he)
  rw [hb]
  clear hb hc
  induction done with
  | nil => exact if_pos rfl
  | cons x done ih =>
    rw [List.cons_append, nextItem, if_neg (hbefore x List.mem_cons_self)]
    exact ih fun y hy => hbefore y (List.mem_cons_of_mem x hy)

/-- The position after an item is a later one. -/
theorem Body.Ordered.place_lt_headPos {b : Body} (h : b.Ordered) {done rest : List Item} {q : Pos} {op : MicroOp}
    (hb : b.items = done ++ (q, op) :: rest) : q.place < (headPos b.finPos rest).place := by
  obtain ⟨lo, hc⟩ := h
  cases rest with
  | nil => exact hc.lt (q, op) (by simp [hb])
  | cons y rest =>
    have hsort := hc.sorted
    rw [hb] at hsort
    exact List.rel_of_pairwise_cons (List.pairwise_append.1 hsort).2.1 List.mem_cons_self

/-- A position of the body is FIN's or that of an item, whose step leads on. -/
theorem Body.Ordered.has_cases {b : Body} (h : b.Ordered) {q : Pos} (hq : b.Has q) :
    q = b.finPos ∨ ∃ op q', nextItem b.finPos q b.items = some (op, q') ∧ q.place < q'.place := by
  rcases hq with hq | ⟨op, hm⟩
  · exact .inl hq
  · obtain ⟨done, rest, hb⟩ := List.append_of_mem hm
    exact .inr ⟨op, _, h.nextItem_item hb, h.place_lt_headPos hb⟩

end Sys2Proof.Machine

/-! ### The own steps of a running context (spec/40_sequencer_common.md R131, R150) -/

namespace Sys2Proof.Machine

theorem tableAt_error_ne_offProgram {par : Config} {nports : Nat} {h : Word} {r : Refusal}
    (hr : tableAt par nports h = .error r) : r ≠ .offProgram := by
  unfold tableAt at hr
  split at hr
  · cases hr; nofun
  · split at hr
    · cases hr; nofun
    · split at hr <;> cases hr
      nofun

theorem recordAt_error_ne_offProgram {par : Config} {nports : Nat} {h : Word} {j : Nat} {r : Refusal}
    (hr : recordAt par nports h j = .error r) : r ≠ .offProgram := by
  unfold recordAt at hr
  split at hr
  · next ht => cases hr; exact tableAt_error_ne_offProgram ht
  · split at hr <;> cases hr
    nofun

theorem groupAt_error_ne_offProgram {par : Config} {nports : Nat} {h : Word} {r : Refusal}
    (hr : groupAt par nports h = .error r) : r ≠ .offProgram := by
  unfold groupAt at hr
  split at hr
  · cases hr; nofun
  · split at hr
    · cases hr; nofun
    · split at hr <;> cases hr
      nofun

/-- A launch is refused for the stores, or for a code that is no mode. -/
theorem body_error_ne_offProgram {i : Instr} {par : Config} {nports : Nat} {cfg : Word} {r : Refusal}
    (h : (commandOf i).body par nports cfg = .error r) : r ≠ .offProgram := by
  cases i with
  | readPort | writePort => cases h
  | init | refreshDir =>
    simp only [commandOf, initCommand, refreshDirCommand] at h
    split at h
    · next hr => cases h; exact tableAt_error_ne_offProgram hr
    · cases h
  | setDir | readCh | writeCh | flipCh =>
    simp only [commandOf, setDirCommand, readChCommand, writeChCommand, flipChCommand] at h
    split at h
    · next hr => cases h; exact recordAt_error_ne_offProgram hr
    · cases h
  | readGroup | writeGroup =>
    simp only [commandOf, readGroupCommand, writeGroupCommand] at h
    split at h
    · next hr => cases h; exact groupAt_error_ne_offProgram hr
    · cases h
  | setMode =>
    simp only [commandOf, setModeCommand] at h
    split at h
    · next hr => cases h; exact recordAt_error_ne_offProgram hr
    · split at h <;> cases h
      nofun

/-- What an own step leads to: never `OffProgram`, and unless it marks the state another position. -/
structure Advances (c : Nat) (s t : State) : Prop where
  refused : t.refused ≠ some .offProgram
  pos : Unmarked t → (t.ctx c).pos ≠ (s.ctx c).pos

section
variable {c : Nat} {s : State}

theorem advances_markFault (hu : Unmarked s) (f : Fault) : Advances c s (s.markFault f) :=
  ⟨by simp [hu.2], fun h => absurd h.1 (Option.some_ne_none _)⟩

theorem advances_markRefused (hu : Unmarked s) {r : Refusal} (hr : r ≠ .offProgram) :
    Advances c s (s.markRefused r) :=
  ⟨by simp [hu.2, hr], fun h => absurd h.2 (Option.some_ne_none _)⟩

theorem advances_setCtx {t : State} {x : Ctx} (hr : t.refused = none) (hc : c < t.nctx) (hx : x.pos ≠ (s.ctx c).pos) :
    Advances c s (t.setCtx c x) := by
  refine ⟨?_, fun _ => ?_⟩
  · rw [State.setCtx_refused, hr]
    nofun
  · rwa [State.ctx_setCtx_same _ _ _ hc]

theorem pos_ne_of_ph {q q' : Pos} (h : q.ph ≠ q'.ph) : q ≠ q' := fun he => h (congrArg Pos.ph he)

theorem ph_ne_of_inBody {ph ph' : Phase} (h : ph.inBody = true) (h' : ph'.inBody = false) : ph ≠ ph' := by
  rintro rfl
  rw [h] at h'
  cases h'

variable (hu : Unmarked s)
include hu

theorem advances_guardStep {i : Instr} (hph : (s.ctx c).pos.ph = .guard) :
    Advances c s (guardStep (commandOf i) c s) := by
  have hc : c < s.nctx := State.lt_nctx_of_ph (by rw [hph]; nofun)
  have henter : Advances c s (enterBody (commandOf i) c s) := by
    cases hb : (commandOf i).bodyIn s with
    | error r =>
      rw [enterBody_of_error hb]
      exact advances_markRefused hu (body_error_ne_offProgram hb)
    | ok b =>
      have hin := ((isBody_of_ok hb).bodyOk (headPos_has fun _ hx => hx)).ph
      rw [enterBody_of_ok hb]
      exact advances_setCtx hu.2 hc (pos_ne_of_ph (ph_ne_of_inBody hin (hph ▸ rfl)))
  unfold guardStep
  split
  · split
    · exact henter
    · rw [failGuards, State.setFailf_setPos (s := s.report _) hc]
      exact advances_setCtx (t := s.report _) hu.2 hc (pos_ne_of_ph (by rw [hph]; nofun))
  · split
    · exact advances_markRefused hu nofun
    · exact henter

theorem advances_finish (hr : (s.ctx c).running = true) (res : Word) :
    Advances c s (s.setCtx c { s.ctx c with res := res, pos := { (s.ctx c).pos with ph := .finish } }) := by
  obtain ⟨hidle, hfin⟩ := Ctx.running_iff.1 hr
  exact advances_setCtx hu.2 (State.lt_nctx_of_ph hidle) (pos_ne_of_ph hfin.symm)

theorem advances_finStep (hr : (s.ctx c).running = true) (k : Command) (res : Result) :
    Advances c s (finStep k c res s) := by
  obtain ⟨hidle, hfin⟩ := Ctx.running_iff.1 hr
  have hc := State.lt_nctx_of_ph hidle
  unfold finStep
  dsimp only
  split
  · exact advances_setCtx (t := { s with mstate := .initialized }) hu.2 hc (pos_ne_of_ph hfin.symm)
  · exact advances_finish hu hr _

theorem advances_itemStep (hr : (s.ctx c).running = true) (op : MicroOp) {q : Pos} (hq : q ≠ (s.ctx c).pos) :
    Advances c s (itemStep c op q s) := by
  cases hop : performOp c op s with
  | error f =>
    rw [itemStep_of_fault hop]
    exact advances_markFault hu f
  | ok t =>
    have hf := performOp_frame hop
    have hlive : Unmarked t := (State.live_iff t).1 (hf.live.trans ((State.live_iff s).2 hu))
    rw [itemStep_of_ok hop]
    exact advances_setCtx hlive.2 (hf.nctx ▸ State.lt_nctx_of_ph (Ctx.running_iff.1 hr).1) hq

theorem advances_inBody {i : Instr} {b : Body} (hb : InBody i b c s) : Advances c s (bodyStep (commandOf i) c s) := by
  have hord := hb.isBody.ordered
  simp only [bodyStep, hb.failf, hb.body, Bool.false_eq_true, if_false]
  rcases hord.has_cases hb.pos with hfin | ⟨op, q, hnext, hlt⟩
  · rw [hfin, hord.nextItem_finPos, if_pos rfl]
    exact advances_finStep hu hb.running _ _
  · rw [hnext]
    exact advances_itemStep hu hb.running op fun he => hlt.ne (congrArg Pos.place he.symm)

/-- Under the invariant the position of a running context has an item, FIN or the degraded FIN. -/
theorem Inv.advances {i : Instr} (h : Inv s) (hr : (s.ctx c).running = true)
    (hd : decode (s.ctx c).cmd (s.ctx c).arg = .ok i) : Advances c s (Machine.ownStep (commandOf i) c s) := by
  by_cases hph : (s.ctx c).pos.ph = .guard
  · rw [Machine.ownStep, if_pos hph]
    exact advances_guardStep hu hph
  · rw [Machine.ownStep, if_neg hph]
    rcases h.pastGuard hr hph hd with ⟨hf, _⟩ | ⟨b, hb⟩
    · obtain ⟨_, _, _, hpos⟩ := (onProgram_inBody (Ctx.inBody_of_running hr hph)).1 ((inv_iff.1 h).1 c).1
      rw [hf, if_pos rfl] at hpos
      rw [Machine.bodyStep, if_pos hf, if_pos hpos]
      exact advances_finish hu hr 0
    · exact advances_inBody hu hb

end

/-- Under the invariant a running context holds a command. -/
theorem Inv.decodes {c : Nat} {s : State} (h : Inv s) (hr : (s.ctx c).running = true) :
    ∃ i, decode (s.ctx c).cmd (s.ctx c).arg = .ok i := by
  have hon := ((inv_iff.1 h).1 c).1
  by_cases hph : (s.ctx c).pos.ph = .guard
  · obtain ⟨_, _, hlegal⟩ := (onProgram_guard hph).1 hon
    obtain ⟨i, hd, _⟩ := legal_iff.1 hlegal
    exact ⟨i, hd⟩
  · obtain ⟨i, hd, _⟩ := (onProgram_inBody (Ctx.inBody_of_running hr hph)).1 hon
    exact ⟨i, hd⟩

theorem advanceEvent_of_running {c : Nat} {s : State} {i : Instr} (hr : (s.ctx c).running = true)
    (hd : decode (s.ctx c).cmd (s.ctx c).arg = .ok i) : advanceEvent c s = .next (ownStep (commandOf i) c s) := by
  rw [advanceEvent, if_pos hr, hd]

end Sys2Proof.Machine

namespace Sys2Proof

open Machine

/-- Settles O58: a running context stands at an item or FIN of its program, and the next position is a later one. -/
theorem runningContextsAlwaysAdvance : Obligations.RunningContextsAlwaysAdvance := by
  intro s c rest h hu _ hr
  have h' : Inv { s with agenda := .advance c :: rest } := h
  obtain ⟨i, hd⟩ := h.decodes hr
  have ha := Inv.advances (s := { s with agenda := rest }) hu h hr hd
  refine ⟨_, ?_, ha.refused, ha.pos⟩
  rw [step_of_agenda (s := { s with agenda := .advance c :: rest }) hu rfl]
  exact advanceEvent_of_running (s := { s with agenda := rest }) hr hd

end Sys2Proof

/-! ### A call, step by step (spec/40_sequencer_common.md R131, R139; spec/70_reset_and_hazards.md R280) -/

namespace Sys2Proof.Machine

/-! #### The agenda and the stages of a command -/

/-- The same state with another agenda. -/
def State.withAgenda (s : State) (a : List Event) : State := { s with agenda := a }

section
variable (s : State) (a : List Event)

theorem State.load_withAgenda (l : Loc) :
    (s.withAgenda a).load l = (s.load l).map fun vt => (vt.1, vt.2.withAgenda a) := by
  have hd : ∀ p, (s.withAgenda a).denied p = s.denied p := fun _ => rfl
  cases l with
  | reg p k =>
    simp only [State.load, regRead, hd]
    cases s.denied p with
    | some f => rfl
    | none => cases k <;> rfl
  | clken => rfl
  | aliasBit p b =>
    simp only [State.load, aliasRead, hd]
    cases s.denied p <;> rfl

theorem State.store_withAgenda (l : Loc) (v : Word) :
    (s.withAgenda a).store l v = (s.store l v).map fun t => t.withAgenda a := by
  have hd : ∀ p, (s.withAgenda a).denied p = s.denied p := fun _ => rfl
  cases l with
  | reg p k =>
    simp only [State.store, regWrite, hd]
    cases s.denied p <;> rfl
  | clken => rfl
  | aliasBit p b =>
    simp only [State.store, aliasWrite, hd]
    cases s.denied p <;> rfl

theorem performOp_withAgenda (c : Nat) (op : MicroOp) :
    performOp c op (s.withAgenda a) = (performOp c op s).map fun t => t.withAgenda a := by
  cases op with
  | load l =>
    simp only [performOp, State.load_withAgenda]
    cases s.load l <;> rfl
  | store l d => exact s.store_withAgenda a l _
  | update l d =>
    simp only [performOp, State.load_withAgenda]
    cases s.load l with
    | error f => rfl
    | ok vt => exact vt.2.store_withAgenda a l _

theorem itemStep_withAgenda (c : Nat) (op : MicroOp) (q : Pos) :
    itemStep c op q (s.withAgenda a) = (itemStep c op q s).withAgenda a := by
  simp only [itemStep, performOp_withAgenda]
  cases performOp c op s <;> rfl

theorem issue_withAgenda (k : Command) (c : Nat) : issue k c (s.withAgenda a) = (issue k c s).withAgenda a := by
  simp only [issue, apply_ite (State.withAgenda · a)]
  rfl

theorem enterBody_withAgenda (k : Command) (c : Nat) :
    enterBody k c (s.withAgenda a) = (enterBody k c s).withAgenda a := by
  cases hb : k.bodyIn s with
  | error r => rw [enterBody_of_error hb, enterBody_of_error (s := s.withAgenda a) hb]; rfl
  | ok b => rw [enterBody_of_ok hb, enterBody_of_ok (s := s.withAgenda a) hb]; rfl

theorem guardStep_withAgenda (k : Command) (c : Nat) :
    guardStep k c (s.withAgenda a) = (guardStep k c s).withAgenda a := by
  simp only [guardStep, apply_ite (State.withAgenda · a), enterBody_withAgenda]
  rfl

theorem finStep_withAgenda (k : Command) (c : Nat) (res : Result) :
    finStep k c res (s.withAgenda a) = (finStep k c res s).withAgenda a := by
  simp only [finStep]
  split <;> rfl

end

/-! #### Single steps of a run -/

theorem run_succ {s t : State} (h : step s = .next t) (n : Nat) :
    Host.Core.run Sys2Proof.core (n + 1) s = Host.Core.run Sys2Proof.core n t := by
  have h' : Sys2Proof.core.step s = .next t := h
  simp only [Host.Core.run, h']

/-- After a stage that ran to an unmarked end, the stage before it ended unmarked. -/
theorem State.andThen_of_live_end {s : State} {f : State → State} (h : (s.andThen f).live = true) :
    s.live = true ∧ s.andThen f = f s := by
  cases hs : s.live with
  | true => exact ⟨rfl, s.andThen_of_live f hs⟩
  | false =>
    rw [s.andThen_of_marked f hs, hs] at h
    cases h

section
variable {s : State} (hl : s.live = true)
include hl

theorem step_withAgenda (e : Event) (a : List Event) : step (s.withAgenda (e :: a)) = stepEvent e a s :=
  step_of_agenda (s := s.withAgenda (e :: a)) ((State.live_iff s).1 hl) rfl

theorem run_issue {c : Nat} (hi : s.canIssue c = true) (i : Instr) (n : Nat) (a : List Event) :
    Host.Core.run Sys2Proof.core (n + 1) (s.withAgenda (.issue c (cmdOf i) (argOf i) :: a)) =
      Host.Core.run Sys2Proof.core n ((issue (commandOf i) c s).withAgenda a) := by
  rw [← issue_withAgenda]
  exact run_succ ((step_withAgenda hl (.issue c (cmdOf i) (argOf i)) a).trans
    (issueEvent_of_decode (s := s.withAgenda a) hi (decode_encode i))) n

theorem run_complete {c : Nat} (hph : (s.ctx c).pos.ph = .finish) (n : Nat) (a : List Event) :
    Host.Core.run Sys2Proof.core (n + 1) (s.withAgenda (.complete c :: a)) =
      Host.Core.run Sys2Proof.core n ((complete c s).withAgenda a) :=
  run_succ ((step_withAgenda hl (.complete c) a).trans (completeEvent_of_finish (s := s.withAgenda a) hph)) n

end

/-! #### Own steps, one after another -/

/-- The next `n` own steps of context `c` lead from `s` to `t`, with no other event between. -/
def OwnStepsTo (c n : Nat) (s t : State) : Prop :=
  ∀ m a, Host.Core.run Sys2Proof.core (n + m) (s.withAgenda (List.replicate n (.advance c) ++ a)) =
    Host.Core.run Sys2Proof.core m (t.withAgenda a)

theorem OwnStepsTo.refl (c : Nat) (s : State) : OwnStepsTo c 0 s s := fun m a => by
  rw [Nat.zero_add, List.replicate_zero, List.nil_append]

theorem OwnStepsTo.trans {c n m : Nat} {s t u : State} (h : OwnStepsTo c n s t) (g : OwnStepsTo c m t u) :
    OwnStepsTo c (n + m) s u := fun j a => by
  rw [List.replicate_add, List.append_assoc, Nat.add_assoc, h, g]

theorem ownStepsTo_one {c : Nat} {s t : State} {i : Instr} (hl : s.live = true) (hr : (s.ctx c).running = true)
    (hd : decode (s.ctx c).cmd (s.ctx c).arg = .ok i)
    (h : ∀ a, ownStep (commandOf i) c (s.withAgenda a) = t.withAgenda a) : OwnStepsTo c 1 s t := fun m a => by
  rw [Nat.add_comm, ← h]
  exact run_succ ((step_withAgenda hl (.advance c) a).trans (advanceEvent_of_running (s := s.withAgenda a) hr hd)) m

/-! #### Inside a body -/

section
variable {i : Instr} {b : Body} {c : Nat} {s : State} (hb : InBody i b c s)
include hb

theorem InBody.withAgenda (a : List Event) : InBody i b c (s.withAgenda a) :=
  ⟨hb.failf, hb.decodes, hb.present, hb.body, hb.pos, hb.cfg⟩

theorem InBody.ownStep_eq : ownStep (commandOf i) c s = bodyStep (commandOf i) c s :=
  if_neg (ph_ne_of_inBody (hb.isBody.bodyOk hb.pos).ph rfl)

theorem InBody.ownStep_item {done rest : List Item} {q : Pos} {op : MicroOp} (hi : b.items = done ++ (q, op) :: rest)
    (hq : (s.ctx c).pos = q) : ownStep (commandOf i) c s = itemStep c op (headPos b.finPos rest) s := by
  rw [hb.ownStep_eq]
  simp only [bodyStep, hb.failf, hb.body, hq, hb.isBody.ordered.nextItem_item hi, Bool.false_eq_true, if_false]

theorem InBody.ownStep_fin (hq : (s.ctx c).pos = b.finPos) :
    ownStep (commandOf i) c s = finStep (commandOf i) c b.result s := by
  rw [hb.ownStep_eq]
  simp only [bodyStep, hb.failf, hb.body, hq, hb.isBody.ordered.nextItem_finPos, Bool.false_eq_true, if_false, if_true]

theorem InBody.lt_nctx : c < s.nctx := State.lt_nctx_of_ph (Ctx.running_iff.1 hb.running).1

/-- An item that leaves the state unmarked leads to the next position of the body. -/
theorem InBody.itemStep {op : MicroOp} {q : Pos} (hq : b.Has q) (hl : (itemStep c op q s).live = true) :
    InBody i b c (itemStep c op q s) ∧ ((itemStep c op q s).ctx c).pos = q := by
  cases hop : performOp c op s with
  | error f =>
    rw [itemStep_of_fault hop, State.markFault_not_live] at hl
    cases hl
  | ok t =>
    have hf := performOp_frame hop
    rw [itemStep_of_ok hop]
    refine ⟨hb.move hf hq, ?_⟩
    rw [State.setPos, State.ctx_setCtx_same _ _ _ (hf.nctx ▸ hb.lt_nctx)]

end

/-- The items of a body that are still to run, one own step each. -/
theorem InBody.runItems {i : Instr} {b : Body} {c : Nat} {s : State} (hb : InBody i b c s) (hl : s.live = true)
    {done items : List Item} (hi : b.items = done ++ items) (hq : (s.ctx c).pos = headPos b.finPos items)
    (hend : (runItems c b.finPos items s).live = true) :
    OwnStepsTo c items.length s (runItems c b.finPos items s) ∧ InBody i b c (runItems c b.finPos items s) ∧
      ((runItems c b.finPos items s).ctx c).pos = b.finPos := by
  induction items generalizing s done with
  | nil => exact ⟨.refl c s, hb, hq⟩
  | cons x rest ih =>
    obtain ⟨q, op⟩ := x
    obtain ⟨hlive, heq⟩ := State.andThen_of_live_end hend
    have hhas : b.Has (headPos b.finPos rest) := headPos_has fun y hy => by simp [hi, hy]
    obtain ⟨hnext, hpos⟩ := hb.itemStep hhas hlive
    obtain ⟨hsteps, hrest⟩ := ih (done := done ++ [(q, op)]) hnext hlive (by simp [hi]) hpos (heq ▸ hend)
    have hone : OwnStepsTo c 1 s (Machine.itemStep c op (headPos b.finPos rest) s) :=
      ownStepsTo_one hl hb.running hb.decodes fun a => by
        rw [(hb.withAgenda a).ownStep_item hi hq, itemStep_withAgenda]
    rw [Machine.runItems, heq, List.length_cons, Nat.add_comm]
    exact ⟨hone.trans hsteps, hrest⟩

/-! #### From GUARD to FINISH -/

section
variable {c : Nat} {s : State} (hc : c < s.nctx)
include hc

theorem finStep_finishes (k : Command) (res : Result) : ((finStep k c res s).ctx c).pos.ph = .finish := by
  simp only [finStep]
  split
  · rw [State.ctx_setCtx_same { s with mstate := .initialized } _ _ hc]
  · rw [State.ctx_setCtx_same _ _ _ hc]

theorem finDegraded_finishes : ((finDegraded c s).ctx c).pos.ph = .finish := by
  rw [finDegraded, State.ctx_setCtx_same _ _ _ hc]

end

/-- Everything of a launched command after its GUARD item: one own step per item, and FIN. -/
theorem InBody.runBody {i : Instr} {b : Body} {c : Nat} {s : State} (hb : InBody i b c s) (hl : s.live = true)
    (hq : (s.ctx c).pos = headPos b.finPos b.items) (hend : (runBody (commandOf i) c s).live = true) :
    OwnStepsTo c (b.items.length + 1) s (runBody (commandOf i) c s) ∧
      ((runBody (commandOf i) c s).ctx c).pos.ph = .finish := by
  have heq : Machine.runBody (commandOf i) c s =
      (Machine.runItems c b.finPos b.items s).andThen (finStep (commandOf i) c b.result) := by
    simp only [Machine.runBody, hb.failf, hb.body, Bool.false_eq_true, if_false]
  rw [heq] at hend ⊢
  obtain ⟨hlive, heq⟩ := State.andThen_of_live_end hend
  obtain ⟨hsteps, hlast, hpos⟩ := hb.runItems hl (done := []) rfl hq hlive
  have hfin : OwnStepsTo c 1 _ (finStep (commandOf i) c b.result (Machine.runItems c b.finPos b.items s)) :=
    ownStepsTo_one hlive hlast.running hlast.decodes fun a => by
      rw [(hlast.withAgenda a).ownStep_fin hpos, finStep_withAgenda]
  rw [heq]
  exact ⟨hsteps.trans hfin, finStep_finishes hlast.lt_nctx _ _⟩

/-- Context `c` stands at the GUARD item of `i`, which was just issued. -/
structure AtGuard (i : Instr) (c : Nat) (s : State) : Prop where
  lt : c < s.nctx
  ph : (s.ctx c).pos.ph = .guard
  failf : (s.ctx c).failf = false
  decodes : decode (s.ctx c).cmd (s.ctx c).arg = .ok i
  present : i.wellFormed s.par = true

/-- A guard of the command fails and reports (R137). -/
def Command.guardsFail (k : Command) (s : State) : Bool := s.par.guards && !(k.failing s).isEmpty

theorem guardStep_of_guardsFail {k : Command} {c : Nat} {s : State} (h : k.guardsFail s = true) :
    guardStep k c s = failGuards k c (k.failing s) s := by
  obtain ⟨hg, hf⟩ := Bool.and_eq_true_iff.1 h
  rw [guardStep, if_pos hg, if_neg (by simpa using hf)]

/-- Where no failing guard reports and the GUARD step does not refuse, the command is launched. -/
theorem guardStep_of_live {k : Command} {c : Nat} {s : State} (h : k.guardsFail s = false)
    (hl : (guardStep k c s).live = true) :
    ∃ b, k.bodyIn s = .ok b ∧
      guardStep k c s = { s with cfg := k.cfgAfter s }.setPos c (headPos b.finPos b.items) := by
  have henter : guardStep k c s = enterBody k c s := by
    cases hg : s.par.guards with
    | true => exact guardStep_of_pass (by simpa [GuardsPass, Command.guardsFail, hg] using h)
    | false =>
      refine guardStep_of_stripped hg fun g hm => ?_
      by_contra hmut
      rw [guardStep_of_undefined hg ⟨g, hm, Bool.eq_false_of_not_eq_true hmut⟩, State.markRefused_not_live] at hl
      cases hl
  cases hb : k.bodyIn s with
  | error r =>
    rw [henter, enterBody_of_error hb, State.markRefused_not_live] at hl
    cases hl
  | ok b => exact ⟨b, rfl, henter.trans (enterBody_of_ok hb)⟩

theorem ctx_failGuards {c : Nat} {s : State} (hc : c < s.nctx) (k : Command) (failing : List Guard) :
    (failGuards k c failing s).ctx c = { s.ctx c with failf := true, pos := finAt 0 } := by
  rw [failGuards, State.setFailf_setPos (s := s.report _) hc]
  exact State.ctx_setCtx_same (s.report _) _ _ hc

theorem ownStep_of_failf {k : Command} {c : Nat} {s : State} (hf : (s.ctx c).failf = true)
    (hq : (s.ctx c).pos = finAt 0) : ownStep k c s = finDegraded c s := by
  rw [ownStep, if_neg (by rw [hq]; nofun), bodyStep, if_pos hf, if_pos hq]

/-- The degraded FIN of a command with a failed guard (R137). -/
theorem runBody_of_failf {i : Instr} {c : Nat} {s : State} (hl : s.live = true) (hf : (s.ctx c).failf = true)
    (hq : (s.ctx c).pos = finAt 0) (hd : decode (s.ctx c).cmd (s.ctx c).arg = .ok i) :
    OwnStepsTo c 1 s (runBody (commandOf i) c s) ∧ ((runBody (commandOf i) c s).ctx c).pos.ph = .finish := by
  have hr : (s.ctx c).running = true := by rw [Ctx.running, hq]; rfl
  rw [runBody, if_pos hf]
  exact ⟨ownStepsTo_one hl hr hd fun a => ownStep_of_failf (s := s.withAgenda a) hf hq,
    finDegraded_finishes (State.lt_nctx_of_ph (Ctx.running_iff.1 hr).1)⟩

theorem ownSteps_of_guardsFail {k : Command} {s : State} (hp : k.present s.par = true) (hf : k.guardsFail s = true) :
    ownSteps k s = 2 := (if_pos hp).trans (if_pos hf)

theorem ownSteps_of_launch {k : Command} {s : State} (hp : k.present s.par = true) (hf : k.guardsFail s = false)
    {b : Body} (hb : k.bodyIn s = .ok b) : ownSteps k s = b.items.length + 2 :=
  (if_pos hp).trans ((if_neg (Bool.eq_false_iff.1 hf)).trans (by rw [hb]))

section
variable {i : Instr} {c : Nat} {s : State} (hg : AtGuard i c s)
include hg

theorem AtGuard.guardStep (hl : s.live = true) : OwnStepsTo c 1 s (guardStep (commandOf i) c s) :=
  ownStepsTo_one hl (Ctx.running_of_guard hg.ph) hg.decodes fun a => by
    rw [← guardStep_withAgenda]
    exact if_pos hg.ph

theorem AtGuard.launch {b : Body} (hb : (commandOf i).bodyIn s = .ok b) :
    InBody i b c ({ s with cfg := (commandOf i).cfgAfter s }.setPos c (headPos b.finPos b.items)) ∧
      (({ s with cfg := (commandOf i).cfgAfter s }.setPos c (headPos b.finPos b.items)).ctx c).pos =
        headPos b.finPos b.items := by
  have hx : ({ s with cfg := (commandOf i).cfgAfter s }.setPos c (headPos b.finPos b.items)).ctx c =
      { s.ctx c with pos := headPos b.finPos b.items } :=
    State.ctx_setCtx_same { s with cfg := (commandOf i).cfgAfter s } c _ hg.lt
  refine ⟨⟨?_, ?_, hg.present, ?_, ?_, fun hi => ?_⟩, by rw [hx]⟩
  · rw [hx]; exact hg.failf
  · rw [hx]; exact hg.decodes
  · change (commandOf i).body s.par s.nports ((commandOf i).cfgAfter s) = .ok b
    cases hi : (commandOf i).isInit with
    | true => exact (initBody_cfg hi _ _ _ _).trans hb
    | false => rw [Command.cfgAfter, hi]; exact hb
  · rw [hx]; exact headPos_has fun _ h => h
  · rw [hx]
    exact (if_pos hi).trans ((commandOf_arg i).trans (encode_of_decode hg.decodes).2)

/-- GUARD and FIN of a command with a failed guard; GUARD, the micro-ops and FIN of one that is launched (R280). -/
theorem AtGuard.runBody (hl : s.live = true) (hguard : (Machine.guardStep (commandOf i) c s).live = true)
    (hend : (runBody (commandOf i) c (Machine.guardStep (commandOf i) c s)).live = true) :
    OwnStepsTo c (ownSteps (commandOf i) s) s (runBody (commandOf i) c (Machine.guardStep (commandOf i) c s)) ∧
      ((runBody (commandOf i) c (Machine.guardStep (commandOf i) c s)).ctx c).pos.ph = .finish := by
  have hone := hg.guardStep hl
  have hp : (commandOf i).present s.par = true := (commandOf_present i s.par).trans hg.present
  cases hf : (commandOf i).guardsFail s with
  | true =>
    have hx := ctx_failGuards hg.lt (commandOf i) ((commandOf i).failing s)
    rw [← guardStep_of_guardsFail hf] at hx
    obtain ⟨hfin, hph⟩ := runBody_of_failf (i := i) hguard (by rw [hx]) (by rw [hx]) (by rw [hx]; exact hg.decodes)
    rw [ownSteps_of_guardsFail hp hf]
    exact ⟨hone.trans hfin, hph⟩
  | false =>
    obtain ⟨b, hb, heq⟩ := guardStep_of_live hf hguard
    obtain ⟨hin, hpos⟩ := hg.launch hb
    rw [← heq] at hin hpos
    obtain ⟨hbody, hph⟩ := hin.runBody hguard hpos hend
    have hlen : b.items.length + 2 = 1 + (b.items.length + 1) := by omega
    rw [ownSteps_of_launch hp hf hb, hlen]
    exact ⟨hone.trans hbody, hph⟩

end

/-! #### From Issue to Complete -/

/-- Issue of a command of the build that does not clash. -/
theorem atGuard_issue {i : Instr} {c : Nat} {s : State} (hi : s.canIssue c = true) (hp : i.wellFormed s.par = true)
    (hl : (issue (commandOf i) c s).live = true) :
    AtGuard i c (issue (commandOf i) c s) ∧
      ownSteps (commandOf i) (issue (commandOf i) c s) = ownSteps (commandOf i) s := by
  have hp' : (commandOf i).present s.par = true := (commandOf_present i s.par).trans hp
  obtain ⟨hc, _⟩ := State.canIssue_iff.1 hi
  cases hclash : initClash (commandOf i).isInit c s with
  | true =>
    rw [issue_of_clash hp' hclash, State.markFault_not_live] at hl
    cases hl
  | false =>
    have hx := State.ctx_setCtx_same s c ((s.ctx c).latch (commandOf i).cmd (commandOf i).arg .guard) hc
    rw [issue_of_noClash hp' hclash]
    refine ⟨⟨(s.setCtx_nctx c _).symm ▸ hc, by rw [hx]; rfl, by rw [hx]; rfl, ?_, hp⟩, rfl⟩
    rw [hx, commandOf_cmd, commandOf_arg]
    exact decode_encode i

theorem runIssued_ownSteps {i : Instr} {c : Nat} {s : State} (hi : s.canIssue c = true)
    (hl : (issue (commandOf i) c s).live = true)
    (hend : (runIssued (commandOf i) c (issue (commandOf i) c s)).live = true) :
    ∃ t, OwnStepsTo c (ownSteps (commandOf i) s) (issue (commandOf i) c s) t ∧ t.live = true ∧
      (t.ctx c).pos.ph = .finish ∧ runIssued (commandOf i) c (issue (commandOf i) c s) = complete c t := by
  cases hp : i.wellFormed s.par with
  | false =>
    have hp' : (commandOf i).present s.par = false := (commandOf_present i s.par).trans hp
    have hph : ((issue (commandOf i) c s).ctx c).pos.ph = .finish := by
      rw [issue_of_absent hp', issueIllegal, State.ctx_setCtx_same _ _ _ (State.canIssue_iff.1 hi).1]
      rfl
    have hn : ownSteps (commandOf i) s = 0 := if_neg (Bool.eq_false_iff.1 hp')
    exact ⟨_, hn ▸ .refl c _, hl, hph, if_pos hph⟩
  | true =>
    obtain ⟨hg, hn⟩ := atGuard_issue hi hp hl
    have hrun : runIssued (commandOf i) c (issue (commandOf i) c s) = _ := if_neg (by rw [hg.ph]; nofun)
    rw [hrun] at hend ⊢
    obtain ⟨hbody, heq⟩ := State.andThen_of_live_end hend
    obtain ⟨hguard, heq'⟩ := State.andThen_of_live_end hbody
    rw [heq'] at hbody
    obtain ⟨hsteps, hph⟩ := hg.runBody hl hguard hbody
    exact ⟨_, hn ▸ hsteps, hbody, hph, by rw [heq, heq']⟩

end Sys2Proof.Machine

namespace Sys2Proof

open Machine

/-- Settles O22: each stage of an unmarked call is a step of its own, whatever else the agenda holds. -/
theorem callIsItsMicroSteps : Obligations.CallIsItsMicroSteps := by
  intro i s t rest h hu
  rw [exec_eq_call] at h
  obtain ⟨hl, hi, rfl⟩ := call_next h
  have hend := (State.live_iff _).2 hu
  obtain ⟨hissue, heq⟩ := State.andThen_of_live_end hend
  rw [heq] at hend ⊢
  obtain ⟨u, hsteps, hul, hph, heq'⟩ := runIssued_ownSteps hi hissue hend
  calc Host.Core.run core (ownSteps (commandOf i) s + 2) (s.withAgenda (.issue s.cur (cmdOf i) (argOf i) ::
          (List.replicate (ownSteps (commandOf i) s) (.advance s.cur) ++ .complete s.cur :: rest)))
    _ = Host.Core.run core (ownSteps (commandOf i) s + 1) ((issue (commandOf i) s.cur s).withAgenda
          (List.replicate (ownSteps (commandOf i) s) (.advance s.cur) ++ .complete s.cur :: rest)) :=
        run_issue hl hi i _ _
    _ = Host.Core.run core 1 (u.withAgenda (.complete s.cur :: rest)) := hsteps 1 _
    _ = Host.Core.run core 0 ((complete s.cur u).withAgenda rest) := run_complete hul hph 0 rest
    _ = .next ((runIssued (commandOf i) s.cur (issue (commandOf i) s.cur s)).withAgenda rest) := by rw [heq']; rfl

end Sys2Proof

/-! ### What does not depend on the ports (spec/40_sequencer_common.md R148)

Two runs of one command from states that differ in the ports go through the same positions: guards, bodies and clock
checks look at no port, and what is written to `CLKEN` was read from it just before. -/

namespace Sys2Proof.Machine

/-! #### The clock check of a micro-op -/

/-- The fault of an access to the word, if it is one. -/
def State.deniedAt (s : State) : Loc → Option Fault
  | .reg p _ | .aliasBit p _ => s.denied p
  | .clken => none

section
variable {s : State} {l : Loc} {f : Fault}

theorem State.load_of_denied (h : s.deniedAt l = some f) : s.load l = .error f := by
  cases l with
  | reg p k => simp only [State.load, regRead, show s.denied p = some f from h]
  | clken => cases h
  | aliasBit p b => simp only [State.load, aliasRead, show s.denied p = some f from h]

theorem State.store_of_denied (h : s.deniedAt l = some f) (v : Word) : s.store l v = .error f := by
  cases l with
  | reg p k => simp only [State.store, regWrite, show s.denied p = some f from h]
  | clken => cases h
  | aliasBit p b => simp only [State.store, aliasWrite, show s.denied p = some f from h]

theorem State.load_of_allowed (h : s.deniedAt l = none) : ∃ v t, s.load l = .ok (v, t) := by
  cases l with
  | reg p k =>
    simp only [State.load, regRead, show s.denied p = none from h]
    cases k <;> exact ⟨_, _, rfl⟩
  | clken => exact ⟨_, _, rfl⟩
  | aliasBit p b =>
    simp only [State.load, aliasRead, show s.denied p = none from h]
    exact ⟨_, _, rfl⟩

theorem State.store_of_allowed (h : s.deniedAt l = none) (v : Word) : ∃ t, s.store l v = .ok t := by
  cases l with
  | reg p k =>
    simp only [State.store, regWrite, show s.denied p = none from h]
    exact ⟨_, rfl⟩
  | clken => exact ⟨_, rfl⟩
  | aliasBit p b =>
    simp only [State.store, aliasWrite, show s.denied p = none from h]
    exact ⟨_, rfl⟩

theorem State.deniedAt_congr {t : State} (hn : t.nports = s.nports) (hc : t.clken = s.clken) (l : Loc) :
    t.deniedAt l = s.deniedAt l := by
  cases l <;> simp only [State.deniedAt, State.denied, hn, hc]

theorem performOp_of_denied {c : Nat} {op : MicroOp} (h : s.deniedAt op.loc = some f) :
    performOp c op s = .error f := by
  cases op with
  | load l => simp only [performOp, State.load_of_denied (l := l) h]
  | store l d => exact State.store_of_denied h _
  | update l d => simp only [performOp, State.load_of_denied (l := l) h]

theorem performOp_of_allowed {c : Nat} {op : MicroOp} (h : s.deniedAt op.loc = none) :
    ∃ t, performOp c op s = .ok t := by
  cases op with
  | load l =>
    obtain ⟨v, t, hl⟩ := State.load_of_allowed (l := l) h
    simp only [performOp, hl]
    exact ⟨_, rfl⟩
  | store l d => exact State.store_of_allowed h _
  | update l d =>
    obtain ⟨v, t, hl⟩ := State.load_of_allowed (l := l) h
    have ht : t.deniedAt l = none :=
      (State.deniedAt_congr (opFrame_load hl c).nports (State.load_surface hl).2 l).trans h
    simp only [performOp, hl]
    exact State.store_of_allowed ht _

end

/-! #### What a micro-op does to `CLKEN` -/

/-- `CLKEN` after the micro-op, from `TMP` and `CLKEN` before. -/
def MicroOp.clkenAfter (tmp clken : Word) : MicroOp → Word
  | .load _ => clken
  | .store l d => if l = .clken then d.eval tmp else clken
  | .update l d => if l = .clken then d.eval clken else clken

theorem State.store_clken {s t : State} {l : Loc} {v : Word} (h : s.store l v = .ok t) :
    t.clken = if l = .clken then v else s.clken := by
  rcases State.store_ok h with ⟨_, _, rfl, _, rfl⟩ | ⟨rfl, rfl⟩ | ⟨_, _, rfl, _, rfl⟩ <;> rfl

theorem performOp_clken {c : Nat} {op : MicroOp} {s t : State} (h : performOp c op s = .ok t) :
    t.clken = op.clkenAfter (s.ctx c).tmp s.clken := by
  cases op with
  | load l =>
    simp only [performOp] at h
    split at h
    · cases h
    · next hl =>
      cases h
      exact (State.load_surface hl).2
  | store l d => exact State.store_clken h
  | update l d =>
    simp only [performOp] at h
    split at h
    · cases h
    · next hl =>
      rw [State.store_clken h, (State.load_surface hl).2, MicroOp.clkenAfter]
      split
      · next he => cases he; cases hl; rfl
      · rfl

/-- The micro-op reads `CLKEN` into `TMP`. -/
def MicroOp.readsClken : MicroOp → Bool
  | .load l => l == .clken
  | .store _ _ | .update _ _ => false

/-- The micro-op writes `CLKEN` from `TMP`. -/
def MicroOp.writesClken : MicroOp → Bool
  | .store l _ => l == .clken
  | .load _ | .update _ _ => false

theorem MicroOp.clkenAfter_congr {op : MicroOp} {tmp tmp' : Word} (h : op.writesClken = true → tmp' = tmp)
    (clken : Word) : op.clkenAfter tmp' clken = op.clkenAfter tmp clken := by
  cases op with
  | store l d =>
    simp only [MicroOp.clkenAfter]
    split
    · next he => rw [h (beq_iff_eq.2 he)]
    · rfl
  | _ => rfl

theorem tmp_of_readsClken {c : Nat} {op : MicroOp} {s t : State} (hr : op.readsClken = true) (hc : c < s.nctx)
    (h : performOp c op s = .ok t) : (t.ctx c).tmp = s.clken := by
  cases op with
  | load l =>
    cases eq_of_beq hr
    cases h
    exact congrArg Ctx.tmp (State.ctx_setCtx_same s c _ hc)
  | _ => cases hr

/-- Every write of `CLKEN` from `TMP` stands right after a read of it; `fresh` says that one stands before the list. -/
def ClkenPaired : Bool → List MicroOp → Prop
  | _, [] => True
  | fresh, op :: ops => (op.writesClken = true → fresh = true) ∧ ClkenPaired op.readsClken ops

theorem MicroOp.writesWithin.writesClken {ks : List Kind} {op : MicroOp} (h : op.writesWithin ks) :
    op.writesClken = false := by
  cases op with
  | store l d =>
    cases l with
    | clken => exact h.elim
    | _ => rfl
  | _ => rfl

theorem clkenPaired_of_writesWithin {ks : List Kind} {xs ys : List MicroOp} (hx : ∀ op ∈ xs, op.writesWithin ks)
    (hy : ∀ fresh, ClkenPaired fresh ys) (fresh : Bool) : ClkenPaired fresh (xs ++ ys) := by
  induction xs generalizing fresh with
  | nil => exact hy fresh
  | cons op xs ih =>
    obtain ⟨hop, hxs⟩ := List.forall_mem_cons.1 hx
    exact ⟨fun hw => (nomatch hop.writesClken.symm.trans hw), ih hxs _⟩

theorem clkenPaired_clkSetOps (par : Config) (p : Nat) {ys : List MicroOp} (hy : ∀ fresh, ClkenPaired fresh ys)
    (fresh : Bool) : ClkenPaired fresh (clkSetOps par p ++ ys) := by
  unfold clkSetOps bitUpdate
  split
  · exact ⟨nofun, hy _⟩
  · exact ⟨nofun, fun _ => rfl, hy _⟩

theorem clkenPaired_initItems (par : Config) (n : Nat) (rs : List PinRecord) (fresh : Bool) :
    ClkenPaired fresh ((initItems par n rs).map Prod.snd) := by
  induction rs generalizing n fresh with
  | nil => trivial
  | cons r rs ih =>
    rw [initItems, recordItems, List.map_append, List.map_append, place_map_snd, List.append_assoc]
    refine clkenPaired_clkSetOps par r.p (fun fresh' => ?_) fresh
    split
    · exact ih (n + 1) fresh'
    · rw [pinItems_map_snd]
      exact clkenPaired_of_writesWithin (pinOps_writesWithin par r) (ih (n + 1)) fresh'

theorem IsBody.clkenPaired {i : Instr} {par : Config} {n : Nat} {g : Word} {b : Body} (h : IsBody par n g i b) :
    ClkenPaired false (b.items.map Prod.snd) := by
  cases hi : (commandOf i).isInit with
  | false =>
    have hw := clkenPaired_of_writesWithin (h.writesWithin hi) (ys := []) (fun _ => trivial) false
    rwa [List.append_nil] at hw
  | true =>
    cases h with
    | init w rs ht => exact clkenPaired_initItems par 0 rs false
    | _ => cases hi

/-! #### Two runs side by side -/

/-- Two states in which context `c` stands at the same point of a command and that agree on everything but the contents
of the ports, `TMP`, `RES` and what was handed out. -/
structure SameControl (c : Nat) (s s' : State) : Prop where
  par : s'.par = s.par
  mstate : s'.mstate = s.mstate
  cfg : s'.cfg = s.cfg
  diag : s'.diag = s.diag
  faulted : s'.faulted = s.faulted
  refused : s'.refused = s.refused
  clken : s'.clken = s.clken
  nports : s'.nports = s.nports
  lt : c < s.nctx
  lt' : c < s'.nctx
  pos : (s'.ctx c).pos = (s.ctx c).pos
  failf : (s'.ctx c).failf = (s.ctx c).failf

section
variable {c : Nat} {s s' : State} (h : SameControl c s s')
include h

theorem SameControl.live : s'.live = s.live := by rw [State.live, State.live, h.faulted, h.refused]

theorem SameControl.failing (k : Command) : k.failing s' = k.failing s := by
  have hrec : s'.guardRecord k.cmd = s.guardRecord k.cmd := by
    rw [State.guardRecord, State.guardRecord, State.isInitialized, State.isInitialized, h.par, h.mstate, h.cfg,
      h.nports]
  have hfails : Guard.fails s' k.cmd k.arg = Guard.fails s k.cmd k.arg := by
    funext g
    cases g <;> simp only [Guard.fails, State.isInitialized, hrec, h.par, h.mstate, h.nports]
  rw [Command.failing, Command.failing, failingGuards, failingGuards, hfails]

theorem SameControl.bodyIn (k : Command) : k.bodyIn s' = k.bodyIn s := by
  rw [Command.bodyIn, Command.bodyIn, h.par, h.nports, h.cfg]

theorem SameControl.setCtx {x x' : Ctx} (hpos : x'.pos = x.pos) (hfailf : x'.failf = x.failf) :
    SameControl c (s.setCtx c x) (s'.setCtx c x') :=
  { h with
    lt := (s.setCtx_nctx c x).symm ▸ h.lt
    lt' := (s'.setCtx_nctx c x').symm ▸ h.lt'
    pos := by rw [State.ctx_setCtx_same _ _ _ h.lt, State.ctx_setCtx_same _ _ _ h.lt', hpos]
    failf := by rw [State.ctx_setCtx_same _ _ _ h.lt, State.ctx_setCtx_same _ _ _ h.lt', hfailf] }

theorem SameControl.setPos (q : Pos) : SameControl c (s.setPos c q) (s'.setPos c q) := h.setCtx rfl h.failf

theorem SameControl.markFault (f : Fault) : SameControl c (s.markFault f) (s'.markFault f) :=
  { h with faulted := by rw [State.markFault_faulted, State.markFault_faulted, h.faulted] }

theorem SameControl.markRefused (r : Refusal) : SameControl c (s.markRefused r) (s'.markRefused r) :=
  { h with refused := by rw [State.markRefused_refused, State.markRefused_refused, h.refused] }

theorem SameControl.andThen {f : State → State} (hf : s.live = true → SameControl c (f s) (f s')) :
    SameControl c (s.andThen f) (s'.andThen f) := by
  cases hl : s.live with
  | true =>
    rw [s.andThen_of_live f hl, s'.andThen_of_live f (h.live.trans hl)]
    exact hf hl
  | false =>
    rw [s.andThen_of_marked f hl, s'.andThen_of_marked f (h.live.trans hl)]
    exact h

/-! #### The stages of a command -/

theorem SameControl.issue {k : Command} (hclash : initClash k.isInit c s' = initClash k.isInit c s) :
    SameControl c (issue k c s) (issue k c s') := by
  rw [Machine.issue, Machine.issue, h.par, hclash]
  split
  · split
    · exact h.markFault _
    · exact h.setCtx rfl rfl
  · exact h.setCtx rfl rfl

theorem SameControl.enterBody (k : Command) : SameControl c (enterBody k c s) (enterBody k c s') := by
  cases hb : k.bodyIn s with
  | error r =>
    rw [enterBody_of_error hb, enterBody_of_error ((h.bodyIn k).trans hb)]
    exact h.markRefused r
  | ok b =>
    have hcfg : SameControl c { s with cfg := k.cfgAfter s } { s' with cfg := k.cfgAfter s' } :=
      { h with cfg := by rw [Command.cfgAfter, Command.cfgAfter, h.cfg] }
    rw [enterBody_of_ok hb, enterBody_of_ok ((h.bodyIn k).trans hb)]
    exact hcfg.setPos _

theorem SameControl.failGuards (k : Command) (gs : List Guard) :
    SameControl c (failGuards k c gs s) (failGuards k c gs s') := by
  have hreport : SameControl c (s.report (reportsOf s.par k.cmd gs)) (s'.report (reportsOf s'.par k.cmd gs)) :=
    { h with diag := by rw [State.report_diag, State.report_diag, h.par, h.diag] }
  have hfailf : SameControl c ((s.report (reportsOf s.par k.cmd gs)).setFailf c)
      ((s'.report (reportsOf s'.par k.cmd gs)).setFailf c) := hreport.setCtx h.pos rfl
  exact hfailf.setPos _

theorem SameControl.guardStep (k : Command) : SameControl c (guardStep k c s) (guardStep k c s') := by
  rw [Machine.guardStep, Machine.guardStep, h.par, h.failing]
  split
  · split
    · exact h.enterBody k
    · exact h.failGuards k _
  · split
    · exact h.markRefused _
    · exact h.enterBody k

theorem SameControl.finStep (k : Command) (res : Result) : SameControl c (finStep k c res s) (finStep k c res s') := by
  have hpos : ({ (s'.ctx c).pos with ph := .finish } : Pos) = { (s.ctx c).pos with ph := .finish } := by rw [h.pos]
  simp only [Machine.finStep]
  split
  · exact SameControl.setCtx (s := { s with mstate := .initialized }) (s' := { s' with mstate := .initialized })
      { h with mstate := rfl } hpos h.failf
  · exact h.setCtx hpos h.failf

theorem SameControl.finDegraded : SameControl c (finDegraded c s) (finDegraded c s') :=
  h.setCtx (by rw [h.pos]) h.failf

theorem SameControl.complete : SameControl c (complete c s) (complete c s') :=
  { h.setCtx (x := { s.ctx c with pos := { (s.ctx c).pos with ph := .idle } })
      (x' := { s'.ctx c with pos := { (s'.ctx c).pos with ph := .idle } }) (by rw [h.pos]) h.failf with }

/-- A micro-op that writes `CLKEN` only what was read from it leaves the two sides alike. -/
theorem SameControl.performOp {op : MicroOp} {t t' : State} (hl : s.live = true)
    (htmp : op.writesClken = true → (s'.ctx c).tmp = (s.ctx c).tmp) (ht : performOp c op s = .ok t)
    (ht' : performOp c op s' = .ok t') : SameControl c t t' := by
  have hf := performOp_frame ht
  have hf' := performOp_frame ht'
  have hlive := (State.live_iff t).1 (hf.live.trans hl)
  have hlive' := (State.live_iff t').1 (hf'.live.trans (h.live.trans hl))
  exact
    { par := by rw [hf.par, hf'.par, h.par]
      mstate := by rw [hf.mstate, hf'.mstate, h.mstate]
      cfg := by rw [hf.cfg, hf'.cfg, h.cfg]
      diag := by rw [hf.diag, hf'.diag, h.diag]
      faulted := by rw [hlive.1, hlive'.1]
      refused := by rw [hlive.2, hlive'.2]
      clken := by rw [performOp_clken ht, performOp_clken ht', h.clken, MicroOp.clkenAfter_congr htmp]
      nports := by rw [hf.nports, hf'.nports, h.nports]
      lt := hf.nctx ▸ h.lt
      lt' := hf'.nctx ▸ h.lt'
      pos := by rw [hf.own, hf'.own]; exact h.pos
      failf := by rw [hf.own, hf'.own]; exact h.failf }

/-- A micro-op faults on both sides or on neither, and a read of `CLKEN` leaves the same word in `TMP`. -/
theorem SameControl.itemStep (hl : s.live = true) {op : MicroOp} (q : Pos)
    (htmp : op.writesClken = true → (s'.ctx c).tmp = (s.ctx c).tmp) :
    SameControl c (itemStep c op q s) (itemStep c op q s') ∧
      (op.readsClken = true → ((itemStep c op q s').ctx c).tmp = ((itemStep c op q s).ctx c).tmp) := by
  have hdenied := State.deniedAt_congr h.nports h.clken op.loc
  cases hd : s.deniedAt op.loc with
  | some f =>
    rw [itemStep_of_fault (performOp_of_denied hd), itemStep_of_fault (performOp_of_denied (hdenied.trans hd))]
    refine ⟨h.markFault f, fun hr => ?_⟩
    cases op with
    | load l => cases eq_of_beq hr; cases hd
    | _ => cases hr
  | none =>
    obtain ⟨t, ht⟩ := performOp_of_allowed (c := c) hd
    obtain ⟨t', ht'⟩ := performOp_of_allowed (c := c) (hdenied.trans hd)
    have hsame := h.performOp hl htmp ht ht'
    rw [itemStep_of_ok ht, itemStep_of_ok ht']
    refine ⟨hsame.setPos q, fun hr => ?_⟩
    rw [State.setPos, State.setPos, State.ctx_setCtx_same _ _ _ hsame.lt, State.ctx_setCtx_same _ _ _ hsame.lt']
    exact (tmp_of_readsClken hr h.lt' ht').trans (h.clken.trans (tmp_of_readsClken hr h.lt ht).symm)

omit h in
/-- The items of a body in which every write of `CLKEN` follows a read of it. -/
theorem SameControl.runItems {fresh : Bool} {items : List Item} (h : SameControl c s s') (hl : s.live = true)
    (fin : Pos) (htmp : fresh = true → (s'.ctx c).tmp = (s.ctx c).tmp)
    (hpaired : ClkenPaired fresh (items.map Prod.snd)) :
    SameControl c (runItems c fin items s) (runItems c fin items s') := by
  induction items generalizing s s' fresh with
  | nil => exact h
  | cons x rest ih =>
    obtain ⟨hwrite, hrest⟩ := hpaired
    obtain ⟨hstep, htmp'⟩ := h.itemStep hl (headPos fin rest) fun hw => htmp (hwrite hw)
    exact hstep.andThen fun hlive => ih hstep hlive htmp' hrest

theorem SameControl.runBody (hl : s.live = true) (i : Instr) :
    SameControl c (runBody (commandOf i) c s) (runBody (commandOf i) c s') := by
  simp only [Machine.runBody, h.failf, h.bodyIn]
  split
  · exact h.finDegraded
  · split
    · exact h.markRefused _
    · next b hb =>
      have hitems := h.runItems hl b.finPos (fresh := false) nofun (isBody_of_ok hb).clkenPaired
      exact hitems.andThen fun _ => hitems.finStep _ _

theorem SameControl.runIssued (i : Instr) :
    SameControl c (runIssued (commandOf i) c s) (runIssued (commandOf i) c s') := by
  rw [Machine.runIssued, Machine.runIssued, h.pos]
  split
  · exact h.complete
  · have hguard := h.guardStep (commandOf i)
    have hbody := hguard.andThen fun hl => hguard.runBody hl i
    exact hbody.andThen fun _ => hbody.complete

end

theorem sameControl_ports {c : Nat} {s : State} (hc : c < s.nctx) {ports : List PortRegs}
    (hlen : ports.length = s.ports.length) : SameControl c s { s with ports := ports } :=
  ⟨rfl, rfl, rfl, rfl, rfl, rfl, rfl, hlen, hc, hc, rfl, rfl⟩

end Sys2Proof.Machine

namespace Sys2Proof

open Machine

/-- Settles O56: the two calls go through the same stages side by side. -/
theorem reportsDoNotDependOnThePorts : Obligations.ReportsDoNotDependOnThePorts := by
  intro i s t t' ports hlen h h'
  rw [exec_eq_call] at h h'
  obtain ⟨_, hi, rfl⟩ := call_next h
  obtain ⟨_, _, rfl⟩ := call_next h'
  have hissue := (sameControl_ports (State.canIssue_iff.1 hi).1 hlen).issue (k := commandOf i) rfl
  have hsame := hissue.andThen fun _ => hissue.runIssued i
  exact ⟨hsame.diag, hsame.faulted, hsame.refused, hsame.mstate, hsame.cfg, hsame.clken, hsame.pos⟩

end Sys2Proof

/-! ### Calls from Issue to Complete (spec/40_sequencer_common.md R130 to R139) -/

namespace Sys2Proof.Machine

theorem State.canIssue_lt {s : State} {c : Nat} (h : s.canIssue c = true) : c < s.nctx := (State.canIssue_iff.1 h).1

/-- The way of a command with a failed guard from GUARD to Complete: its reports, the degraded FIN, the default result
(R133, R137, R139). -/
theorem failGuards_complete {k : Command} {c : Nat} {s : State} (hl : s.live = true) (hc : c < s.nctx)
    (failing : List Guard) :
    ((failGuards k c failing s).andThen (runBody k c)).andThen (complete c) =
      { s.setCtx c { s.ctx c with failf := true, res := 0, pos := { finAt 0 with ph := .idle } } with
        diag := s.diag ++ reportsOf s.par k.cmd failing
        responses := s.responses ++ [⟨c, 0, (s.ctx c).ill⟩] } := by
  generalize hx : ({ s.ctx c with failf := true, pos := finAt 0 } : Ctx) = x
  have hfail : failGuards k c failing s = (s.report (reportsOf s.par k.cmd failing)).setCtx c x := by
    rw [← hx]
    exact State.setFailf_setPos (s := s.report _) hc (finAt 0)
  have hown : ((s.report (reportsOf s.par k.cmd failing)).setCtx c x).ctx c = x := State.ctx_setCtx_same _ _ _ hc
  have hfin : finDegraded c ((s.report (reportsOf s.par k.cmd failing)).setCtx c x) =
      (s.report (reportsOf s.par k.cmd failing)).setCtx c { x with res := 0, pos := { x.pos with ph := .finish } } := by
    rw [finDegraded, hown, State.setCtx_setCtx]
  have hlive : ∀ y, ((s.report (reportsOf s.par k.cmd failing)).setCtx c y).live = true := fun _ => hl
  rw [hfail, State.andThen_of_live _ _ (hlive _), runBody, hown, if_pos (by rw [← hx]), hfin,
    State.andThen_of_live _ _ (hlive _), complete, State.ctx_setCtx_same (s.report _) _ _ hc,
    State.setCtx_setCtx, ← hx]
  rfl

/-- What Issue of `i` leaves of context `s.cur`, where it does not clash (R130). -/
def State.issued (s : State) (i : Instr) : State := s.setCtx s.cur ((s.ctx s.cur).latch (cmdOf i) (argOf i) .guard)

theorem State.ctx_issued {s : State} (hc : s.cur < s.nctx) (i : Instr) :
    (s.issued i).ctx s.cur = (s.ctx s.cur).latch (cmdOf i) (argOf i) .guard := State.ctx_setCtx_same _ _ _ hc

section
variable {i : Instr} {s : State} (hu : Unmarked s) (hi : s.canIssue s.cur = true) (hw : i.wellFormed s.par = true)
  (hclash : initClash (commandOf i).isInit s.cur s = false)
include hu hi hw hclash

/-- A call whose Issue does not clash goes from GUARD to Complete. -/
theorem exec_of_noClash :
    exec i s = .next (((guardStep (commandOf i) s.cur (s.issued i)).andThen
      (runBody (commandOf i) s.cur)).andThen (complete s.cur)) := by
  have hp : (commandOf i).present s.par = true := (commandOf_present i s.par).trans hw
  have hissue : issue (commandOf i) s.cur s = s.issued i := by
    rw [issue_of_noClash hp hclash, commandOf_cmd, commandOf_arg, State.issued]
  have hlive : (s.issued i).live = true := (State.live_iff s).2 hu
  rw [exec_eq_call, call_of_ready hu hi, hissue, State.andThen_of_live _ _ hlive, runIssued,
    State.ctx_issued (State.canIssue_lt hi), if_neg nofun]

/-- A command with a failed guard reports and completes with the default result (R137). -/
theorem exec_of_guardsFail (hf : (commandOf i).guardsFail s = true) :
    exec i s = .next (s.degraded i (reportsOf s.par (cmdOf i) ((commandOf i).failing s))) := by
  have hlt := State.canIssue_lt hi
  have hguard : guardStep (commandOf i) s.cur (s.issued i) =
      failGuards (commandOf i) s.cur ((commandOf i).failing s) (s.issued i) :=
    guardStep_of_guardsFail (s := s.issued i) hf
  rw [exec_of_noClash hu hi hw hclash, hguard,
    failGuards_complete (s := s.issued i) ((State.live_iff s).2 hu) ((s.setCtx_nctx s.cur _).symm ▸ hlt),
    State.ctx_issued hlt, State.issued, State.setCtx_setCtx, commandOf_cmd]
  rfl

end

/-! #### Calls of `INIT` -/

/-- An `INIT` clashes with any other context that is not idle (R149). -/
theorem initClash_init {c : Nat} {s : State} :
    initClash true c s = false ↔ (s.others c).any (fun x => x.pos.ph != .idle) = false := by
  have himp : (s.others c).any (fun x => x.pos.ph != .idle) = false → (s.others c).any Ctx.holdsInit = false := by
    simp only [List.any_eq_false, Ctx.holdsInit_iff, bne_iff_ne]
    exact fun h x hx hinit => h x hx hinit.1
  rw [initClash, Bool.true_and, Bool.or_eq_false_iff]
  exact ⟨And.left, fun h => ⟨h, himp h⟩⟩

theorem failing_init (h : Word) (s : State) :
    (commandOf (.init h)).failing s = if h = nullHandle then [.cfg] else [] :=
  (failingGuards_cons ..).trans ((List.append_nil _).trans Guard.ifFails_cfg)

end Sys2Proof.Machine

namespace Sys2Proof

open Machine

/-- Settles O26: the one guard of `INIT` fails on the null handle, and a failed guard ends the command. -/
theorem initOfNullOnlyReports : Obligations.InitOfNullOnlyReports := by
  intro s ⟨hu, hi, hidle⟩ hg
  have hfailing := failing_init nullHandle s
  rw [if_pos rfl] at hfailing
  have hf : (commandOf (.init nullHandle)).guardsFail s = true := by
    rw [Command.guardsFail, hg, hfailing]
    rfl
  have hreports : reportsOf s.par (cmdOf (.init nullHandle)) [.cfg] = [0x01000102] := by
    rw [reportsOf_cons]
    split <;> decide
  rw [exec_of_guardsFail (i := .init nullHandle) hu hi rfl (initClash_init.2 hidle) hf, hfailing, hreports]

end Sys2Proof

/-! ### Operations on a pin (spec/40_sequencer_common.md R140 to R143, spec/41_pin_config.md R165 to R167) -/

namespace Sys2Proof

/-- The kinds of which commands update single bits by `PutBit` at any time; `COMMIT` is updated by the unlock alone. -/
def Kind.isPinBit : Kind → Bool
  | .data => true
  | k => k.isConfigBit

end Sys2Proof

namespace Sys2Proof.Machine

/-- An operation on one pin. -/
inductive PinOp where
  /-- `PutBit(p, K, b, v)` (R142). -/
  | put (k : Kind) (v : Bool)
  /-- `PutNibble(p, b, c)` (R143). -/
  | nibble (c : BitVec 4)
  /-- The key, then `SetBit(p, COMMIT, b)` (R167). -/
  | unlock

/-- The micro-ops of the operation. -/
def PinOp.micro (par : Config) (p : Nat) (b : Bit) : PinOp → List MicroOp
  | .put k v => putBitOps par p k b v
  | .nibble c => putNibbleOps p b c
  | .unlock => unlockOps par p b

/-- What the operation makes of the port. -/
def PinOp.apply (par : Config) (b : Bit) (x : PortRegs) : PinOp → PortRegs
  | .put k v => x.putBit par k b v
  | .nibble c => x.putNibble par b c
  | .unlock => { x with locked := false, commit := putByteBit x.commit b true }

/-- What the operation makes of `TMP`: the word it read, unless the update was atomic (R74). -/
def PinOp.tmp (par : Config) (x : PortRegs) (w : Word) : PinOp → Word
  | .put k _ => if par.atomicBitops then w else x.stored k
  | .nibble _ => x.muxsel
  | .unlock => if par.atomicBitops then w else x.stored .commit

/-- The operation acts on the bits of a kind it may act on. -/
def PinOp.Ok : PinOp → Prop
  | .put k _ => k.isPinBit = true
  | .nibble _ | .unlock => True

/-- What a list of operations on one pin makes of the port. -/
def applyPlan (par : Config) (b : Bit) (es : List PinOp) (x : PortRegs) : PortRegs := es.foldl (PinOp.apply par b) x

/-- What a list of operations on one pin makes of `TMP`. -/
def planTmp (par : Config) (b : Bit) : List PinOp → PortRegs → Word → Word
  | [], _, w => w
  | e :: es, x, w => planTmp par b es (e.apply par b x) (e.tmp par x w)

@[simp] theorem applyPlan_nil (par : Config) (b : Bit) (x : PortRegs) : applyPlan par b [] x = x := rfl

@[simp] theorem applyPlan_cons (par : Config) (b : Bit) (e : PinOp) (es : List PinOp) (x : PortRegs) :
    applyPlan par b (e :: es) x = applyPlan par b es (e.apply par b x) := rfl

/-! #### What the micro-ops of a pin operation do -/

theorem State.setTmp_self (s : State) (c : Nat) : s.setTmp c (s.ctx c).tmp = s := by
  rcases Nat.lt_or_ge c s.nctx with hc | hc
  · rw [State.setTmp, State.ctx_eq_getElem hc]
    exact congrArg (fun xs => { s with ctxs := xs }) (List.set_getElem_self hc)
  · rw [State.setTmp, State.setCtx_of_ge hc]

theorem State.setTmp_setTmp (s : State) (c : Nat) (v w : Word) : (s.setTmp c v).setTmp c w = s.setTmp c w := by
  rcases Nat.lt_or_ge c s.nctx with hc | hc
  · simp only [State.setTmp, State.ctx_setCtx_same _ _ _ hc, State.setCtx_setCtx]
  · simp only [State.setTmp, State.setCtx_of_ge hc]

theorem State.ctx_setTmp {s : State} {c : Nat} (hc : c < s.nctx) (v : Word) :
    (s.setTmp c v).ctx c = { s.ctx c with tmp := v } := State.ctx_setCtx_same _ _ _ hc

section
variable {s : State} {p c : Nat} (hp : Clocked s p)
include hp

theorem performOp_load_of_clocked {k : Kind} (hk : k ≠ .lock) :
    performOp c (.load (.reg p k)) s = .ok (s.setTmp c ((s.port p).stored k)) := by
  simp only [performOp, State.load, regRead_of_clocked s p k hp hk]

theorem performOp_store_of_clocked (k : Kind) (d : Datum) :
    performOp c (.store (.reg p k) d) s =
      .ok (s.setPort p ((s.port p).write s.par k (d.eval (s.ctx c).tmp))) :=
  regWrite_of_clocked s p k _ hp

/-- A read-modify-write of one register in two micro-ops (R140 to R143). -/
theorem applyOps_load_store (hc : c < s.nctx) {k : Kind} (hk : k ≠ .lock) (d : Datum) :
    applyOps c [.load (.reg p k), .store (.reg p k) d] s =
      .ok ((s.setPort p ((s.port p).write s.par k (d.eval ((s.port p).stored k)))).setTmp c ((s.port p).stored k)) := by
  have hp' : Clocked (s.setTmp c ((s.port p).stored k)) p := hp
  simp only [applyOps, performOp_load_of_clocked hp hk, performOp_store_of_clocked hp', State.ctx_setTmp hc]
  rfl

/-- The same with `ATOMIC_BITOPS` or without (R74). -/
theorem applyOps_bitUpdate (hc : c < s.nctx) {k : Kind} (hk : k ≠ .lock) (d : Datum) :
    applyOps c (bitUpdate s.par (.reg p k) d) s =
      .ok ((s.setPort p ((s.port p).write s.par k (d.eval ((s.port p).stored k)))).setTmp c
        (if s.par.atomicBitops then (s.ctx c).tmp else (s.port p).stored k)) := by
  unfold bitUpdate
  split
  · simp only [applyOps, performOp, State.load, State.store, regRead_of_clocked s p k hp hk,
      regWrite_of_clocked s p k _ hp]
    exact congrArg Except.ok (State.setTmp_self (s.setPort p _) c).symm
  · exact applyOps_load_store hp hc hk d

theorem applyOps_putBitOps (hc : c < s.nctx) {k : Kind} (hk : k ≠ .lock) (b : Bit) (v : Bool) :
    applyOps c (putBitOps s.par p k b v) s =
      .ok ((s.setPort p ((s.port p).putBit s.par k b v)).setTmp c
        (if s.par.atomicBitops then (s.ctx c).tmp else (s.port p).stored k)) := by
  cases v <;> exact applyOps_bitUpdate hp hc hk _

/-- The key opens the port, so the `COMMIT` write lands (R67, R68). -/
theorem applyOps_unlockOps (hc : c < s.nctx) (b : Bit) :
    applyOps c (unlockOps s.par p b) s =
      .ok ((s.setPort p (PinOp.unlock.apply s.par b (s.port p))).setTmp c
        (PinOp.unlock.tmp s.par (s.port p) (s.ctx c).tmp)) := by
  have hkey : (s.port p).write s.par .lock s.par.unlockKey = { s.port p with locked := false } := by
    simp [PortRegs.write]
  have hwrite : ({ s.port p with locked := false } : PortRegs).putBit s.par .commit b true =
      PinOp.unlock.apply s.par b (s.port p) :=
    PortRegs.write_commit_bit s.par { s.port p with locked := false } b true rfl
  have hset := applyOps_putBitOps (s := s.setPort p { s.port p with locked := false }) (c := c)
    (hp.setPort p _) hc (k := .commit) nofun b true
  rw [State.port_setPort_same _ _ _ hp.1, State.setPort_setPort, State.setPort_par, hwrite] at hset
  simp only [unlockOps, applyOps, performOp_store_of_clocked hp, Datum.eval, hkey]
  exact hset

/-- An operation on a clocked port does to port and `TMP` what `PinOp.apply` and `PinOp.tmp` say, and nothing
else. -/
theorem applyOps_pinOp (hc : c < s.nctx) (b : Bit) {e : PinOp} (he : e.Ok) :
    applyOps c (e.micro s.par p b) s =
      .ok ((s.setPort p (e.apply s.par b (s.port p))).setTmp c (e.tmp s.par (s.port p) (s.ctx c).tmp)) := by
  cases e with
  | put k v =>
    refine applyOps_putBitOps hp hc ?_ b v
    rintro rfl
    cases he
  | nibble n => exact applyOps_load_store hp hc (k := .muxsel) nofun (.putNibble b n)
  | unlock => exact applyOps_unlockOps hp hc b

end

/-- A list of operations on one pin. -/
theorem applyOps_plan {s : State} {p c : Nat} (hp : Clocked s p) (hc : c < s.nctx) (b : Bit)
    {es : List PinOp} (hes : ∀ e ∈ es, e.Ok) :
    applyOps c (es.flatMap (PinOp.micro s.par p b)) s =
      .ok ((s.setPort p (applyPlan s.par b es (s.port p))).setTmp c
        (planTmp s.par b es (s.port p) (s.ctx c).tmp)) := by
  induction es generalizing s with
  | nil =>
    rw [applyPlan_nil, State.setPort_port s p hp.1]
    exact congrArg Except.ok (State.setTmp_self s c).symm
  | cons e es ih =>
    obtain ⟨he, hes⟩ := List.forall_mem_cons.1 hes
    generalize ht : (s.setPort p (e.apply s.par b (s.port p))).setTmp c (e.tmp s.par (s.port p) (s.ctx c).tmp) = t
    have hpt : Clocked t p := ht ▸ hp.setPort p _
    have hct : c < t.nctx := by rw [← ht, State.setTmp_nctx]; exact hc
    have hpar : t.par = s.par := ht ▸ rfl
    have hport : t.port p = e.apply s.par b (s.port p) := ht ▸ State.port_setPort_same s p _ hp.1
    have htmp : (t.ctx c).tmp = e.tmp s.par (s.port p) (s.ctx c).tmp := by
      rw [← ht, State.ctx_setTmp (s := s.setPort p _) hc]
    have hrest := ih hpt hct hes
    rw [List.flatMap_cons, applyOps_append c _ _ s t ((applyOps_pinOp hp hc b he).trans (by rw [ht]))]
    rw [hpar, hport, htmp] at hrest
    rw [hrest, ← ht]
    refine congrArg Except.ok ?_
    change (((s.setPort p _).setPort p _).setTmp c _).setTmp c _ = _
    rw [State.setTmp_setTmp, State.setPort_setPort]
    rfl

end Sys2Proof.Machine

/-! ### Runtime commands on a pin (spec/41_pin_config.md R163, R166, R172, R173) -/

namespace Sys2Proof.Machine

/-! #### The plans of the micro-programs -/

/-- `AFEN` at the end of the function-select sequence (R166). -/
def Mode.afen : Mode → Bool
  | .alt _ => true
  | .gpio => false
  | .analog => false

/-- `AMSEL` at the end of the function-select sequence (R166). -/
def Mode.amsel : Mode → Bool
  | .analog => true
  | .gpio => false
  | .alt _ => false

/-- `DEN` at the end of the function-select sequence (R166). -/
def Mode.den : Mode → Bool
  | .analog => false
  | .gpio => true
  | .alt _ => true

/-- The function-select sequence (R166). -/
def functionPlan (m : Mode) : List PinOp := [.put .afen m.afen, .nibble m.wire, .put .amsel m.amsel, .put .den m.den]

/-- `PutBit(p, DIR, b, d)`, unless the pin is reserved (R163). -/
def directionPlan (par : Config) (r : PinRecord) (d : Dir) : List PinOp :=
  if par.isReserved r.p r.bit then [] else [.put .dir d.bit]

theorem functionOps_eq_plan (par : Config) (p : Nat) (b : Bit) (m : Mode) :
    functionOps par p b m = (functionPlan m).flatMap (PinOp.micro par p b) := by
  cases m <;>
    simp [functionOps, functionPlan, PinOp.micro, putBitOps, Mode.afen, Mode.amsel, Mode.den]

theorem directionOps_eq_plan (par : Config) (r : PinRecord) (d : Dir) :
    directionOps par r d = (directionPlan par r d).flatMap (PinOp.micro par r.p r.bit) := by
  unfold directionOps directionPlan
  split
  · rfl
  · exact (List.append_nil _).symm

theorem functionPlan_ok (m : Mode) : ∀ e ∈ functionPlan m, e.Ok := by
  simp [functionPlan, PinOp.Ok, Kind.isPinBit, Kind.isConfigBit]

theorem directionPlan_ok (par : Config) (r : PinRecord) (d : Dir) : ∀ e ∈ directionPlan par r d, e.Ok := by
  unfold directionPlan
  split <;> simp [PinOp.Ok, Kind.isPinBit, Kind.isConfigBit]

/-! #### Gated updates, kind by kind (R57, R66) -/

section
variable (par : Config) (x : PortRegs) (b : Bit)

theorem PortRegs.putBit_dir (v : Bool) :
    x.putBit par .dir b v = { x with dir := gatedPut ((x.writable par .dir).getLsbD b.val) x.dir b v } :=
  PortRegs.write_dir_bit par x b v

/-- The end state of the function-select sequence, gated register by register (R166). -/
theorem applyPlan_functionPlan (m : Mode) :
    applyPlan par b (functionPlan m) x =
      { x with
        afen := gatedPut ((x.writable par .afen).getLsbD b.val) x.afen b m.afen
        muxsel := if (x.writable par .muxsel).getLsbD b.val then putNibbleIn x.muxsel b m.wire else x.muxsel
        amsel := gatedPut ((x.writable par .amsel).getLsbD b.val) x.amsel b m.amsel
        den := gatedPut ((x.writable par .den).getLsbD b.val) x.den b m.den } := by
  have hafen : ∀ y : PortRegs, y.putBit par .afen b m.afen = _ := fun y => PortRegs.write_afen_bit par y b m.afen
  have hmux : ∀ y : PortRegs, y.putNibble par b m.wire = _ := fun y => PortRegs.write_muxsel_nibble par y b m.wire
  have hamsel : ∀ y : PortRegs, y.putBit par .amsel b m.amsel = _ := fun y => PortRegs.write_amsel_bit par y b m.amsel
  have hden : ∀ y : PortRegs, y.putBit par .den b m.den = _ := fun y => PortRegs.write_den_bit par y b m.den
  simp only [functionPlan, applyPlan_cons, applyPlan_nil, PinOp.apply, hafen, hmux, hamsel, hden]
  rfl

/-- The last word the sequence reads, of `DEN`, or of `MUXSEL` where the single-bit updates are atomic (R74). -/
theorem planTmp_functionPlan (m : Mode) (w : Word) :
    planTmp par b (functionPlan m) x w = if par.atomicBitops then x.muxsel else x.den.setWidth 32 := by
  simp only [functionPlan, planTmp, PinOp.tmp, PinOp.apply, PortRegs.stored]
  split <;> rfl

end

/-! #### Their guards and their calls -/

theorem recordAt_lt {par : Config} {nports : Nat} {h : Word} {j : Nat} {r : PinRecord}
    (hr : recordAt par nports h j = .ok r) : j < par.npins := by
  unfold recordAt at hr
  split at hr
  · cases hr
  · next rs ht =>
    split at hr
    · next hj =>
      obtain ⟨hlt, _⟩ := List.getElem?_eq_some_iff.1 hj
      exact tableAt_ok ht ▸ hlt
    · cases hr

section
variable {s : State} {pin : BitVec 16} {r : PinRecord} (hm : s.mstate = .initialized)
  (hr : recordAt s.par s.nports s.cfg pin.toNat = .ok r)
include hm hr

theorem State.guardRecord_cmdWord (opc val : Byte) : s.guardRecord (cmdWord opc val pin) = some r := by
  have hlt := recordAt_lt hr
  apply State.guardRecord_of_inRange hm <;> rwa [idxOf, cmdIdx_cmdWord]

/-- Of the guards of `SET_DIR` only `G_DIRCH` can fail, and that stops the command only with `GUARDS` on (R138). -/
theorem guardsPass_setDir (d : Dir) (arg : Word) (hd : s.par.guards = true → r.dirChangeable = true) :
    GuardsPass (commandOf (.setDir d pin arg)) s := by
  rw [GuardsPass, failing_setDir, if_pos hm, if_pos (recordAt_lt hr),
    Guard.ifFails_dirCh (State.guardRecord_cmdWord hm hr _ _)]
  split
  · next hg => rw [hd hg]; rfl
  · split
    · exact List.forall_mem_nil _
    · exact List.forall_mem_singleton.2 rfl

/-- Of the guards of `SET_MODE` with a valid code only `G_MODECH` can fail. -/
theorem guardsPass_setMode {code : Byte} {m : Mode} (hcode : Mode.ofCode code = some m) (arg : Word)
    (hd : s.par.guards = true → r.modeChangeable = true) : GuardsPass (commandOf (.setMode code pin arg)) s := by
  have hvalid : code.toNat ≤ modeMax := (Mode.ofCode_isSome code).1 (hcode ▸ rfl)
  rw [GuardsPass, failing_setMode, if_pos hm, if_pos (recordAt_lt hr), if_pos hvalid,
    Guard.ifFails_modeCh (State.guardRecord_cmdWord hm hr _ _)]
  split
  · next hg => rw [hd hg]; rfl
  · split
    · exact List.forall_mem_nil _
    · exact List.forall_mem_singleton.2 rfl

end

/-- A command other than `INIT` with result 0, whose guards pass and whose micro-ops do not fault. -/
theorem exec_of_ops {i : Instr} {s u : State} {b : Body} {w : Word} (hs : Ready s) (hn : (commandOf i).isInit = false)
    (hw : i.wellFormed s.par = true) (hg : GuardsPass (commandOf i) s) (hb : (commandOf i).bodyIn s = .ok b)
    (hres : b.result = .zero) (hops : applyOps s.cur (b.items.map Prod.snd) s = .ok (u.setTmp s.cur w))
    (hctx : s.cur < u.nctx) (hcur : u.cur = s.cur) (hcfg : u.cfg = s.cfg) (hresp : u.responses = s.responses) :
    exec i s = .next (u.answered i b.finPos w 0) := by
  obtain ⟨hu, hi, hinit⟩ := hs
  have hclash : initClash false s.cur s = false := hinit
  have hp : (commandOf i).present s.par = true := (commandOf_present i s.par).trans hw
  rw [exec_eq_call, call_of_ops hu hi hp hn hclash hg hb hops hcfg hresp, commandOf_cmd, commandOf_arg,
    State.ctx_setTmp hctx, hres, State.setTmp, State.setCtx_setCtx, State.answered, hcur, hresp]
  rfl

/-- A command whose micro-ops are operations on one pin of a clocked port. -/
theorem exec_of_plan {i : Instr} {s : State} {body : Body} {p : Nat} {b : Bit} {es : List PinOp} (hs : Ready s)
    (hn : (commandOf i).isInit = false) (hw : i.wellFormed s.par = true) (hg : GuardsPass (commandOf i) s)
    (hb : (commandOf i).bodyIn s = .ok body) (hres : body.result = .zero)
    (hitems : body.items.map Prod.snd = es.flatMap (PinOp.micro s.par p b)) (hes : ∀ e ∈ es, e.Ok)
    (hp : Clocked s p) :
    exec i s = .next ((s.setPort p (applyPlan s.par b es (s.port p))).answered i body.finPos
      (planTmp s.par b es (s.port p) (s.ctx s.cur).tmp) 0) := by
  have hc := State.canIssue_lt hs.2.1
  have hops := (congrArg (applyOps s.cur · s) hitems).trans (applyOps_plan hp hc b hes)
  exact exec_of_ops hs hn hw hg hb hres hops hc rfl rfl rfl

/-- A command without a micro-op. -/
theorem exec_of_noOps {i : Instr} {s : State} {body : Body} (hs : Ready s) (hn : (commandOf i).isInit = false)
    (hw : i.wellFormed s.par = true) (hg : GuardsPass (commandOf i) s) (hb : (commandOf i).bodyIn s = .ok body)
    (hres : body.result = .zero) (hitems : body.items = []) :
    exec i s = .next (s.answered i body.finPos (s.ctx s.cur).tmp 0) := by
  refine exec_of_ops hs hn hw hg hb hres ?_ (State.canIssue_lt hs.2.1) rfl rfl rfl
  rw [hitems, State.setTmp_self]
  rfl

theorem bodyIn_setDir {s : State} {pin : BitVec 16} {r : PinRecord}
    (hr : recordAt s.par s.nports s.cfg pin.toNat = .ok r) (d : Dir) (arg : Word) :
    (commandOf (.setDir d pin arg)).bodyIn s = .ok (setDirBody s.par d r) := by
  simp only [Command.bodyIn, commandOf, setDirCommand, hr]

theorem bodyIn_setMode {s : State} {pin : BitVec 16} {r : PinRecord} {code : Byte} {m : Mode}
    (hr : recordAt s.par s.nports s.cfg pin.toNat = .ok r) (hcode : Mode.ofCode code = some m) (arg : Word) :
    (commandOf (.setMode code pin arg)).bodyIn s = .ok (setModeBody s.par m r) := by
  simp only [Command.bodyIn, commandOf, setModeCommand, hr, hcode]

end Sys2Proof.Machine

namespace Sys2Proof

open Machine

/-- Settles O42: the plan of `SET_DIR` is one gated update of `DIR`. -/
theorem setDirWritesTheDirectionBit : Obligations.SetDirWritesTheDirectionBit := by
  intro s d pin arg r hs hm hr hd hres hp
  have hplan : directionPlan s.par r d = [.put .dir d.bit] := by rw [directionPlan, hres]; rfl
  have hitems : (setDirBody s.par d r).items.map Prod.snd =
      [PinOp.put .dir d.bit].flatMap (PinOp.micro s.par r.p r.bit) := by
    rw [setDirBody, place_map_snd, directionOps_eq_plan, hplan]
  rw [exec_of_plan hs rfl rfl (guardsPass_setDir hm hr d arg hd) (bodyIn_setDir hr d arg) rfl hitems
    (hplan ▸ directionPlan_ok s.par r d) hp, applyPlan_cons, applyPlan_nil, PinOp.apply, PortRegs.putBit_dir]
  rfl

/-- Settles O43: the plans are empty. -/
theorem runtimeMutatorsSkipReservedPins : Obligations.RuntimeMutatorsSkipReservedPins := by
  intro s d code m pin arg r hs hm hr hres
  refine ⟨fun hd => ?_, fun hw hcode hd => ?_⟩
  · refine exec_of_noOps hs rfl rfl (guardsPass_setDir hm hr d arg hd) (bodyIn_setDir hr d arg) rfl ?_
    rw [setDirBody, directionOps, if_pos hres]
    rfl
  · refine exec_of_noOps (i := .setMode code pin arg) hs rfl hw (guardsPass_setMode hm hr hcode arg hd)
      (bodyIn_setMode hr hcode arg) rfl ?_
    rw [setModeBody, if_pos hres]
    rfl

/-- Settles O44: the plan of `SET_MODE` is the function-select sequence. -/
theorem setModeSelectsTheFunction : Obligations.SetModeSelectsTheFunction := by
  intro s code m pin arg r hs hw hm hcode hr hd hres hp
  have hitems : (setModeBody s.par m r).items.map Prod.snd =
      (functionPlan m).flatMap (PinOp.micro s.par r.p r.bit) := by
    rw [setModeBody, place_map_snd, hres, ← functionOps_eq_plan]
    rfl
  rw [exec_of_plan (i := .setMode code pin arg) hs rfl hw (guardsPass_setMode hm hr hcode arg hd)
      (bodyIn_setMode hr hcode arg) rfl hitems
    (functionPlan_ok m) hp, applyPlan_functionPlan, planTmp_functionPlan]
  rfl

end Sys2Proof

/-! ### Passes over a table (spec/41_pin_config.md R161, R174)

Ports do not look at each other, so a pass makes of each port what the plans of its own records make of it, one record
after another. -/

namespace Sys2Proof.Machine

/-- `CLKEN` becomes `w`, and every port `q` what `f q` makes of it. -/
def State.remake (s : State) (w : Word) (f : Nat → PortRegs → PortRegs) : State :=
  { s with clken := w, ports := s.ports.mapIdx f }

@[simp] theorem State.remake_nports (s : State) (w : Word) (f : Nat → PortRegs → PortRegs) :
    (s.remake w f).nports = s.nports := List.length_mapIdx

theorem State.port_remake {s : State} {q : Nat} (hq : q < s.nports) (w : Word) (f : Nat → PortRegs → PortRegs) :
    (s.remake w f).port q = f q (s.port q) := by
  have hq' : q < s.ports.length := hq
  simp [State.port, State.remake, hq']

theorem State.remake_remake (s : State) (w w' : Word) (f g : Nat → PortRegs → PortRegs) :
    (s.remake w f).remake w' g = s.remake w' fun q x => g q (f q x) := by
  simp only [State.remake, List.mapIdx_mapIdx]
  rfl

theorem State.remake_id (s : State) : s.remake s.clken (fun _ x => x) = s := by
  have hports : s.ports.mapIdx (fun _ x => x) = s.ports := List.ext_getElem List.length_mapIdx (by simp)
  simp only [State.remake, hports]

/-- `f` on port `p` alone. -/
def onPort (p : Nat) (f : PortRegs → PortRegs) (q : Nat) (x : PortRegs) : PortRegs := if p = q then f x else x

theorem State.setPort_eq_remake {s : State} {p : Nat} (hp : p < s.nports) (f : PortRegs → PortRegs) :
    s.setPort p (f (s.port p)) = s.remake s.clken (onPort p f) := by
  have hp' : p < s.ports.length := hp
  have hports : s.ports.set p (f (s.port p)) = s.ports.mapIdx (onPort p f) := by
    refine List.ext_getElem (by simp) fun q hq _ => ?_
    rw [List.getElem_set, List.getElem_mapIdx, onPort]
    split
    · next h => subst h; simp [State.port, hp']
    · rfl
  simp only [State.setPort, State.remake, hports]

/-- What the records of a table make of port `q`, by the plan each has for its pin. -/
def passPort (par : Config) (plan : PinRecord → List PinOp) (rs : List PinRecord) (q : Nat) (x : PortRegs) : PortRegs :=
  rs.foldl (fun x r => onPort r.p (applyPlan par r.bit (plan r)) q x) x

/-- The plan of one record. A reserved pin has the empty plan, which needs no clock. -/
theorem applyOps_record {s : State} {p c : Nat} (hc : c < s.nctx) (b : Bit) {es : List PinOp} (hes : ∀ e ∈ es, e.Ok)
    (hp : es ≠ [] → Clocked s p) :
    applyOps c (es.flatMap (PinOp.micro s.par p b)) s =
      .ok ((s.remake s.clken (onPort p (applyPlan s.par b es))).setTmp c
        (planTmp s.par b es (s.port p) (s.ctx c).tmp)) := by
  by_cases h : es = []
  · subst h
    have hid : onPort p (applyPlan s.par b []) = fun _ x => x := by
      funext q x
      exact ite_self x
    rw [hid, State.remake_id]
    exact congrArg Except.ok (State.setTmp_self s c).symm
  · rw [applyOps_plan (hp h) hc b hes, State.setPort_eq_remake (hp h).1]

/-- A pass, record by record. Where the micro-ops of a record make `κ` of `CLKEN`, and of the ports what its plan says,
as long as `CLKEN` is `good`, those of the table do it for one record after another. -/
theorem applyOps_pass {par : Config} {n c : Nat} {good : Word → Prop} {κ : Word → PinRecord → Word}
    {ops : PinRecord → List MicroOp} {plan : PinRecord → List PinOp} {rs : List PinRecord}
    (hstep : ∀ r ∈ rs, ∀ s : State, s.par = par → s.nports = n → c < s.nctx → good s.clken →
      good (κ s.clken r) ∧ ∃ w, applyOps c (ops r) s =
        .ok ((s.remake (κ s.clken r) (onPort r.p (applyPlan par r.bit (plan r)))).setTmp c w))
    {s : State} (hpar : s.par = par) (hn : s.nports = n) (hc : c < s.nctx) (hgood : good s.clken) :
    ∃ w, applyOps c (rs.flatMap ops) s = .ok ((s.remake (rs.foldl κ s.clken) (passPort par plan rs)).setTmp c w) := by
  induction rs generalizing s with
  | nil => exact ⟨_, congrArg Except.ok ((congrArg (State.setTmp · c _) s.remake_id).trans (s.setTmp_self c)).symm⟩
  | cons r rs ih =>
    obtain ⟨hr, hrs⟩ := List.forall_mem_cons.1 hstep
    obtain ⟨hgood', v, hhead⟩ := hr s hpar hn hc hgood
    generalize ht : s.remake (κ s.clken r) (onPort r.p (applyPlan par r.bit (plan r))) = t at hhead
    have hct : c < (t.setTmp c v).nctx := by rw [State.setTmp_nctx, ← ht]; exact hc
    have hnt : (t.setTmp c v).nports = n := by rw [State.setTmp_nports, ← ht, State.remake_nports, hn]
    obtain ⟨w, hw⟩ := ih hrs (s := t.setTmp c v) (ht ▸ hpar) hnt hct (ht ▸ hgood')
    refine ⟨w, ?_⟩
    rw [List.flatMap_cons, applyOps_append _ _ _ _ _ hhead, hw, ← ht]
    refine congrArg Except.ok ?_
    change ((State.remake (State.remake s _ _) _ _).setTmp c v).setTmp c w = _
    rw [State.setTmp_setTmp, State.remake_remake]
    rfl

/-! #### REFRESH_DIR (R174) -/

/-- The plan REFRESH_DIR has for a record. -/
def refreshPlan (par : Config) (r : PinRecord) : List PinOp := directionPlan par r r.direction

theorem refreshPlan_of_reserved {par : Config} {r : PinRecord} (h : par.isReserved r.p r.bit = true) :
    refreshPlan par r = [] := if_pos h

theorem refreshItems_map_snd (par : Config) (n : Nat) (rs : List PinRecord) :
    (refreshItems par n rs).map Prod.snd =
      rs.flatMap fun r => (refreshPlan par r).flatMap (PinOp.micro par r.p r.bit) := by
  induction rs generalizing n with
  | nil => rfl
  | cons r rs ih =>
    rw [refreshItems, List.map_append, place_map_snd, directionOps_eq_plan, ih, List.flatMap_cons, refreshPlan]

/-- REFRESH_DIR leaves `CLKEN`, so a clock that was on is on at every record. -/
theorem applyOps_refreshItems {s : State} {c : Nat} (hc : c < s.nctx) (n : Nat) {rs : List PinRecord}
    (hrs : ∀ r ∈ rs, s.par.isReserved r.p r.bit = false → Clocked s r.p) :
    ∃ w, applyOps c ((refreshItems s.par n rs).map Prod.snd) s =
      .ok ((s.remake s.clken (passPort s.par (refreshPlan s.par) rs)).setTmp c w) := by
  have hrecord : ∀ r ∈ rs, ∀ u : State, u.par = s.par → u.nports = s.nports → c < u.nctx → u.clken = s.clken →
      u.clken = s.clken ∧ ∃ w, applyOps c ((refreshPlan s.par r).flatMap (PinOp.micro s.par r.p r.bit)) u =
        .ok ((u.remake u.clken (onPort r.p (applyPlan s.par r.bit (refreshPlan s.par r)))).setTmp c w) := by
    intro r hr u hpar hn hcu hclk
    refine ⟨hclk, _, hpar ▸ applyOps_record hcu r.bit (directionPlan_ok u.par r r.direction) fun hne => ?_⟩
    have hres : s.par.isReserved r.p r.bit = false :=
      Bool.eq_false_of_not_eq_true fun h => hne (refreshPlan_of_reserved (hpar ▸ h))
    obtain ⟨hlt, hon⟩ := hrs r hr hres
    exact ⟨hn ▸ hlt, hclk ▸ hon⟩
  have hpass := applyOps_pass (κ := fun v _ => v) (good := (· = s.clken)) hrecord rfl rfl hc rfl
  rwa [List.foldl_fixed, ← refreshItems_map_snd] at hpass

end Sys2Proof.Machine

namespace Sys2Proof.Machine

/-! #### The direction bits after a pass of REFRESH_DIR -/

section
variable (par : Config) (q : Nat)

theorem passPort_cons (plan : PinRecord → List PinOp) (r : PinRecord) (rs : List PinRecord) (x : PortRegs) :
    passPort par plan (r :: rs) q x = passPort par plan rs q (onPort r.p (applyPlan par r.bit (plan r)) q x) := rfl

/-- The record's direction reaches its own pin, unless it is reserved or not writable. -/
theorem onPort_refreshPlan (r : PinRecord) (x : PortRegs) :
    onPort r.p (applyPlan par r.bit (refreshPlan par r)) q x =
      { x with
        dir := gatedPut (decide (r.p = q) && !par.isReserved q r.bit && (x.writable par .dir).getLsbD r.bit.val) x.dir
          r.bit r.direction.bit } := by
  unfold onPort refreshPlan directionPlan
  by_cases hp : r.p = q
  · cases hr : par.isReserved q r.bit with
    | true => simp [hp, hr, gatedPut]
    | false => simp [hp, hr, PinOp.apply, PortRegs.putBit_dir]
  · simp [hp, gatedPut]

theorem onPort_refreshPlan_dir (r : PinRecord) (x : PortRegs) (b : Bit) :
    (onPort r.p (applyPlan par r.bit (refreshPlan par r)) q x).dir.getLsbD b.val =
      if (par.isReserved q b = false ∧ (x.writable par .dir).getLsbD b.val = true) ∧ r.p = q ∧ r.bit = b then
        r.direction.bit
      else x.dir.getLsbD b.val := by
  rw [onPort_refreshPlan, gatedPut_bit _ _ _ _ _ b.isLt]
  refine if_congr ?_ rfl rfl
  by_cases hb : r.bit = b
  · subst hb
    simp only [Bool.and_eq_true, decide_eq_true_eq, Bool.not_eq_true', and_true]
    tauto
  · simp [hb, Fin.val_inj, Ne.symm hb]

/-- The last record of a pin gives its direction (R46). -/
theorem passPort_refreshPlan_dir (rs : List PinRecord) (x : PortRegs) (b : Bit) :
    (passPort par (refreshPlan par) rs q x).dir.getLsbD b.val =
      if par.isReserved q b = false ∧ (x.writable par .dir).getLsbD b.val = true then
        (lastRecord q b anyRecord rs).elim (x.dir.getLsbD b.val) fun r => r.direction.bit
      else x.dir.getLsbD b.val := by
  induction rs generalizing x with
  | nil => exact (ite_self _).symm
  | cons r rs ih =>
    have hwritable : (onPort r.p (applyPlan par r.bit (refreshPlan par r)) q x).writable par .dir =
        x.writable par .dir := by rw [onPort_refreshPlan]; rfl
    rw [passPort_cons, ih, hwritable, onPort_refreshPlan_dir]
    by_cases hcond : par.isReserved q b = false ∧ (x.writable par .dir).getLsbD b.val = true
    · simp only [hcond, true_and, and_self, lastRecord, anyRecord, and_true]
      cases lastRecord q b anyRecord rs with
      | some _ => rfl
      | none => by_cases hown : r.p = q ∧ r.bit = b <;> simp [hown]
    · rw [if_neg hcond, if_neg hcond, if_neg fun h => hcond h.1]

end

theorem State.ctx_answered_cur {s : State} (hc : s.cur < s.nctx) (i : Instr) (fin : Pos) (tmp res : Word) :
    (s.answered i fin tmp res).ctx s.cur =
      { pos := { fin with ph := .idle }, cmd := cmdOf i, arg := argOf i, tmp := tmp, res := res, failf := false,
        ill := false } := State.ctx_setCtx_same s _ _ hc

theorem State.ctx_answered_other {s : State} {c : Nat} (h : c ≠ s.cur) (i : Instr) (fin : Pos) (tmp res : Word) :
    (s.answered i fin tmp res).ctx c = s.ctx c := State.ctx_setCtx_other s _ _ _ h.symm

theorem guardsPass_refreshDir {s : State} (hm : s.mstate = .initialized) (arg : Word) :
    GuardsPass (commandOf (.refreshDir arg)) s := by
  have hf : (commandOf (.refreshDir arg)).failing s = [] :=
    (failingGuards_cons ..).trans ((List.append_nil _).trans (Guard.ifFails_init.trans (if_pos hm)))
  rw [GuardsPass, hf]
  split
  · rfl
  · exact List.forall_mem_nil _

end Sys2Proof.Machine

namespace Sys2Proof

open Machine

/-- Settles O45: the pass writes one direction bit per record that is not reserved. -/
theorem refreshDirRestoresDirections : Obligations.RefreshDirRestoresDirections := by
  intro s arg rs hs hm ht hclk
  have hc := State.canIssue_lt hs.2.1
  have hbody : (commandOf (.refreshDir arg)).bodyIn s = .ok (refreshBody s.par rs) := by
    simp only [Command.bodyIn, commandOf, refreshDirCommand, ht]
  obtain ⟨w, hops⟩ := applyOps_refreshItems hc 0 hclk
  have hexec := exec_of_ops hs rfl rfl (guardsPass_refreshDir hm arg) hbody rfl hops hc rfl rfl rfl
  have hkept := (exec_writesWithin rfl hexec).stored
  generalize hu : s.remake s.clken (passPort s.par (refreshPlan s.par) rs) = u at hexec hkept
  have hcu : u.cur < u.nctx := hu ▸ hc
  have hcur : u.cur = s.cur := hu ▸ rfl
  have hdir : ∀ q < s.nports, ∀ b : Bit, (u.port q).dir.getLsbD b.val = _ := fun q hq b => by
    rw [← hu, State.port_remake hq, passPort_refreshPlan_dir]
  have hout : ∀ q, s.nports ≤ q → u.port q = s.port q := fun q hq => by
    rw [State.port_of_ge hq, State.port_of_ge]
    rwa [← hu, State.remake_nports]
  refine ⟨_, hexec, ?_, hu ▸ rfl, hu ▸ rfl, ?_, ?_, fun c hne => ?_, fun q k hk => ?_, fun r hr hlast hres hw => ?_,
    fun q b hno => ?_⟩
  · rw [← hu]
    exact ⟨rfl, rfl, rfl, rfl, rfl, rfl, rfl, rfl, rfl, rfl, State.remake_nports s s.clken _⟩
  · rw [← hcur, State.ctx_answered_cur hcu]
  · rw [← hcur, State.ctx_answered_cur hcu]
  · rw [State.ctx_answered_other (hcur ▸ hne), ← hu]
    rfl
  · exact hkept q k (by simpa [Instr.writes] using hk)
  · have hlast' : lastRecord r.p r.bit anyRecord rs = some r :=
      hlast.elim (fun hunique => lastRecord_of_unique hunique hr rfl) id
    exact (hdir r.p (hclk r hr hres).1 r.bit).trans (by rw [if_pos ⟨hres, hw⟩, hlast']; rfl)
  · rcases Nat.lt_or_ge q s.nports with hq | hq
    · refine (hdir q hq b).trans (ite_eq_right_iff.2 fun ⟨hres, hw⟩ => ?_)
      cases hl : lastRecord q b anyRecord rs with
      | none => rfl
      | some r =>
        obtain ⟨hr, hrp, hrb, _⟩ := lastRecord_some hl
        rcases hno r hr (by rw [hrp, hrb]) with h | h
        · rw [hres] at h; cases h
        · exact absurd hw (Bool.eq_false_iff.1 h)
    · exact congrArg (fun x : PortRegs => x.dir.getLsbD b.val) (hout q hq)

end Sys2Proof

/-! ### The pass of INIT (spec/41_pin_config.md R161 to R168) -/

namespace Sys2Proof.Machine

/-! #### Its plan -/

/-- Step 4 (R165). -/
def resistorPlan : Resistor → List PinOp
  | .pullUp => [.put .pdr false, .put .pur true]
  | .pullDown => [.put .pur false, .put .pdr true]
  | .none => [.put .pur false, .put .pdr false]

/-- Steps 3 to 5 (R161). -/
def configPlan (r : PinRecord) : List PinOp :=
  .put .dir r.direction.bit ::
    ((if r.direction = .output then [.put .data r.initial.bit] else []) ++
      (if r.direction = .input then resistorPlan r.resistor else []) ++ functionPlan r.mode)

/-- Steps 2 to 5, of a pin that is not reserved (R161, R163). -/
def initPlan (par : Config) (r : PinRecord) : List PinOp :=
  if par.isReserved r.p r.bit then []
  else (if par.isProtected r.p r.bit then [.unlock] else []) ++ configPlan r

theorem initPlan_of_reserved {par : Config} {r : PinRecord} (h : par.isReserved r.p r.bit = true) :
    initPlan par r = [] := if_pos h

theorem initPlan_of_free {par : Config} {r : PinRecord} (h : par.isReserved r.p r.bit = false) :
    initPlan par r = (if par.isProtected r.p r.bit then [.unlock] else []) ++ configPlan r :=
  if_neg (Bool.eq_false_iff.1 h)

theorem resistorOps_eq_plan (par : Config) (p : Nat) (b : Bit) (z : Resistor) :
    resistorOps par p b z = (resistorPlan z).flatMap (PinOp.micro par p b) := by
  cases z <;> simp [resistorOps, resistorPlan, PinOp.micro, putBitOps]

theorem pinOps_eq_plan {par : Config} {r : PinRecord} (h : par.isReserved r.p r.bit = false) :
    pinOps par r = (initPlan par r).flatMap (PinOp.micro par r.p r.bit) := by
  rw [initPlan_of_free h, pinOps, configPlan, functionOps_eq_plan, resistorOps_eq_plan]
  simp only [List.flatMap_append, List.flatMap_cons, List.append_assoc, apply_ite (List.flatMap _), List.flatMap_nil,
    List.append_nil]
  rfl

/-- The updates of steps 3 to 5 are of bits other than commit bits. -/
def PinOp.IsConfig (e : PinOp) : Prop := e.Ok ∧ e ≠ .unlock

theorem configPlan_isConfig (r : PinRecord) : ∀ e ∈ configPlan r, e.IsConfig := by
  have hput : ∀ k v, k.isPinBit = true → (PinOp.put k v).IsConfig := fun k v hk => ⟨hk, nofun⟩
  have hres : ∀ e ∈ resistorPlan r.resistor, e.IsConfig := by
    cases r.resistor <;>
      exact List.forall_mem_cons.2 ⟨hput _ _ rfl, List.forall_mem_singleton.2 (hput _ _ rfl)⟩
  have hfun : ∀ e ∈ functionPlan r.mode, e.IsConfig := by
    simp only [functionPlan, List.forall_mem_cons]
    exact ⟨hput _ _ rfl, ⟨trivial, nofun⟩, hput _ _ rfl, hput _ _ rfl, List.forall_mem_nil _⟩
  simp only [configPlan, List.forall_mem_cons, List.forall_mem_append]
  refine ⟨hput _ _ rfl, ⟨?_, ?_⟩, hfun⟩
  · split
    · exact List.forall_mem_singleton.2 (hput _ _ rfl)
    · exact List.forall_mem_nil _
  · split
    · exact hres
    · exact List.forall_mem_nil _

theorem initPlan_ok (par : Config) (r : PinRecord) : ∀ e ∈ initPlan par r, e.Ok := by
  unfold initPlan
  split
  · exact List.forall_mem_nil _
  · refine List.forall_mem_append.2 ⟨?_, fun e he => (configPlan_isConfig r e he).1⟩
    split
    · exact List.forall_mem_singleton.2 trivial
    · exact List.forall_mem_nil _

/-- The micro-ops of one record, positions aside: step 1 always, the others unless the pin is reserved (R161, R163). -/
def recordOps (par : Config) (r : PinRecord) : List MicroOp :=
  clkSetOps par r.p ++ (initPlan par r).flatMap (PinOp.micro par r.p r.bit)

theorem initItems_map_snd (par : Config) (n : Nat) (rs : List PinRecord) :
    (initItems par n rs).map Prod.snd = rs.flatMap (recordOps par) := by
  induction rs generalizing n with
  | nil => rfl
  | cons r rs ih =>
    rw [initItems, recordItems, List.map_append, List.map_append, place_map_snd, ih, List.flatMap_cons, recordOps]
    cases hres : par.isReserved r.p r.bit with
    | true => rw [initPlan_of_reserved hres]; rfl
    | false => rw [← pinOps_eq_plan hres, ← pinItems_map_snd par n]; rfl

/-! #### What it makes of the surface -/

/-- `ClkSet(p)` is always accessible (R59, R144). -/
theorem applyOps_clkSetOps {s : State} {c : Nat} (hc : c < s.nctx) (p : Nat) :
    ∃ w, applyOps c (clkSetOps s.par p) s = .ok ((s.remake (setBitIn s.clken p) fun _ x => x).setTmp c w) := by
  have hself : ∀ w, clkWrite s w = s.remake w fun _ x => x := fun w =>
    (congrArg (clkWrite · w) s.remake_id).symm
  unfold clkSetOps bitUpdate
  split
  · refine ⟨(s.ctx c).tmp, ?_⟩
    rw [← hself]
    exact congrArg Except.ok (State.setTmp_self (clkWrite s _) c).symm
  · refine ⟨s.clken, ?_⟩
    have htmp := State.ctx_setTmp hc s.clken
    simp only [applyOps, performOp, State.load, State.store, clkRead, htmp, ← hself]
    rfl

/-- `CLKEN` after step 1 of every record. -/
def clkenAfter (rs : List PinRecord) (w : Word) : Word := rs.foldl (fun v r => setBitIn v r.p) w

/-- Every record that has accesses names a port of the surface with a clock bit. -/
def PortsReachable (par : Config) (n : Nat) (rs : List PinRecord) : Prop :=
  ∀ r ∈ rs, par.isReserved r.p r.bit = false → r.p < n ∧ r.p < 32

theorem setBitIn_self {t : Word} {b : Nat} (hb : b < 32) : (setBitIn t b).getLsbD b = true := by
  rw [setBitIn_bit t b b hb, decide_eq_true rfl, Bool.or_true]

/-- Step 1 of a record gives the clock that its other steps need (R164). -/
theorem applyOps_recordOps {s : State} {c : Nat} (hc : c < s.nctx) {r : PinRecord}
    (hr : s.par.isReserved r.p r.bit = false → r.p < s.nports ∧ r.p < 32) :
    ∃ w, applyOps c (recordOps s.par r) s =
      .ok ((s.remake (setBitIn s.clken r.p) (onPort r.p (applyPlan s.par r.bit (initPlan s.par r)))).setTmp c w) := by
  obtain ⟨v, hclk⟩ := applyOps_clkSetOps hc r.p
  generalize ht : s.remake (setBitIn s.clken r.p) (fun _ x => x) = t at hclk
  have hpar : (t.setTmp c v).par = s.par := ht ▸ rfl
  have hct : c < (t.setTmp c v).nctx := by
    rw [State.setTmp_nctx, ← ht]
    exact hc
  have hclocked : initPlan s.par r ≠ [] → Clocked (t.setTmp c v) r.p := fun hne => by
    obtain ⟨hlt, hlt32⟩ := hr (Bool.eq_false_of_not_eq_true fun h => hne (initPlan_of_reserved h))
    refine ⟨?_, by rw [← ht]; exact setBitIn_self hlt32⟩
    rwa [State.setTmp_nports, ← ht, State.remake_nports]
  have hplan := applyOps_record hct r.bit (initPlan_ok s.par r) hclocked
  generalize planTmp _ _ _ _ _ = w at hplan
  rw [hpar] at hplan
  refine ⟨w, ?_⟩
  rw [recordOps, applyOps_append _ _ _ _ _ hclk, hplan, ← ht]
  refine congrArg Except.ok ?_
  change ((State.remake (State.remake s _ _) _ _).setTmp c v).setTmp c w = _
  rw [State.setTmp_setTmp, State.remake_remake]
  rfl

/-- The pass faults on no reachable port. -/
theorem applyOps_initItems {s : State} {c : Nat} (hc : c < s.nctx) (n : Nat) {rs : List PinRecord}
    (hrs : PortsReachable s.par s.nports rs) :
    ∃ w, applyOps c ((initItems s.par n rs).map Prod.snd) s =
      .ok ((s.remake (clkenAfter rs s.clken) (passPort s.par (initPlan s.par) rs)).setTmp c w) := by
  have hpass := applyOps_pass (par := s.par) (c := c) (κ := fun v r => setBitIn v r.p) (good := fun _ => True)
    (ops := recordOps s.par) (plan := initPlan s.par) (rs := rs)
    (fun r hr u hpar hn hcu _ => ⟨trivial, hpar ▸ applyOps_recordOps hcu fun hres => hn ▸ hrs r hr (hpar ▸ hres)⟩)
    rfl rfl hc trivial
  rwa [← initItems_map_snd] at hpass

/-! #### A pass that did not fault -/

theorem applyOps_frame {c : Nat} {ops : List MicroOp} {s t : State} (h : applyOps c ops s = .ok t) :
    OpFrame c s t := by
  induction ops generalizing s with
  | nil => cases h; exact .refl c _
  | cons op ops ih =>
    rw [applyOps] at h
    split at h
    · cases h
    · next hop => exact (performOp_frame hop).trans (ih h)

theorem applyOps_append_ok {c : Nat} {xs ys : List MicroOp} {s t : State} (h : applyOps c (xs ++ ys) s = .ok t) :
    ∃ u, applyOps c xs s = .ok u ∧ applyOps c ys u = .ok t := by
  induction xs generalizing s with
  | nil => exact ⟨s, rfl, h⟩
  | cons op xs ih =>
    rw [List.cons_append, applyOps] at h
    split at h
    · cases h
    · next hop =>
      obtain ⟨u, hu, ht⟩ := ih h
      exact ⟨u, by rw [applyOps, hop]; exact hu, ht⟩

theorem bitUpdate_head (par : Config) (l : Loc) (d : Datum) : ∃ op ops, bitUpdate par l d = op :: ops ∧ op.loc = l := by
  unfold bitUpdate
  split <;> exact ⟨_, _, rfl, rfl⟩

/-- Every pin operation begins with an access to its port. -/
theorem PinOp.micro_head (par : Config) (p : Nat) (b : Bit) (e : PinOp) :
    ∃ k op ops, e.micro par p b = op :: ops ∧ op.loc = .reg p k := by
  cases e with
  | put k v => cases v <;> exact ⟨k, bitUpdate_head par (.reg p k) _⟩
  | nibble n => exact ⟨_, _, _, rfl, rfl⟩
  | unlock => exact ⟨_, _, _, rfl, rfl⟩

/-- An access that does not fault is to a clocked port (R65). -/
theorem clocked_of_applyOps {s t : State} {c p : Nat} {k : Kind} {op : MicroOp} {ops : List MicroOp}
    (hloc : op.loc = .reg p k) (h : applyOps c (op :: ops) s = .ok t) : Clocked s p := by
  refine (s.denied_eq_none p).1 (Option.eq_none_iff_forall_ne_some.2 fun f hf => ?_)
  have hd : s.deniedAt op.loc = some f := by rw [hloc]; exact hf
  rw [applyOps, performOp_of_denied hd] at h
  cases h

/-- The pass faults on a port that is not reachable (R65). -/
theorem portsReachable_of_applyOps {s t : State} {c n : Nat} {rs : List PinRecord}
    (h : applyOps c ((initItems s.par n rs).map Prod.snd) s = .ok t) : PortsReachable s.par s.nports rs := by
  rw [initItems_map_snd] at h
  induction rs generalizing s with
  | nil => exact List.forall_mem_nil _
  | cons r rs ih =>
    obtain ⟨u, hrecord, hrest⟩ := applyOps_append_ok h
    obtain ⟨v, hclk, hplan⟩ := applyOps_append_ok hrecord
    have hu := applyOps_frame hrecord
    refine List.forall_mem_cons.2 ⟨fun hres => ?_, ?_⟩
    · have hne : initPlan s.par r ≠ [] := by
        rw [initPlan_of_free hres]
        exact List.append_ne_nil_of_right_ne_nil _ (List.cons_ne_nil _ _)
      obtain ⟨e, es, hes⟩ := List.exists_cons_of_ne_nil hne
      obtain ⟨k, op, ops, hmicro, hloc⟩ := e.micro_head s.par r.p r.bit
      rw [hes, List.flatMap_cons, hmicro] at hplan
      obtain ⟨hlt, hon⟩ := clocked_of_applyOps hloc hplan
      exact ⟨(applyOps_frame hclk).nports ▸ hlt, BitVec.lt_of_getLsbD hon⟩
    · rw [← hu.par, ← hu.nports]
      exact ih (by rw [hu.par]; exact hrest)

end Sys2Proof.Machine

/-! ### A second pass changes nothing (spec/41_pin_config.md R170, R171)

Each operation of the pass keeps a stored bit or sets it to a value fixed by the record, and whether it does the
one or the other depends on the gate of its pin alone. The gates are the same in both passes: an unprotected pin keeps
its commit bit, and a protected pin is unlocked before its other bits. So after a pass every bit the pass sets has the
value set last, and a second pass sets it to that value again. -/

namespace Sys2Proof.Machine

/-- From ports with `C`, `f` leads to `D`, and each stored bit is kept by `f` or set to one value, whatever the port. -/
def Settles (C D : PortRegs → Prop) (f : PortRegs → PortRegs) : Prop :=
  (∀ x, C x → D (f x)) ∧ ∀ k i, i < 32 →
    (∀ x, C x → ((f x).stored k).getLsbD i = (x.stored k).getLsbD i) ∨
    ∃ v, ∀ x, C x → ((f x).stored k).getLsbD i = v

section
variable {C D E : PortRegs → Prop} {f g : PortRegs → PortRegs}

theorem Settles.weaken (h : ∀ x, C x → D x) : Settles C D fun x => x := ⟨h, fun _ _ _ => .inl fun _ _ => rfl⟩

theorem Settles.comp (hf : Settles C D f) (hg : Settles D E g) : Settles C E fun x => g (f x) := by
  obtain ⟨hCD, hfbit⟩ := hf
  obtain ⟨hDE, hgbit⟩ := hg
  refine ⟨fun x hx => hDE _ (hCD x hx), fun k i hi => ?_⟩
  rcases hgbit k i hi with hkeep | ⟨v, hset⟩
  · rcases hfbit k i hi with hkeep' | ⟨v, hset⟩
    · exact .inl fun x hx => (hkeep _ (hCD x hx)).trans (hkeep' x hx)
    · exact .inr ⟨v, fun x hx => (hkeep _ (hCD x hx)).trans (hset x hx)⟩
  · exact .inr ⟨v, fun x hx => hset _ (hCD x hx)⟩

theorem Settles.foldl {α : Type} {step : PortRegs → α → PortRegs} {xs : List α}
    (h : ∀ a ∈ xs, Settles C C fun x => step x a) : Settles C C fun x => xs.foldl step x := by
  induction xs with
  | nil => exact .weaken fun _ => id
  | cons a xs ih =>
    obtain ⟨ha, hxs⟩ := List.forall_mem_cons.1 h
    exact ha.comp (ih hxs)

/-- The stored words of the ten kinds are all a port holds (R30). -/
theorem PortRegs.ext_stored {x y : PortRegs} (h : ∀ k, x.stored k = y.stored k) : x = y := by
  have hbyte : ∀ u v : Byte, u.setWidth 32 = v.setWidth 32 → u = v := fun u v he => by
    simpa using congrArg (BitVec.setWidth 8) he
  have hlock : x.locked = y.locked := by
    have hl := h .lock
    cases hx : x.locked <;> cases hy : y.locked <;> simp [PortRegs.stored, hx, hy] at hl ⊢
  obtain ⟨⟩ := x
  obtain ⟨⟩ := y
  congr
  · exact hbyte _ _ (h .data)
  · exact hbyte _ _ (h .dir)
  · exact hbyte _ _ (h .afen)
  · exact hbyte _ _ (h .pur)
  · exact hbyte _ _ (h .pdr)
  · exact hbyte _ _ (h .den)
  · exact hbyte _ _ (h .commit)
  · exact hbyte _ _ (h .amsel)
  · exact h .muxsel

theorem Settles.idem (h : Settles C C f) {x : PortRegs} (hx : C x) : f (f x) = f x := by
  obtain ⟨hC, hbit⟩ := h
  refine PortRegs.ext_stored fun k => BitVec.eq_of_getLsbD_eq fun i hi => ?_
  rcases hbit k i hi with hkeep | ⟨v, hset⟩
  · exact hkeep _ (hC x hx)
  · rw [hset _ (hC x hx), hset x hx]

end

/-! #### Stored bits after a pin operation -/

theorem setWidth_low (x : Byte) {i : Nat} (hi : i < 8) : (x.setWidth 32 : Word).getLsbD i = x.getLsbD i :=
  setWidth_bit x ⟨i, hi⟩

theorem setWidth_high (x : Byte) {i : Nat} (hi : 8 ≤ i) : (x.setWidth 32 : Word).getLsbD i = false :=
  (BitVec.getLsbD_setWidth ..).trans (by rw [BitVec.getLsbD_of_ge _ _ hi, Bool.and_false])

/-- Bit by bit, a byte of which bit `b` was replaced, as a register read returns it (R41). -/
theorem putByteBit_setWidth_bit (d : Byte) (b : Bit) (v : Bool) (i : Nat) :
    ((putByteBit d b v).setWidth 32 : Word).getLsbD i =
      if i = b.val then v else (d.setWidth 32 : Word).getLsbD i := by
  rcases Nat.lt_or_ge i 8 with hi | hi
  · rw [setWidth_low _ hi, setWidth_low _ hi, putByteBit_bit _ _ _ _ hi]
  · have hne : i ≠ b.val := by omega
    rw [setWidth_high _ hi, setWidth_high _ hi, if_neg hne]

section
variable (par : Config) (b : Bit) (x : PortRegs)

theorem PortRegs.stored_high {k : Kind} (hk : k.isConfigBit = true) {i : Nat} (hi : 8 ≤ i) :
    (x.stored k).getLsbD i = false := by
  cases k with
  | data | lock | commit | muxsel => cases hk
  | _ => exact setWidth_high _ hi

theorem PortRegs.putBit_pinBit {k : Kind} (hk : k.isPinBit = true) (v : Bool) (i : Nat) :
    ((x.putBit par k b v).stored k).getLsbD i =
      if (x.writable par k).getLsbD b.val = true ∧ i = b.val then v else (x.stored k).getLsbD i := by
  by_cases hdata : k = .data
  · subst hdata
    have hput : x.putBit par .data b v = { x with data := putByteBit x.data b v } := PortRegs.write_data_bit par x b v
    have hw : (x.writable par .data).getLsbD b.val = true := (PortRegs.writable_bit par x .data b).2 (.inl rfl)
    simp only [hput, hw, true_and]
    exact putByteBit_setWidth_bit x.data b v i
  · have hconfig : k.isConfigBit = true := by
      cases k with
      | data => exact absurd rfl hdata
      | _ => exact hk
    rcases Nat.lt_or_ge i 8 with hi | hi
    · simpa only [Fin.ext_iff] using PortRegs.putBit_stored_bit par b v x hconfig ⟨i, hi⟩
    · have hne : i ≠ b.val := by omega
      rw [PortRegs.stored_high _ hconfig hi, PortRegs.stored_high _ hconfig hi, if_neg fun h => hne h.2]

theorem PortRegs.putNibble_bit (c : BitVec 4) {i : Nat} (hi : i < 32) :
    ((x.putNibble par b c).stored .muxsel).getLsbD i =
      if (x.writable par .muxsel).getLsbD b.val = true ∧ i / 4 = b.val then c.getLsbD (i % 4)
      else (x.stored .muxsel).getLsbD i := by
  have hput : (x.putNibble par b c).stored .muxsel = _ :=
    congrArg PortRegs.muxsel (PortRegs.write_muxsel_nibble par x b c)
  rw [hput]
  split
  · next hw => simp only [hw, true_and, putNibbleIn_bit _ _ _ _ hi, PortRegs.stored]
  · next hw => rw [if_neg fun h => hw h.1]; rfl

end

/-! #### The gates of a pass -/

/-- The commit bits of unprotected pins are those of `g`. -/
def CommitsAs (par : Config) (q : Nat) (g : Byte) (x : PortRegs) : Prop :=
  ∀ b : Bit, par.isProtected q b = false → x.commit.getLsbD b.val = g.getLsbD b.val

/-- And pin `b`, if protected, is unlocked. -/
def Unlocked (par : Config) (q : Nat) (g : Byte) (b : Bit) (x : PortRegs) : Prop :=
  CommitsAs par q g x ∧ (par.isProtected q b = true → x.commit.getLsbD b.val = true)

section
variable {par : Config} {q : Nat} {g : Byte} {b : Bit}

/-- Whether pin `b` is writable past its unlock does not depend on the port. -/
theorem Unlocked.writable {x : PortRegs} (h : Unlocked par q g b x) (k : Kind) :
    (x.writable par k).getLsbD b.val = (!par.gates k || par.isProtected q b || g.getLsbD b.val) := by
  obtain ⟨hfree, hprotected⟩ := h
  rw [Bool.eq_iff_iff, PortRegs.writable_bit]
  cases hp : par.isProtected q b with
  | true => simp [hprotected hp]
  | false => simp [-BitVec.getLsbD_eq_getElem, hfree b hp]

theorem PinOp.IsConfig.commit {e : PinOp} (he : e.IsConfig) (x : PortRegs) : (e.apply par b x).commit = x.commit := by
  cases e with
  | put k v =>
    refine PortRegs.write_commit_other par _ x ?_
    rintro rfl
    cases he.1
  | nibble c => exact PortRegs.putNibble_commit par b c x
  | unlock => exact absurd rfl he.2

/-- An update of a gated bit sets it or keeps it, as the gate says. -/
theorem settles_gated {f : PortRegs → PortRegs} {k : Kind} {mine : Nat → Prop} {v : Nat → Bool}
    (hcommit : ∀ x, (f x).commit = x.commit) (hother : ∀ x k', k' ≠ k → (f x).stored k' = x.stored k')
    (hbit : ∀ x i, i < 32 → ((x.writable par k).getLsbD b.val = true ∧ mine i → ((f x).stored k).getLsbD i = v i) ∧
      (¬((x.writable par k).getLsbD b.val = true ∧ mine i) → ((f x).stored k).getLsbD i = (x.stored k).getLsbD i)) :
    Settles (Unlocked par q g b) (Unlocked par q g b) f := by
  refine ⟨fun x hx => ?_, fun k' i hi => ?_⟩
  · obtain ⟨hfree, hprotected⟩ := hx
    simp only [Unlocked, CommitsAs, hcommit]
    exact ⟨hfree, hprotected⟩
  · by_cases hk : k' = k
    · subst hk
      by_cases hset : (!par.gates k' || par.isProtected q b || g.getLsbD b.val) = true ∧ mine i
      · exact .inr ⟨v i, fun x hx => (hbit x i hi).1 (by rwa [hx.writable])⟩
      · exact .inl fun x hx => (hbit x i hi).2 (by rwa [hx.writable])
    · exact .inl fun x _ => by rw [hother x k' hk]

theorem settles_config {e : PinOp} (he : e.IsConfig) :
    Settles (Unlocked par q g b) (Unlocked par q g b) fun x => e.apply par b x := by
  cases e with
  | put k v =>
    refine settles_gated (k := k) (mine := (· = b.val)) (v := fun _ => v) he.commit
      (fun x k' hk' => PortRegs.putBit_stored_other par b v x hk') fun x i _ => ?_
    have hbit := PortRegs.putBit_pinBit par b x he.1 v i
    exact ⟨fun h => hbit.trans (if_pos h), fun h => hbit.trans (if_neg h)⟩
  | nibble c =>
    refine settles_gated (k := .muxsel) (mine := (· / 4 = b.val)) (v := fun i => c.getLsbD (i % 4)) he.commit
      (fun x k' hk' => PortRegs.write_stored_other par .muxsel k' _ x hk') fun x i hi => ?_
    have hbit := PortRegs.putNibble_bit par b x c hi
    exact ⟨fun h => hbit.trans (if_pos h), fun h => hbit.trans (if_neg h)⟩
  | unlock => exact absurd rfl he.2

theorem settles_unlock (hb : par.isProtected q b = true) :
    Settles (CommitsAs par q g) (Unlocked par q g b) fun x => PinOp.unlock.apply par b x := by
  refine ⟨fun x hx => ⟨fun b' hb' => ?_, fun _ => ?_⟩, fun k i hi => ?_⟩
  · have hne : b'.val ≠ b.val := fun h => by
      rw [Fin.ext h, hb] at hb'
      cases hb'
    exact (putByteBit_bit _ _ _ _ b'.isLt).trans ((if_neg hne).trans (hx b' hb'))
  · exact (putByteBit_bit _ _ _ _ b.isLt).trans (if_pos rfl)
  · cases k with
    | lock => exact .inr ⟨(0 : Word).getLsbD i, fun _ _ => rfl⟩
    | commit =>
      have hbit := fun x : PortRegs => putByteBit_setWidth_bit x.commit b true i
      by_cases hib : i = b.val
      · exact .inr ⟨true, fun x _ => (hbit x).trans (if_pos hib)⟩
      · exact .inl fun x _ => (hbit x).trans (if_neg hib)
    | _ => exact .inl fun _ _ => rfl

/-- Steps 2 to 5 of a record of port `q`. -/
theorem settles_initPlan {r : PinRecord} (hr : r.p = q) :
    Settles (CommitsAs par q g) (CommitsAs par q g) fun x => applyPlan par r.bit (initPlan par r) x := by
  subst hr
  cases hres : par.isReserved r.p r.bit with
  | true => rw [initPlan_of_reserved hres]; exact .weaken fun _ => id
  | false =>
    have hconfig : Settles (Unlocked par r.p g r.bit) (CommitsAs par r.p g) fun x =>
        applyPlan par r.bit (configPlan r) x :=
      (Settles.foldl fun e he => settles_config (configPlan_isConfig r e he)).comp (.weaken fun _ => And.left)
    rw [initPlan_of_free hres]
    cases hp : par.isProtected r.p r.bit with
    | true => exact (settles_unlock hp).comp hconfig
    | false => exact (Settles.weaken fun x hx => ⟨hx, fun h => (nomatch hp.symm.trans h)⟩).comp hconfig

theorem settles_passPort (rs : List PinRecord) :
    Settles (CommitsAs par q g) (CommitsAs par q g) fun x => passPort par (initPlan par) rs q x := by
  refine Settles.foldl fun r _ => ?_
  unfold onPort
  by_cases hr : r.p = q
  · simp only [if_pos hr]
    exact settles_initPlan hr
  · simp only [if_neg hr]
    exact .weaken fun _ => id

end

theorem passPort_initPlan_idem (par : Config) (rs : List PinRecord) (q : Nat) (x : PortRegs) :
    passPort par (initPlan par) rs q (passPort par (initPlan par) rs q x) = passPort par (initPlan par) rs q x :=
  (settles_passPort (g := x.commit) rs).idem fun _ _ => rfl

theorem clkenAfter_bit (rs : List PinRecord) (w : Word) {i : Nat} (hi : i < 32) :
    (clkenAfter rs w).getLsbD i = (w.getLsbD i || rs.any fun r => decide (i = r.p)) := by
  induction rs generalizing w with
  | nil => exact (Bool.or_false _).symm
  | cons r rs ih =>
    have hstep : clkenAfter (r :: rs) w = clkenAfter rs (setBitIn w r.p) := rfl
    rw [hstep, ih, setBitIn_bit _ _ _ hi, List.any_cons, Bool.or_assoc]

theorem clkenAfter_idem (rs : List PinRecord) (w : Word) : clkenAfter rs (clkenAfter rs w) = clkenAfter rs w := by
  refine BitVec.eq_of_getLsbD_eq fun i hi => ?_
  rw [clkenAfter_bit _ _ hi, clkenAfter_bit _ _ hi, Bool.or_assoc, Bool.or_self]

end Sys2Proof.Machine

/-! ### Calls of INIT (spec/41_pin_config.md R162, R168, R170) -/

namespace Sys2Proof.Machine

/-! #### From GUARD to Complete -/

theorem itemStep_dress {c : Nat} {op : MicroOp} {s t : State} (hc : c < s.nctx) (h : performOp c op s = .ok t) (q : Pos)
    (x : Ctx) (g : Word) : itemStep c op q (s.dress c x g) = t.dress c { x with pos := q } g := by
  have ht : c < t.nctx := (performOp_frame h).nctx ▸ hc
  rw [itemStep, performOp_dress s c x g op hc, h]
  change (t.dress c x g).setPos c q = _
  rw [State.setPos, State.ctx_dress t c x g ht]
  simp only [State.dress, State.setCtx, List.set_set]

/-- A fault of a micro-op marks the state, and no item is run after it (R230). -/
theorem runItems_of_fault {c : Nat} {fin : Pos} {items : List Item} {s : State} {f : Fault} {x : Ctx} {g : Word}
    (hl : s.live = true) (hc : c < s.nctx) (h : applyOps c (items.map Prod.snd) s = .error f) :
    (runItems c fin items (s.dress c x g)).live = false := by
  induction items generalizing s x with
  | nil => cases h
  | cons item rest ih =>
    rw [List.map_cons, applyOps] at h
    rw [runItems]
    split at h
    · next e hop =>
      have hop' : performOp c item.2 (s.dress c x g) = .error e := by rw [performOp_dress s c x g _ hc, hop]; rfl
      rw [itemStep_of_fault hop', State.andThen_of_marked _ _ (State.markFault_not_live _ _)]
      exact State.markFault_not_live _ _
    · next t hop =>
      have ht := performOp_frame hop
      have hlt : t.live = true := ht.live.trans hl
      have hld : (t.dress c { x with pos := headPos fin rest } g).live = true := hlt
      rw [itemStep_dress hc hop, State.andThen_of_live _ _ hld]
      exact ih hlt (ht.nctx ▸ hc) h

/-- `s` after `INIT h` completed on context `s.cur` over a table of `n` records, with its effect on the surface already
in `s` (R168). -/
def State.afterInit (s : State) (h : Word) (n : Nat) (tmp : Word) : State :=
  { s.answered (.init h) (finAt n) tmp 0 with mstate := .initialized, cfg := h }

theorem guardsFail_init (h : Word) (s : State) :
    (commandOf (.init h)).guardsFail s = true ↔ s.par.guards = true ∧ h = nullHandle := by
  rw [Command.guardsFail, failing_init, Bool.and_eq_true]
  by_cases hn : h = nullHandle <;> simp [hn]

theorem tableAt_nullHandle (par : Config) (n : Nat) : tableAt par n nullHandle = .error .unknownHandle := by
  have hnone : storeAt par.tables nullHandle = none := if_pos rfl
  rw [tableAt, hnone]

/-- `s` with `INIT h` just launched on context `s.cur`, to go on at `q` (R162). -/
def State.launchedInit (s : State) (h : Word) (q : Pos) : State :=
  s.dress s.cur { (s.ctx s.cur).latch (cmdOf (.init h)) h .guard with pos := q } h

/-- FIN of `INIT` and Complete (R139, R168). -/
theorem complete_finStep_init {c : Nat} {s : State} (hc : c < s.nctx) (h : Word) :
    complete c (finStep (commandOf (.init h)) c .zero s) =
      { s.setCtx c { s.ctx c with res := 0, pos := { (s.ctx c).pos with ph := .idle } } with
        mstate := .initialized
        responses := s.responses ++ [⟨c, 0, (s.ctx c).ill⟩] } := by
  have hfin : finStep (commandOf (.init h)) c .zero s = { s with mstate := .initialized }.setCtx c
      { s.ctx c with res := 0, pos := { (s.ctx c).pos with ph := .finish } } := rfl
  rw [hfin, complete, State.setCtx_setCtx, State.ctx_setCtx_same { s with mstate := .initialized } _ _ hc]
  rfl

section
variable {s : State} {h : Word} {rs : List PinRecord} (hs : ReadyForInit s) (ht : tableAt s.par s.nports h = .ok rs)
include hs ht

/-- An `INIT` of a well-formed table is launched: its micro-ops, FIN and Complete follow (R162). -/
theorem exec_init_of_table :
    exec (.init h) s = .next (((runItems s.cur (finAt rs.length) (initItems s.par 0 rs)
      (s.launchedInit h (headPos (finAt rs.length) (initItems s.par 0 rs)))).andThen
      (finStep (commandOf (.init h)) s.cur .zero)).andThen (complete s.cur)) := by
  obtain ⟨hu, hi, hidle⟩ := hs
  have hc := State.canIssue_lt hi
  have hne : h ≠ nullHandle := fun he => by
    rw [he, tableAt_nullHandle] at ht
    cases ht
  have hbody : ∀ g, (commandOf (.init h)).body s.par s.nports g = .ok (initBody s.par rs) := fun g => by
    simp only [commandOf, initCommand, ht]
  have hpass : GuardsPass (commandOf (.init h)) (s.issued (.init h)) := by
    rw [GuardsPass, failing_init, if_neg hne]
    split
    · rfl
    · exact List.forall_mem_nil _
  have hguard : guardStep (commandOf (.init h)) s.cur (s.issued (.init h)) =
      s.launchedInit h (headPos (finAt rs.length) (initItems s.par 0 rs)) := by
    rw [guardStep_of_pass hpass, enterBody_of_ok (s := s.issued (.init h)) (hbody s.cfg), State.setPos]
    change ({ s.issued (.init h) with cfg := h } : State).setCtx s.cur
      { (s.issued (.init h)).ctx s.cur with pos := headPos (finAt rs.length) (initItems s.par 0 rs) } = _
    rw [State.ctx_issued hc]
    simp only [State.launchedInit, State.dress, State.issued, State.setCtx, List.set_set]
    rfl
  generalize headPos (finAt rs.length) (initItems s.par 0 rs) = q at hguard ⊢
  have hown : (s.launchedInit h q).ctx s.cur = _ := State.ctx_dress s s.cur _ h hc
  have hrun : runBody (commandOf (.init h)) s.cur (s.launchedInit h q) =
      (runItems s.cur (finAt rs.length) (initItems s.par 0 rs) (s.launchedInit h q)).andThen
        (finStep (commandOf (.init h)) s.cur .zero) := by
    have hb : (commandOf (.init h)).bodyIn (s.launchedInit h q) = .ok (initBody s.par rs) := hbody h
    rw [runBody, hown, if_neg nofun, hb]
    rfl
  have hlive : (s.launchedInit h q).live = true := (State.live_iff s).2 hu
  rw [exec_of_noClash (i := .init h) hu hi rfl (initClash_init.2 hidle), hguard, State.andThen_of_live _ _ hlive, hrun]

/-- The end of an `INIT` whose micro-ops do not fault. -/
theorem exec_init_of_ops {u : State} {w : Word}
    (hops : applyOps s.cur ((initItems s.par 0 rs).map Prod.snd) s = .ok (u.setTmp s.cur w)) (hc : s.cur < u.nctx)
    (hcur : u.cur = s.cur) : exec (.init h) s = .next (u.afterInit h rs.length w) := by
  have hl := (State.live_iff s).2 hs.1
  have hitems := runItems_dress s.cur (finAt rs.length) (initItems s.par 0 rs) s (u.setTmp s.cur w)
    { (s.ctx s.cur).latch (cmdOf (.init h)) h .guard with pos := headPos (finAt rs.length) (initItems s.par 0 rs) } h
    hl (State.canIssue_lt hs.2.1) rfl hops
  rw [exec_init_of_table hs ht, State.launchedInit, hitems]
  generalize hv : (u.setTmp s.cur w).dress s.cur _ h = v
  have hvl : v.live = true := hv ▸ (applyOps_frame hops).live.trans hl
  have hvc : s.cur < v.nctx := by rw [← hv, State.dress_nctx, State.setTmp_nctx]; exact hc
  have hfl : (finStep (commandOf (.init h)) s.cur .zero v).live = true := hvl
  have hown : v.ctx s.cur = _ := hv ▸ State.ctx_dress _ _ _ _ (by rwa [State.setTmp_nctx])
  rw [State.andThen_of_live _ _ hvl, State.andThen_of_live _ _ hfl, complete_finStep_init hvc, hown,
    State.ctx_setTmp hc, ← hv, State.afterInit, State.answered, hcur]
  simp only [State.dress, State.setTmp, State.setCtx, List.set_set]
  rfl

/-- An `INIT` one of whose micro-ops faults ends marked. -/
theorem exec_init_of_fault {f : Fault}
    (hops : applyOps s.cur ((initItems s.par 0 rs).map Prod.snd) s = .error f) {t : State}
    (hexec : exec (.init h) s = .next t) : t.live = false := by
  obtain ⟨hu, hi, _⟩ := id hs
  have hitems : (runItems s.cur (finAt rs.length) (initItems s.par 0 rs)
      (s.launchedInit h (headPos (finAt rs.length) (initItems s.par 0 rs)))).live = false :=
    runItems_of_fault ((State.live_iff s).2 hu) (State.canIssue_lt hi) hops
  rw [exec_init_of_table hs ht] at hexec
  cases hexec
  rw [State.andThen_of_marked _ _ hitems, State.andThen_of_marked _ _ hitems]
  exact hitems

end

end Sys2Proof.Machine

namespace Sys2Proof.Machine

/-! #### One INIT after another -/

theorem readyForInit_of_exec {h : Word} {s t : State} (hexec : exec (.init h) s = .next t) (ht : Unmarked t) :
    ReadyForInit s := by
  rw [exec_eq_call] at hexec
  obtain ⟨hl, hi, rfl⟩ := call_next hexec
  refine ⟨(State.live_iff s).1 hl, hi, initClash_init.1 (Bool.eq_false_of_not_eq_true fun hclash => ?_)⟩
  obtain ⟨hlive, _⟩ := State.andThen_of_live_end ((State.live_iff _).2 ht)
  rw [issue_of_clash (k := commandOf (.init h)) rfl hclash, State.markFault_not_live] at hlive
  cases hlive

/-- A state that differs from one where an `INIT` can be issued in nothing that Issue looks at. -/
theorem ReadyForInit.of_idle {s t : State} {x : Ctx} (hs : ReadyForInit s) (hu : Unmarked t) (hcur : t.cur = s.cur)
    (hctxs : t.ctxs = s.ctxs.set s.cur x) (hx : x.pos.ph = .idle) : ReadyForInit t := by
  obtain ⟨_, hi, hidle⟩ := hs
  have hc : s.cur < s.ctxs.length := State.canIssue_lt hi
  refine ⟨hu, State.canIssue_iff.2 ⟨?_, ?_⟩, ?_⟩
  · rw [State.nctx, hctxs, List.length_set, hcur]
    exact hc
  · rw [State.ctx, hctxs, hcur]
    simpa [hc] using hx
  · rwa [State.others, hctxs, hcur, List.eraseIdx_set_eq]

/-- An `INIT` of reachable ports programs them all, and completes (R161, R168). -/
theorem exec_init_of_reachable {h : Word} {s : State} {rs : List PinRecord} (hs : ReadyForInit s)
    (ht : tableAt s.par s.nports h = .ok rs) (hrs : PortsReachable s.par s.nports rs) :
    ∃ w, exec (.init h) s = .next
      ((s.remake (clkenAfter rs s.clken) (passPort s.par (initPlan s.par) rs)).afterInit h rs.length w) := by
  have hc := State.canIssue_lt hs.2.1
  obtain ⟨w, hops⟩ := applyOps_initItems hc 0 hrs
  exact ⟨w, exec_init_of_ops hs ht hops hc rfl⟩

/-- An `INIT` that ends unmarked was launched, and no access of it faulted. -/
theorem reachable_of_exec_init {h : Word} {s t : State} (hexec : exec (.init h) s = .next t) (ht : Unmarked t)
    (hf : (commandOf (.init h)).guardsFail s = false) :
    ∃ rs, tableAt s.par s.nports h = .ok rs ∧ PortsReachable s.par s.nports rs := by
  have hs := readyForInit_of_exec hexec ht
  obtain ⟨hu, hi, hidle⟩ := id hs
  have hend := (State.live_iff t).2 ht
  have hcall := exec_of_noClash (i := .init h) hu hi rfl (initClash_init.2 hidle)
  obtain rfl : t = _ := Host.Outcome.next.inj (hexec.symm.trans hcall)
  obtain ⟨hbody, _⟩ := State.andThen_of_live_end hend
  obtain ⟨hguard, _⟩ := State.andThen_of_live_end hbody
  obtain ⟨b, hb, _⟩ := guardStep_of_live (s := s.issued (.init h)) hf hguard
  cases isBody_of_ok hb with
  | init _ rs htable =>
    refine ⟨rs, htable, ?_⟩
    cases hops : applyOps s.cur ((initItems s.par 0 rs).map Prod.snd) s with
    | error f =>
      rw [exec_init_of_fault hs htable hops hexec] at hend
      cases hend
    | ok v => exact portsReachable_of_applyOps hops

/-- A second pass leaves the ports of one (R170). -/
theorem State.remake_ports_idem {f : Nat → PortRegs → PortRegs} (hf : ∀ q x, f q (f q x) = f q x) (s : State)
    (w : Word) : (s.remake w f).ports.mapIdx f = (s.remake w f).ports := by
  refine (congrArg State.ports (s.remake_remake w w f f)).trans ?_
  simp only [hf]

end Sys2Proof.Machine

namespace Sys2Proof

open Machine

/-- Settles O48: the second pass sets every bit to the value the first set last, and the null handle only reports. -/
theorem initTwiceIsInitOnce : Obligations.InitTwiceIsInitOnce := by
  intro s t u h hst ht htu
  have hs := readyForInit_of_exec hst ht
  cases hf : (commandOf (.init h)).guardsFail s with
  | true =>
    obtain ⟨hg, rfl⟩ := (guardsFail_init h s).1 hf
    obtain rfl := Host.Outcome.next.inj (hst.symm.trans (initOfNullOnlyReports s hs hg))
    have hs' := hs.of_idle ht rfl rfl rfl
    obtain rfl := Host.Outcome.next.inj (htu.symm.trans (initOfNullOnlyReports _ hs' hg))
    refine ⟨ht, rfl, rfl, rfl, fun hcase => ?_⟩
    rcases hcase with hne | hoff
    · exact absurd rfl hne
    · exact nomatch hg.symm.trans hoff
  | false =>
    obtain ⟨rs, htable, hrs⟩ := reachable_of_exec_init hst ht hf
    obtain ⟨w, hfirst⟩ := exec_init_of_reachable hs htable hrs
    obtain rfl := Host.Outcome.next.inj (hst.symm.trans hfirst)
    have hn := State.remake_nports s (clkenAfter rs s.clken) (passPort s.par (initPlan s.par) rs)
    obtain ⟨w', hsecond⟩ := exec_init_of_reachable (hs.of_idle ht rfl rfl rfl) (hn.symm ▸ htable) (hn.symm ▸ hrs)
    obtain rfl := Host.Outcome.next.inj (htu.symm.trans hsecond)
    exact ⟨ht, State.remake_ports_idem (passPort_initPlan_idem s.par rs) s (clkenAfter rs s.clken),
      clkenAfter_idem rs s.clken, rfl, fun _ => ⟨rfl, rfl, rfl⟩⟩

end Sys2Proof

/-! ### Commands of the Channel Access Engine from Issue to Complete (spec/42_channel_access.md R190) -/

namespace Sys2Proof.Machine

/-! #### Bodies and guards -/

/-- A command has the body that `IsBody` gives it. -/
theorem IsBody.bodyIn {i : Instr} {s : State} {b : Body} (h : IsBody s.par s.nports s.cfg i b) :
    (commandOf i).bodyIn s = .ok b := by
  cases h <;>
    simp only [Command.bodyIn, commandOf, initCommand, setDirCommand, setModeCommand, refreshDirCommand, readChCommand,
      writeChCommand, readPortCommand, writePortCommand, readGroupCommand, writeGroupCommand, flipChCommand, *]

/-- A handle with a descriptor is not null, and the descriptor is well-formed (R47, R109). -/
theorem groupAt_ok {par : Config} {nports : Nat} {h : Word} {d : Descriptor} (hd : groupAt par nports h = .ok d) :
    h ≠ nullHandle ∧ d.wellFormed nports = true := by
  unfold groupAt storeAt at hd
  split at hd
  · cases hd
  · next hw =>
    have hne : h ≠ nullHandle := fun he => by rw [if_pos he] at hw; cases hw
    split at hd
    · cases hd
    · split at hd
      · next hwf => cases hd; exact ⟨hne, hwf⟩
      · cases hd

theorem guardsPass_of_noneFails {k : Command} {s : State} (h : k.failing s = []) : GuardsPass k s := by
  rw [GuardsPass, h]
  split
  · rfl
  · exact List.forall_mem_nil _

section
variable {i : Instr} {s : State} (hm : s.mstate = .initialized)
include hm

theorem guardsPass_initPin {opc val : Byte} {pin : BitVec 16} (hgs : (commandOf i).guards = [.init, .pin])
    (hcmd : cmdOf i = cmdWord opc val pin) (hpin : pin.toNat < s.par.npins) : GuardsPass (commandOf i) s := by
  refine guardsPass_of_noneFails ?_
  rw [Command.failing, hgs, commandOf_cmd, hcmd, failingGuards_initPin_only, if_pos hm, if_pos hpin]
  rfl

theorem guardsPass_initPort {opc val : Byte} {port : BitVec 16} (hgs : (commandOf i).guards = [.init, .port])
    (hcmd : cmdOf i = cmdWord opc val port) (hport : port.toNat < s.nports) : GuardsPass (commandOf i) s := by
  refine guardsPass_of_noneFails ?_
  rw [Command.failing, hgs, commandOf_cmd, hcmd, failingGuards_initPort, if_pos hm, if_pos hport]
  rfl

theorem guardsPass_initPtr {h : Word} {d : Descriptor} (hgs : (commandOf i).guards = [.init, .ptr])
    (hd : groupAt s.par s.nports h = .ok d) (harg : argOf i = h) : GuardsPass (commandOf i) s := by
  refine guardsPass_of_noneFails ?_
  rw [Command.failing, hgs, commandOf_arg, harg, failingGuards_initPtr, if_pos hm, if_neg (groupAt_ok hd).1]
  rfl

end

/-! #### From GUARD on -/

section
variable {i : Instr} {s : State} (hs : Ready s) (hw : i.wellFormed s.par = true)
  (hn : (commandOf i).isInit = false) (hg : GuardsPass (commandOf i) s)
include hs hw hn hg

/-- A command whose micro-ops do not fault completes with FIN's function of the last `TMP` (R139). -/
theorem exec_of_accessOps {ops : List MicroOp} {res : Result} {u : State} {w : Word}
    (hb : IsBody s.par s.nports s.cfg i (accessBody ops res)) (hops : applyOps s.cur ops s = .ok (u.setTmp s.cur w))
    (hcur : u.cur = s.cur) : exec i s = .next (u.answered i ⟨0, .access, ops.length⟩ w (res.eval w)) := by
  obtain ⟨hu, hi, hinit⟩ := hs
  have hclash : initClash false s.cur s = false := hinit
  have hp : (commandOf i).present s.par = true := (commandOf_present i s.par).trans hw
  have hframe := applyOps_frame hops
  have hcfg : u.cfg = s.cfg := hframe.cfg
  have hresp : u.responses = s.responses := hframe.responses
  have hc : s.cur < u.nctx := (u.setTmp_nctx s.cur w) ▸ hframe.nctx ▸ State.canIssue_lt hi
  have hitems : applyOps s.cur ((accessBody ops res).items.map Prod.snd) s = .ok (u.setTmp s.cur w) := by
    rw [accessBody, place_map_snd, hops]
  rw [exec_eq_call, call_of_ops hu hi hp hn hclash hg hb.bodyIn hitems hcfg hresp, commandOf_cmd, commandOf_arg,
    State.ctx_setTmp hc, State.setTmp, State.setCtx_setCtx, State.answered, hcur, hresp]
  rfl

/-- The GUARD step of a command with a body launches it. -/
theorem exec_of_launch {b : Body} (hb : IsBody s.par s.nports s.cfg i b) :
    exec i s = .next ((runBody (commandOf i) s.cur ((s.issued i).setPos s.cur (headPos b.finPos b.items))).andThen
      (complete s.cur)) := by
  obtain ⟨hu, hi, hinit⟩ := hs
  have hclash : initClash (commandOf i).isInit s.cur s = false := by rw [hn]; exact hinit
  have hguard : guardStep (commandOf i) s.cur (s.issued i) =
      (s.issued i).setPos s.cur (headPos b.finPos b.items) := by
    rw [guardStep_of_pass (s := s.issued i) hg, enterBody_of_ok (s := s.issued i) hb.bodyIn, Command.cfgAfter, hn]
    rfl
  have hlive : ((s.issued i).setPos s.cur (headPos b.finPos b.items)).live = true := (State.live_iff s).2 hu
  rw [exec_of_noClash hu hi hw hclash, hguard, State.andThen_of_live _ _ hlive]

/-- A command whose first access is denied ends marked there: the pair is latched, and nothing else has changed
(R230). -/
theorem exec_of_denied {op : MicroOp} {ops : List MicroOp} {res : Result} {f : Fault}
    (hb : IsBody s.par s.nports s.cfg i (accessBody (op :: ops) res)) (hd : s.deniedAt op.loc = some f) :
    exec i s = .next (((s.issued i).setPos s.cur ⟨0, .access, 0⟩).markFault f) := by
  have hc := State.canIssue_lt hs.2.1
  generalize hv : (s.issued i).setPos s.cur ⟨0, .access, 0⟩ = v
  have hfail : (v.ctx s.cur).failf = false := by
    rw [← hv, State.ctx_setPos_failf, State.ctx_issued hc]
    rfl
  have hbody : (commandOf i).bodyIn v = .ok (accessBody (op :: ops) res) := hv ▸ hb.bodyIn
  have hdv : v.deniedAt op.loc = some f := by rw [← hd, ← hv]; exact State.deniedAt_congr rfl rfl _
  have hrun : runBody (commandOf i) s.cur v = v.markFault f := by
    rw [runBody, hfail, hbody]
    simp only [accessBody, place, runItems, itemStep_of_fault (performOp_of_denied hdv),
      State.andThen_of_marked _ _ (State.markFault_not_live _ _), Bool.false_eq_true, if_false]
  rw [exec_of_launch hs hw hn hg hb]
  change Host.Outcome.next ((runBody (commandOf i) s.cur ((s.issued i).setPos s.cur ⟨0, .access, 0⟩)).andThen _) = _
  rw [hv, hrun, State.andThen_of_marked _ _ (State.markFault_not_live _ _)]

end

/-! #### Calls that ended unmarked -/

section
variable {i : Instr} {s t : State} (hexec : exec i s = .next t) (ht : Unmarked t)
  (hw : i.wellFormed s.par = true)
include hexec ht hw

/-- A lawful command other than `INIT` was issued on an idle context, with no `INIT` in flight elsewhere (R149). -/
theorem ready_of_exec : Ready s := by
  have hp : (commandOf i).present s.par = true := (commandOf_present i s.par).trans hw
  rw [exec_eq_call] at hexec
  obtain ⟨hl, hi, rfl⟩ := call_next hexec
  refine ⟨(State.live_iff s).1 hl, hi, Bool.eq_false_of_not_eq_true fun hinit => ?_⟩
  have hclash : initClash (commandOf i).isInit s.cur s = true := by rw [initClash, hinit, Bool.or_true]
  obtain ⟨hlive, _⟩ := State.andThen_of_live_end ((State.live_iff _).2 ht)
  rw [issue_of_clash hp hclash, State.markFault_not_live] at hlive
  cases hlive

variable (hn : (commandOf i).isInit = false) (hg : GuardsPass (commandOf i) s)
include hn hg

/-- Its launch was not refused (R231). -/
theorem isBody_of_exec : ∃ b, IsBody s.par s.nports s.cfg i b := by
  obtain ⟨hu, hi, hinit⟩ := ready_of_exec hexec ht hw
  have hclash : initClash (commandOf i).isInit s.cur s = false := by rw [hn]; exact hinit
  obtain rfl := Host.Outcome.next.inj (hexec.symm.trans (exec_of_noClash hu hi hw hclash))
  obtain ⟨hbody, _⟩ := State.andThen_of_live_end ((State.live_iff _).2 ht)
  obtain ⟨hguard, _⟩ := State.andThen_of_live_end hbody
  rw [guardStep_of_pass (s := s.issued i) hg] at hguard
  cases hb : (commandOf i).bodyIn s with
  | error r =>
    rw [enterBody_of_error (s := s.issued i) hb, State.markRefused_not_live] at hguard
    cases hguard
  | ok b => exact ⟨b, isBody_of_ok hb⟩

/-- Its first access was to a clocked port (R65). -/
theorem clocked_of_exec {op : MicroOp} {ops : List MicroOp} {res : Result} {p : Nat}
    (hb : IsBody s.par s.nports s.cfg i (accessBody (op :: ops) res)) (hop : s.deniedAt op.loc = s.denied p) :
    Clocked s p := by
  refine (s.denied_eq_none p).1 (Option.eq_none_iff_forall_ne_some.2 fun f hf => ?_)
  have hfault := exec_of_denied (ready_of_exec hexec ht hw) hw hn hg hb (hop.trans hf)
  obtain rfl := Host.Outcome.next.inj (hexec.symm.trans hfault)
  cases ht.1

end

/-! #### One micro-op, and those on single-bit words (R60, R61) -/

theorem applyOps_single {c : Nat} {op : MicroOp} {s t : State} (h : performOp c op s = .ok t) :
    applyOps c [op] s = .ok t := by
  rw [applyOps, h]
  rfl

/-- A micro-op that leaves `TMP` as it was. -/
theorem applyOps_single_tmp {c : Nat} {op : MicroOp} {s t : State} (h : performOp c op s = .ok t) :
    applyOps c [op] s = .ok (t.setTmp c (t.ctx c).tmp) := by
  rw [applyOps_single h, State.setTmp_self]

/-- A byte with one bit put twice is the byte with it put once. -/
theorem putByteBit_putByteBit (d : Byte) (b : Bit) (v w : Bool) :
    putByteBit (putByteBit d b v) b w = putByteBit d b w := by
  refine byte_ext _ _ fun i => ?_
  simp only [putByteBit_bit _ _ _ _ i.isLt]
  split <;> rfl

/-- A bit put to what it is changes nothing. -/
theorem putByteBit_self (d : Byte) (b : Bit) : putByteBit d b (d.getLsbD b.val) = d := by
  refine byte_ext _ _ fun i => ?_
  rw [putByteBit_bit _ _ _ _ i.isLt]
  split
  · next h => rw [h]
  · rfl

theorem putByteBit_same (d : Byte) (b : Bit) (v : Bool) : (putByteBit d b v).getLsbD b.val = v :=
  (putByteBit_bit d b v b.val b.isLt).trans (if_pos rfl)

/-- Bit 0 of a level written as a word. -/
theorem levelWord_bit (v : Bool) : (if v then 1 else 0 : Word).getLsbD 0 = v := by
  cases v <;> rfl

/-- `FLIP_CH` writes the complement of the level it read (R197). -/
theorem flip_bit (v : Bool) : (Datum.flip.eval (if v then 1 else 0)).getLsbD 0 = !v := by
  cases v <;> rfl

section
variable {s : State} {p c : Nat} (hp : Clocked s p) (b : Bit)
include hp

theorem performOp_load_dataBit_of_clocked :
    performOp c (.load (.aliasBit p b)) s =
      .ok (s.setTmp c (if (s.port p).data.getLsbD b.val then 1 else 0)) := by
  simp only [performOp, State.load, aliasRead_of_clocked s p b hp]

theorem performOp_store_dataBit_of_clocked {d : Datum} {v : Bool} (hv : (d.eval (s.ctx c).tmp).getLsbD 0 = v) :
    performOp c (.store (.aliasBit p b) d) s =
      .ok (s.setPort p { s.port p with data := putByteBit (s.port p).data b v }) :=
  hv ▸ aliasWrite_of_clocked s p b _ hp

/-- Read, write of the complement, read again (R197). -/
theorem applyOps_flip (hc : c < s.nctx) :
    applyOps c [.load (.aliasBit p b), .store (.aliasBit p b) .flip, .load (.aliasBit p b)] s =
      .ok ((s.setPort p
        { s.port p with data := putByteBit (s.port p).data b (!(s.port p).data.getLsbD b.val) }).setTmp c
          (if (s.port p).data.getLsbD b.val then 0 else 1)) := by
  generalize hv : (s.port p).data.getLsbD b.val = v
  generalize hx : ({ s.port p with data := putByteBit (s.port p).data b (!v) } : PortRegs) = x
  have hread := performOp_load_dataBit_of_clocked (c := c) hp b
  rw [hv] at hread
  have hp' : Clocked (s.setTmp c (if v then 1 else 0)) p := hp
  have hflip : (Datum.flip.eval ((s.setTmp c (if v then 1 else 0)).ctx c).tmp).getLsbD 0 = !v := by
    rw [State.ctx_setTmp hc]
    exact flip_bit v
  have hwrite := performOp_store_dataBit_of_clocked hp' b hflip
  rw [State.port_setTmp, hx] at hwrite
  have hbit : x.data.getLsbD b.val = !v := by rw [← hx]; exact putByteBit_same _ b _
  have hagain := performOp_load_dataBit_of_clocked (c := c) (hp'.setPort p x) b
  rw [State.port_setPort_same _ _ _ hp'.1, hbit] at hagain
  simp only [applyOps, hread, hwrite, hagain]
  change Except.ok (((s.setPort p x).setTmp c _).setTmp c _) = _
  rw [State.setTmp_setTmp]
  cases v <;> rfl

end

theorem State.port_answered_setPort {s : State} {p : Nat} (hp : p < s.nports) {x : PortRegs} {i : Instr} {q : Pos}
    {tmp res : Word} : ((s.setPort p x).answered i q tmp res).port p = x := State.port_setPort_same s p x hp

/-! #### Masked bits (R195, R196) -/

theorem lt_maskWidth {m : Byte} {i : Nat} (h : m.getLsbD i = true) : i < maskWidth m := by
  have hne : m ≠ 0 := by
    rintro rfl
    cases BitVec.getLsbD_zero.symm.trans h
  obtain ⟨j, hj, _, hhigh⟩ := maskWidth_highest hne
  by_contra hi
  have hfalse := hhigh i (by omega)
  rw [h] at hfalse
  cases hfalse

/-- The masked bits of the value at the offset, the other bits as they were. -/
theorem putGroupIn_bit (t m v : Word) (o i : Nat) (hi : i < 32) :
    (putGroupIn t m v o).getLsbD i =
      if o ≤ i ∧ m.getLsbD (i - o) = true then v.getLsbD (i - o) else t.getLsbD i := by
  rcases Nat.lt_or_ge i o with h | h
  · have ho : ¬o ≤ i := by omega
    simp [-BitVec.getLsbD_eq_getElem, putGroupIn, hi, h, ho]
  · have ho : ¬i < o := by omega
    cases hm : m.getLsbD (i - o) <;> simp [-BitVec.getLsbD_eq_getElem, putGroupIn, hi, h, ho, hm]

/-- The data byte that `WRITE_GROUP` writes, bit by bit (R196). -/
theorem putGroupIn_byte_bit (x : Byte) (d : Descriptor) (v : BitVec 16) (b : Bit) :
    ((putGroupIn (x.setWidth 32) d.m (v.setWidth 32) d.o).setWidth 8).getLsbD b.val =
      if d.o ≤ b.val ∧ d.mask.getLsbD (b.val - d.o) = true then v.getLsbD (b.val - d.o) else x.getLsbD b.val := by
  have hlt : b.val < 8 := b.isLt
  have hval : (v.setWidth 32 : Word).getLsbD (b.val - d.o) = v.getLsbD (b.val - d.o) := by
    rw [BitVec.getLsbD_setWidth, decide_eq_true (by omega), Bool.true_and]
  rw [BitVec.getLsbD_setWidth, decide_eq_true hlt, Bool.true_and, putGroupIn_bit _ _ _ _ _ (by omega), Descriptor.m,
    setWidth_low _ (by omega), setWidth_low _ hlt, hval]

/-- Reading a group back: of a well-formed descriptor every masked bit lies in the byte (R47, R198 d). -/
theorem group_read_of_write {x y : Byte} {d : Descriptor} {n : Nat} (hd : d.wellFormed n = true) {v : BitVec 16}
    (hx : ∀ b : Bit, y.getLsbD b.val =
      if d.o ≤ b.val ∧ d.mask.getLsbD (b.val - d.o) = true then v.getLsbD (b.val - d.o) else x.getLsbD b.val) :
    ((y.setWidth 32 : Word) >>> d.o) &&& d.m = v.setWidth 32 &&& d.m := by
  obtain ⟨_, _, hwidth⟩ := Descriptor.wellFormed_iff.1 hd
  apply BitVec.eq_of_getLsbD_eq
  intro i hi
  rw [BitVec.getLsbD_and, BitVec.getLsbD_and]
  cases hm : d.m.getLsbD i with
  | false => rw [Bool.and_false, Bool.and_false]
  | true =>
    have hmask : d.mask.getLsbD i = true := by
      rw [Descriptor.m, BitVec.getLsbD_setWidth, decide_eq_true hi, Bool.true_and] at hm
      exact hm
    have hlt := lt_maskWidth hmask
    have hin : d.o + i < 8 := by omega
    have hbit := hx ⟨d.o + i, hin⟩
    rw [Nat.add_sub_cancel_left, if_pos ⟨Nat.le_add_right _ _, hmask⟩] at hbit
    rw [BitVec.getLsbD_ushiftRight, setWidth_low _ hin, hbit, BitVec.getLsbD_setWidth, decide_eq_true hi, Bool.true_and]

end Sys2Proof.Machine

namespace Sys2Proof

open Machine

/-- Settles O9: the first micro-op of each of the four commands is on the port, so it faults and nothing follows. -/
theorem unclockedPortCommandsFault : Obligations.UnclockedPortCommandsFault := by
  intro s i p hs hm hp hclk hcase
  have hdenied : ∀ k, s.deniedAt (.reg p k) = some (.clockOff p) := fun _ => s.denied_of_clockOff p hp hclk
  have hfault : exec i s = .next (((s.issued i).setPos s.cur ⟨0, .access, 0⟩).markFault (.clockOff p)) := by
    rcases hcase with ⟨port, a, rfl, rfl | rfl⟩ | ⟨h, d, v, hd, rfl, rfl | rfl⟩
    · exact exec_of_denied hs rfl rfl (guardsPass_initPort hm rfl rfl hp) (.readPort port a) (hdenied _)
    · exact exec_of_denied hs rfl rfl (guardsPass_initPort hm rfl rfl hp) (.writePort port a) (hdenied _)
    · exact exec_of_denied hs rfl rfl (guardsPass_initPtr hm rfl hd rfl) (.readGroup h d hd) (hdenied _)
    · exact exec_of_denied hs rfl rfl (guardsPass_initPtr hm rfl hd rfl) (.writeGroup v h d hd) (hdenied _)
  refine ⟨_, hfault, ?_, rfl, rfl, rfl, rfl, rfl, rfl, fun c hc => ?_⟩
  · change some (s.faulted.getD _) = _
    rw [hs.1.1]
    rfl
  · exact (State.ctx_setCtx_other (s.issued i) _ _ _ hc.symm).trans (State.ctx_setCtx_other s _ _ _ hc.symm)

/-- Settles O32: the one micro-op reads the single-bit word of the pin. -/
theorem readChReturnsTheDataBit : Obligations.ReadChReturnsTheDataBit := by
  intro s pin arg r hs hm hr hp
  have hops := applyOps_single (performOp_load_dataBit_of_clocked (c := s.cur) hp r.bit)
  rw [exec_of_accessOps (i := .readCh pin arg) hs rfl rfl (guardsPass_initPin hm rfl rfl (recordAt_lt hr))
    (.readCh pin arg r hr) hops rfl]
  cases (s.port r.p).data.getLsbD r.bit.val <;> rfl

/-- Settles O33: the one micro-op writes the single-bit word of the pin. -/
theorem writeChSetsTheDataBit : Obligations.WriteChSetsTheDataBit := by
  intro s l pin arg r hs hm hr hp
  have hlevel : ((Datum.const (if l.bit then 1 else 0)).eval (s.ctx s.cur).tmp).getLsbD 0 = l.bit := levelWord_bit l.bit
  have hops := applyOps_single_tmp (performOp_store_dataBit_of_clocked hp r.bit hlevel)
  exact exec_of_accessOps hs rfl rfl (guardsPass_initPin hm rfl rfl (recordAt_lt hr)) (.writeCh l pin arg r hr) hops rfl

/-- Settles O34: the one micro-op reads `DATA`. -/
theorem readPortReturnsTheDataByte : Obligations.ReadPortReturnsTheDataByte := by
  intro s port arg hs hm hp
  have hops := applyOps_single (performOp_load_of_clocked (c := s.cur) hp (k := .data) nofun)
  exact exec_of_accessOps hs rfl rfl (guardsPass_initPort hm rfl rfl hp.1) (.readPort port arg) hops rfl

/-- Settles O35: the one micro-op writes `DATA`, which no gate covers. -/
theorem writePortReplacesTheDataByte : Obligations.WritePortReplacesTheDataByte := by
  intro s port value hs hm hp
  have hops := applyOps_single_tmp (performOp_store_of_clocked (c := s.cur) hp .data (.const value))
  exact exec_of_accessOps hs rfl rfl (guardsPass_initPort hm rfl rfl hp.1) (.writePort port value) hops rfl

/-- Settles O36: the one micro-op reads `DATA`, and FIN shifts and masks it. -/
theorem readGroupReturnsTheMaskedBits : Obligations.ReadGroupReturnsTheMaskedBits := by
  intro s h d hs hm hd hp
  have hops := applyOps_single (performOp_load_of_clocked (c := s.cur) hp (k := .data) nofun)
  exact exec_of_accessOps hs rfl rfl (guardsPass_initPtr hm rfl hd rfl) (.readGroup h d hd) hops rfl

/-- Settles O37: the read-modify-write of `DATA` with the group formula. -/
theorem writeGroupWritesTheMaskedBits : Obligations.WriteGroupWritesTheMaskedBits := by
  intro s value h d hs hm hd hp
  have hops := applyOps_load_store hp (State.canIssue_lt hs.2.1) (k := .data) nofun
    (.putGroup d.m (value.setWidth 32) d.o)
  have hexec := exec_of_accessOps hs rfl rfl (guardsPass_initPtr hm rfl hd rfl) (.writeGroup value h d hd) hops rfl
  generalize ht : State.answered _ _ _ _ _ = t at hexec
  have hport : t.port d.p = (s.port d.p).write s.par .data _ := ht ▸ State.port_answered_setPort hp.1
  refine ⟨t, hexec, ?_, fun b => ?_⟩
  · rw [hport, ← ht]
    rfl
  · rw [hport]
    exact putGroupIn_byte_bit _ d value b

/-- Settles O38: read, write and read of the single-bit word of the pin. -/
theorem flipChTogglesTheDataBit : Obligations.FlipChTogglesTheDataBit := by
  intro s pin arg r hs hw hm hr hp
  have hops := applyOps_flip hp r.bit (State.canIssue_lt hs.2.1)
  rw [exec_of_accessOps (i := .flipCh pin arg) hs hw rfl (guardsPass_initPin hm rfl rfl (recordAt_lt hr))
    (.flipCh pin arg r hr) hops rfl]
  cases (s.port r.p).data.getLsbD r.bit.val <;> rfl

/-- Settles O39: the second call finds the pin's data bit at the level the first one put it to. -/
theorem writeThenReadReturnsTheLevel : Obligations.WriteThenReadReturnsTheLevel := by
  intro s t u l pin a a' ht hu hm hpin hst htu
  have hg : GuardsPass (commandOf (.writeCh l pin a)) s := guardsPass_initPin hm rfl rfl hpin
  have hs := ready_of_exec hst ht rfl
  have hst' := ready_of_exec htu hu rfl
  obtain ⟨b, hb⟩ := isBody_of_exec hst ht rfl rfl hg
  cases hb with
  | writeCh _ _ _ r hr =>
    have hp : Clocked s r.p := clocked_of_exec hst ht rfl rfl hg (.writeCh l pin a r hr) rfl
    obtain rfl := Host.Outcome.next.inj (hst.symm.trans (writeChSetsTheDataBit s l pin a r hs hm hr hp))
    have hread := readChReturnsTheDataBit _ pin a' r hst' hm ((s.setPort_nports r.p _).symm ▸ hr) (hp.setPort r.p _)
    obtain rfl := Host.Outcome.next.inj (htu.symm.trans hread)
    rw [State.answered_responses, State.port_answered_setPort hp.1, putByteBit_same]
    rfl

/-- Settles O40: the second toggle puts the bit back. -/
theorem flipTwiceRestoresTheLevel : Obligations.FlipTwiceRestoresTheLevel := by
  intro s t u pin a a' ht hu hm hpin hw hst htu
  have hg : GuardsPass (commandOf (.flipCh pin a)) s := guardsPass_initPin hm rfl rfl hpin
  have hs := ready_of_exec (i := .flipCh pin a) hst ht hw
  obtain ⟨b, hb⟩ := isBody_of_exec (i := .flipCh pin a) hst ht hw rfl hg
  cases hb with
  | flipCh _ _ r hr =>
    have hp : Clocked s r.p := clocked_of_exec (i := .flipCh pin a) hst ht hw rfl hg (.flipCh pin a r hr) rfl
    obtain rfl := Host.Outcome.next.inj (hst.symm.trans (flipChTogglesTheDataBit s pin a r hs hw hm hr hp))
    have hst' := ready_of_exec (i := .flipCh pin a') htu hu hw
    have hagain := flipChTogglesTheDataBit _ pin a' r hst' hw hm ((s.setPort_nports r.p _).symm ▸ hr) (hp.setPort r.p _)
    rw [State.port_answered_setPort hp.1, putByteBit_same, putByteBit_putByteBit, Bool.not_not, putByteBit_self]
      at hagain
    obtain rfl := Host.Outcome.next.inj (htu.symm.trans hagain)
    refine ⟨?_, rfl, !(s.port r.p).data.getLsbD r.bit.val, ?_⟩
    · rw [State.answered_ports]
      change ((s.setPort r.p _).setPort r.p (s.port r.p)).ports = s.ports
      rw [State.setPort_setPort, State.setPort_port s r.p hp.1]
    · rw [State.answered_responses]
      change (s.responses ++ _) ++ _ = _
      rw [List.append_assoc]
      cases (s.port r.p).data.getLsbD r.bit.val <;> rfl

/-- Settles O41: the masked bits of the byte are those just written. -/
theorem groupWriteThenReadReturnsMaskedValue : Obligations.GroupWriteThenReadReturnsMaskedValue := by
  intro s t u v h d ht hu hm hd hst htu
  have hg : GuardsPass (commandOf (.writeGroup v h)) s := guardsPass_initPtr hm rfl hd rfl
  have hs := ready_of_exec hst ht rfl
  have hst' := ready_of_exec htu hu rfl
  have hp : Clocked s d.p := clocked_of_exec hst ht rfl rfl hg (.writeGroup v h d hd) rfl
  obtain ⟨t', hwrite, hmove, hbits⟩ := writeGroupWritesTheMaskedBits s v h d hs hm hd hp
  obtain rfl := Host.Outcome.next.inj (hst.symm.trans hwrite)
  generalize hy : (t.port d.p).data = y at hmove hbits
  subst hmove
  have hread := readGroupReturnsTheMaskedBits _ h d hst' hm ((s.setPort_nports d.p _).symm ▸ hd) (hp.setPort d.p _)
  rw [hy, group_read_of_write (groupAt_ok hd).2 hbits] at hread
  obtain rfl := Host.Outcome.next.inj (htu.symm.trans hread)
  rfl

end Sys2Proof

/-! ### Reports and refusals (spec/60_exceptions.md R222 to R231) -/

namespace Sys2Proof.Machine

/-! #### Guards of commands other than INIT (R135, R240) -/

theorem initClash_of_ready {k : Command} {s : State} (hs : Ready s) (hn : k.isInit = false) :
    initClash k.isInit s.cur s = false := by
  rw [hn]
  exact hs.2.2

/-- `G_INIT` is the first guard of every command but `INIT` (R135). -/
theorem guards_of_ne_init {i : Instr} (hi : ∀ h, i ≠ .init h) :
    (commandOf i).isInit = false ∧ ∃ gs, (commandOf i).guards = .init :: gs := by
  cases i with
  | init h => exact absurd rfl (hi h)
  | _ => exact ⟨rfl, _, rfl⟩

theorem failing_of_notInitialized {k : Command} {s : State} {gs : List Guard} (hgs : k.guards = .init :: gs)
    (hm : s.mstate = .notInitialized) : k.failing s = .init :: failingGuards gs s k.cmd k.arg := by
  rw [Command.failing, hgs, failingGuards_cons, Guard.ifFails_init, hm, if_neg nofun]
  rfl

/-! #### What the stores refuse (R46, R47, R108, R109) -/

/-- Each word of a table that decodes gives one of its records. -/
theorem exists_record_of_mem {ws : List Word} {rs : List PinRecord} (h : decodeRecords ws = some rs) {w : Word}
    (hw : w ∈ ws) : ∃ r ∈ rs, PinRecord.ofWord w = some r := by
  induction ws generalizing rs with
  | nil => cases hw
  | cons v vs ih =>
    rw [decodeRecords] at h
    split at h
    · next q qs hv hvs =>
      cases h
      rcases List.mem_cons.1 hw with rfl | hw
      · exact ⟨q, List.mem_cons_self, hv⟩
      · obtain ⟨r, hr, hword⟩ := ih hvs hw
        exact ⟨r, List.mem_cons_of_mem q hr, hword⟩
    · cases h

section
variable {par : Config} {nports : Nat} {h : Word} (hne : h ≠ nullHandle)
include hne

theorem storeAt_of_ne_null {α : Type} (store : List (Word × α)) : storeAt store h = store.lookup h := if_neg hne

theorem tableAt_of_lookup_none (hl : par.tables.lookup h = none) : tableAt par nports h = .error .unknownHandle := by
  rw [tableAt, storeAt_of_ne_null hne, hl]

/-- A table one word of which gives no record of an existing port is ill-formed (R46). -/
theorem tableAt_of_badWord {ws : List Word} {w : Word} (hl : par.tables.lookup h = some ws) (hw : w ∈ ws)
    (hbad : ∀ q, PinRecord.ofWord w = some q → nports ≤ q.p) : tableAt par nports h = .error .illFormedTable := by
  rw [tableAt, storeAt_of_ne_null hne, hl]
  cases hrs : decodeRecords ws with
  | none => simp only [hrs]
  | some rs =>
    obtain ⟨q, hq, hword⟩ := exists_record_of_mem hrs hw
    simp only [hrs]
    refine if_neg fun ⟨_, hports⟩ => ?_
    have hlt : q.p < nports := of_decide_eq_true (List.all_eq_true.1 hports q hq)
    exact absurd hlt (Nat.not_lt_of_le (hbad q hword))

theorem groupAt_of_lookup_none (hl : par.groups.lookup h = none) : groupAt par nports h = .error .unknownHandle := by
  rw [groupAt, storeAt_of_ne_null hne, hl]

/-- A word that gives no well-formed descriptor is ill-formed (R47, R108). -/
theorem groupAt_of_badWord {w : Word} (hl : par.groups.lookup h = some w)
    (hbad : ∀ d, Descriptor.ofWord w = some d → d.wellFormed nports = false) :
    groupAt par nports h = .error .illFormedDescriptor := by
  rw [groupAt, storeAt_of_ne_null hne, hl]
  cases hd : Descriptor.ofWord w with
  | none => simp only [hd]
  | some d => simp only [hd, hbad d hd, Bool.false_eq_true, if_false]

theorem guardsPass_init (s : State) : GuardsPass (commandOf (.init h)) s :=
  guardsPass_of_noneFails (by rw [failing_init, if_neg hne])

theorem guardsPass_initPtr_of_ne_null {i : Instr} {s : State} (hm : s.mstate = .initialized)
    (hgs : (commandOf i).guards = [.init, .ptr]) (harg : argOf i = h) : GuardsPass (commandOf i) s := by
  refine guardsPass_of_noneFails ?_
  rw [Command.failing, hgs, commandOf_arg, harg, failingGuards_initPtr, if_pos hm, if_neg hne]
  rfl

end

/-- A descriptor word has nothing above bit 23 (R108). -/
theorem Descriptor.ofWord_of_high {w : Word} (hw : w.extractLsb' 24 8 ≠ 0#8) : Descriptor.ofWord w = none := if_neg hw

/-! #### Refused launches -/

/-- A call whose launch is refused ends at its GUARD step, marked (R231). -/
theorem exec_of_refused {i : Instr} {s : State} {r : Refusal} (hu : Unmarked s) (hi : s.canIssue s.cur = true)
    (hw : i.wellFormed s.par = true) (hclash : initClash (commandOf i).isInit s.cur s = false)
    (hg : GuardsPass (commandOf i) s) (hb : (commandOf i).bodyIn s = .error r) :
    exec i s = .next (s.refusedAtGuard i r) := by
  have hguard : guardStep (commandOf i) s.cur (s.issued i) = (s.issued i).markRefused r := by
    rw [guardStep_of_pass (s := s.issued i) hg, enterBody_of_error (s := s.issued i) hb]
  have hmark : (s.issued i).markRefused r = s.refusedAtGuard i r := by
    have hnone : (s.issued i).refused = none := hu.2
    rw [State.markRefused, hnone]
    rfl
  have hmarked := State.markRefused_not_live (s.issued i) r
  rw [exec_of_noClash hu hi hw hclash, hguard, State.andThen_of_marked _ _ hmarked,
    State.andThen_of_marked _ _ hmarked, hmark]

/-- The group commands in an initialized module, with a handle that is not null. -/
theorem exec_of_badGroup {i : Instr} {s : State} {h : Word} {r : Refusal} (hs : Ready s) (hm : s.mstate = .initialized)
    (hne : h ≠ nullHandle) (hw : i.wellFormed s.par = true) (hn : (commandOf i).isInit = false)
    (hgs : (commandOf i).guards = [.init, .ptr]) (harg : argOf i = h) (hb : (commandOf i).bodyIn s = .error r) :
    exec i s = .next (s.refusedAtGuard i r) :=
  exec_of_refused hs.1 hs.2.1 hw (initClash_of_ready hs hn) (guardsPass_initPtr_of_ne_null hne hm hgs harg) hb

/-! #### Marked states (R24, R230) -/

section
variable {s : State}

theorem step_of_faulted {f : Fault} (hf : s.faulted = some f) : step s = .fault f := by
  rw [step, hf]

theorem exec_of_faulted {f : Fault} (hf : s.faulted = some f) (i : Instr) : exec i s = .fault f := by
  rw [exec_eq_call, call, hf]

variable {r : Refusal} (hf : s.faulted = none) (hr : s.refused = some r)
include hf hr

theorem step_of_refused : step s = .refused r := by
  rw [step, hf, hr]

theorem exec_of_markedRefused (i : Instr) : exec i s = .refused r := by
  rw [exec_eq_call, call, hf, hr]

end

end Sys2Proof.Machine

namespace Sys2Proof

open Machine

/-- Settles O24: a failing guard that reports takes the command straight to the degraded FIN. -/
theorem failedGuardsOnlyReport : Obligations.FailedGuardsOnlyReport := by
  intro i s hu hi hw hclash hg hfails
  refine exec_of_guardsFail hu hi hw hclash ?_
  rw [Command.guardsFail, hg, List.isEmpty_eq_false_iff.2 hfails]
  rfl

/-- Settles O25: `G_INIT` is the first guard of these commands, it fails, and the first failing guard reports. -/
theorem uninitializedCommandsOnlyReport : Obligations.UninitializedCommandsOnlyReport := by
  intro i s hs hw hg hm hne
  obtain ⟨hn, gs, hgs⟩ := guards_of_ne_init hne
  have hfailing := failing_of_notInitialized hgs hm
  have hexec := failedGuardsOnlyReport i s hs.1 hs.2.1 hw (initClash_of_ready hs hn) hg (hfailing ▸ List.cons_ne_nil _ _)
  rw [hfailing, reportsOf_cons] at hexec
  exact ⟨_, hexec⟩

/-- Settles O30: the body of these commands is the lookup of their handle, and it is made where no guard fails. -/
theorem guardStepRefusesBadStores : Obligations.GuardStepRefusesBadStores := by
  refine ⟨?_, ?_, ?_⟩
  · intro s h r ⟨hu, hi, hidle⟩ hne ht
    have hb : (commandOf (.init h)).bodyIn s = .error r := by simp only [Command.bodyIn, commandOf, initCommand, ht]
    exact exec_of_refused (i := .init h) hu hi rfl (initClash_init.2 hidle) (guardsPass_init hne s) hb
  · intro s h v r hs hm hne hd
    have hread : (commandOf (.readGroup h)).bodyIn s = .error r := by
      simp only [Command.bodyIn, commandOf, readGroupCommand, hd]
    have hwrite : (commandOf (.writeGroup v h)).bodyIn s = .error r := by
      simp only [Command.bodyIn, commandOf, writeGroupCommand, hd]
    exact ⟨exec_of_badGroup hs hm hne rfl rfl rfl rfl hread, exec_of_badGroup hs hm hne rfl rfl rfl rfl hwrite⟩
  · intro par nports h hne
    refine ⟨tableAt_of_lookup_none hne, ?_, ?_, groupAt_of_lookup_none hne, ?_, ?_⟩
    · intro ws hl ⟨w, hw, hnone⟩
      exact tableAt_of_badWord hne hl hw fun q hq => nomatch hnone.symm.trans hq
    · intro ws w q hl hw hword hport
      exact tableAt_of_badWord hne hl hw fun q' hq => Option.some.inj (hword.symm.trans hq) ▸ hport
    · intro w hl hhigh
      exact groupAt_of_badWord hne hl fun d hd => nomatch (Descriptor.ofWord_of_high hhigh).symm.trans hd
    · intro w d hl hd hbad
      exact groupAt_of_badWord hne hl fun d' hd' => Option.some.inj (hd.symm.trans hd') ▸ hbad

/-- Settles O27: the opcode field of the command word does not depend on the operands. -/
theorem reportWordTable : Obligations.ReportWordTable := by
  unfold Obligations.ReportWordTable
  simp only [cmdOf, encode, cmdOpc_cmdWord]
  exact ⟨fun _ => rfl, fun _ _ _ => ⟨rfl, rfl, rfl⟩, fun _ _ _ => ⟨rfl, rfl, rfl, rfl⟩, fun _ => rfl,
    fun _ _ => ⟨rfl, rfl⟩, fun _ _ _ => ⟨rfl, rfl⟩, fun _ _ => ⟨rfl, rfl⟩, fun _ _ => ⟨rfl, rfl⟩,
    fun _ => ⟨rfl, rfl⟩, fun _ _ => ⟨rfl, rfl⟩, fun _ _ => ⟨rfl, rfl⟩⟩

/-- Settles O31: the marks are looked at before the agenda, and before Issue. -/
theorem markedStatesStepNoMore : Obligations.MarkedStatesStepNoMore :=
  fun _ i => ⟨fun _ hf => ⟨step_of_faulted hf, exec_of_faulted hf i⟩,
    fun _ hf hr => ⟨step_of_refused hf hr, exec_of_markedRefused hf hr i⟩⟩

end Sys2Proof

/-! ### The numbers of micro-ops (spec/70_reset_and_hazards.md R280) -/

namespace Sys2Proof.Machine

/-- The micro-ops of a single-bit update: two, or one with `ATOMIC_BITOPS` (R74, R280). -/
def updateCount (par : Config) : Nat := if par.atomicBitops then 1 else 2

section
variable (par : Config) (p : Nat) (b : Bit)

theorem bitUpdate_count (l : Loc) (d : Datum) : (bitUpdate par l d).length = updateCount par := by
  unfold bitUpdate updateCount
  split <;> rfl

theorem putBitOps_count (k : Kind) (v : Bool) : (putBitOps par p k b v).length = updateCount par := by
  cases v <;> exact bitUpdate_count par _ _

theorem unlockOps_count : (unlockOps par p b).length = 1 + updateCount par := by
  rw [unlockOps, List.length_cons, setBitOps, bitUpdate_count, Nat.add_comm]

theorem resistorOps_count (z : Resistor) : (resistorOps par p b z).length = 2 * updateCount par := by
  cases z <;> simp only [resistorOps, setBitOps, clrBitOps, List.length_append, bitUpdate_count] <;> omega

theorem functionOps_count (m : Mode) : (functionOps par p b m).length = 3 * updateCount par + 2 := by
  have hmux : (putNibbleOps p b m.wire).length = 2 := rfl
  cases m <;> simp only [functionOps, setBitOps, clrBitOps, List.length_append, bitUpdate_count, hmux] <;> omega

theorem recordItems_count_of_reserved (n : Nat) {r : PinRecord} (h : par.isReserved r.p r.bit = true) :
    (recordItems par n r).length = updateCount par := by
  rw [recordItems, if_pos h, List.append_nil, place_length, clkSetOps, bitUpdate_count]

/-- Steps 1 to 5 of a record, step by step (R161). -/
theorem recordItems_count_of_free (n : Nat) {r : PinRecord} (h : par.isReserved r.p r.bit = false) :
    (recordItems par n r).length =
      (if par.isProtected r.p r.bit then 1 + updateCount par else 0) +
        (if r.direction = .output then 3 * updateCount par else 4 * updateCount par) + (3 * updateCount par + 2) := by
  rw [recordItems, if_neg (Bool.eq_false_iff.1 h)]
  simp only [pinItems, clkSetOps, List.length_append, place_length, apply_ite List.length, List.length_nil,
    bitUpdate_count, unlockOps_count, putBitOps_count, resistorOps_count, functionOps_count]
  cases r.direction <;> simp only [reduceCtorEq, if_true, if_false] <;> omega

end

end Sys2Proof.Machine

namespace Sys2Proof

open Machine

/-- Settles O23: every single-bit update takes the same number of micro-ops, and the sequences are made of these. -/
theorem microOpCounts : Obligations.MicroOpCounts := by
  intro par n p b k v c m r z
  exact ⟨bitUpdate_count par _ _, bitUpdate_count par _ _, putBitOps_count par p b k v, bitUpdate_count par _ _, rfl,
    unlockOps_count par p b, resistorOps_count par p b z, functionOps_count par p b m,
    recordItems_count_of_reserved par n, recordItems_count_of_free par n⟩

end Sys2Proof

/-! ### A lost update (spec/70_reset_and_hazards.md R266) -/

namespace Sys2Proof.Machine

theorem State.ctx_of_getElem? {s : State} {c : Nat} {x : Ctx} (h : s.ctxs[c]? = some x) : s.ctx c = x := by
  rw [State.ctx, List.getD_eq_getElem?_getD, h, Option.getD_some]

/-- A context that is not touched stays where it stands in its command. -/
theorem InBody.of_sameCtx {i : Instr} {b : Body} {c : Nat} {s t : State} (h : InBody i b c s) (hp : t.par = s.par)
    (hn : t.nports = s.nports) (hg : t.cfg = s.cfg) (hx : t.ctx c = s.ctx c) : InBody i b c t where
  failf := hx ▸ h.failf
  decodes := hx ▸ h.decodes
  present := hp ▸ h.present
  body := by rw [Command.bodyIn, hp, hn, hg]; exact h.body
  pos := hx ▸ h.pos
  cfg hi := by rw [hg, hx]; exact h.cfg hi

/-- The command a context holds, at an access of its body. -/
theorem inBody_of_access {i : Instr} {ops : List MicroOp} {res : Result} {c j : Nat} {s : State} {x : Ctx}
    (hx : s.ctxs[c]? = some x) (hcmd : x.cmd = cmdOf i) (harg : x.arg = argOf i) (hf : x.failf = false)
    (hpos : x.pos = ⟨0, .access, j⟩) (hw : i.wellFormed s.par = true) (hi : (commandOf i).isInit = false)
    (hhas : (accessBody ops res).Has ⟨0, .access, j⟩) (hb : IsBody s.par s.nports s.cfg i (accessBody ops res)) :
    InBody i (accessBody ops res) c s := by
  have hctx := State.ctx_of_getElem? hx
  refine ⟨by rw [hctx, hf], ?_, hw, hb.bodyIn, by rw [hctx, hpos]; exact hhas, fun h => nomatch hi.symm.trans h⟩
  rw [hctx, hcmd, harg]
  exact decode_encode i

/-- A step of the machine that is an access of a running context: the context goes on to the next position of its body,
and the other contexts stay where they are (R131). -/
theorem InBody.access {i : Instr} {b : Body} {c : Nat} {s t : State} (hb : InBody i b c s) (hu : Unmarked s)
    {done rest : List Item} {q : Pos} {op : MicroOp} (hi : b.items = done ++ (q, op) :: rest) (hq : (s.ctx c).pos = q)
    {a : List Event} (ha : s.agenda = .advance c :: a) (hop : performOp c op s = .ok t) {q' : Pos}
    (hnext : headPos b.finPos rest = q') :
    ∃ u, step s = .next u ∧ u = (t.setPos c q').withAgenda a ∧ InBody i b c u ∧ (u.ctx c).pos = q' ∧
      (u.ctx c).tmp = (t.ctx c).tmp ∧ ∀ d, d ≠ c → u.ctx d = s.ctx d := by
  subst hnext
  have hf := performOp_frame hop
  have hhas : b.Has (headPos b.finPos rest) := headPos_has fun y hy => by simp [hi, hy]
  have hown : ownStep (commandOf i) c (s.withAgenda a) = (t.setPos c (headPos b.finPos rest)).withAgenda a := by
    rw [(hb.withAgenda a).ownStep_item hi hq, itemStep_withAgenda, itemStep_of_ok hop]
  have hctx := State.ctx_setCtx_same t c { t.ctx c with pos := headPos b.finPos rest } (hf.nctx ▸ hb.lt_nctx)
  refine ⟨_, ?_, rfl, (hb.move hf hhas).withAgenda a, congrArg Ctx.pos hctx, (congrArg Ctx.tmp hctx :),
    fun d hd => ?_⟩
  · rw [step_of_agenda hu ha, ← hown]
    exact advanceEvent_of_running (s := s.withAgenda a) hb.running hb.decodes
  · exact (State.ctx_setCtx_other t c d _ hd.symm).trans (hf.other d hd)

end Sys2Proof.Machine

namespace Sys2Proof

open Machine

/-- Settles O60: what the group writes back is the byte it read, outside its mask. -/
theorem interleavedChannelWriteIsLost : Obligations.InterleavedChannelWriteIsLost := by
  intro s c c' x y h arg v pin l d r rest hu hne hx hy hxcmd hxarg hxf hxpos hycmd hyarg hyf hypos hd hr hrp hp hout ha
  have hgroup := inBody_of_access hx hxcmd hxarg hxf hxpos rfl rfl (.inr ⟨_, List.mem_cons_self⟩)
    (.writeGroup v h d hd)
  have hch := inBody_of_access hy hycmd hyarg hyf hypos rfl rfl (.inr ⟨_, List.mem_cons_self⟩)
    (.writeCh l pin arg r hr)
  have hpos : (s.ctx c).pos = ⟨0, .access, 0⟩ := by rw [State.ctx_of_getElem? hx, hxpos]
  have hpos' : (s.ctx c').pos = ⟨0, .access, 0⟩ := by rw [State.ctx_of_getElem? hy, hypos]
  have hc := hgroup.lt_nctx
  -- the read
  have hread := performOp_load_of_clocked (c := c) hp (k := .data) nofun
  obtain ⟨t, hst, ht, hgroup, htpos, httmp, htother⟩ :=
    hgroup.access hu (done := []) rfl hpos ha hread (q' := ⟨0, .access, 1⟩) rfl
  rw [State.ctx_setTmp hc] at httmp
  have htc' := htother c' hne.symm
  have hpt : Clocked t d.p := ht ▸ hp
  -- the other context's write
  have hch : InBody _ _ c' t := hch.of_sameCtx (ht ▸ rfl) (ht ▸ rfl) (ht ▸ rfl) htc'
  have hwrite := performOp_store_dataBit_of_clocked (c := c') (hrp.symm ▸ hpt) r.bit
    (d := .const (if l.bit then 1 else 0)) (levelWord_bit l.bit)
  have hut : Unmarked t := ht ▸ hu
  have hta : t.agenda = .advance c' :: .advance c :: rest := ht ▸ rfl
  have htpos' : (t.ctx c').pos = ⟨0, .access, 0⟩ := htc' ▸ hpos'
  obtain ⟨u, htu, hu', _, hupos', _, huother⟩ := hch.access hut (done := []) rfl htpos' hta hwrite
    (q' := ⟨0, .access, 1⟩) rfl
  have huc := huother c hne
  have hport : u.port d.p = { s.port d.p with data := putByteBit (s.port d.p).data r.bit l.bit } := by
    rw [hu', hrp]
    exact (State.port_setPort_same t d.p _ hpt.1).trans (by rw [ht]; rfl)
  have hpu : Clocked u d.p := hu' ▸ hpt.setPort r.p _
  -- the write of what was read
  have hgroup : InBody _ _ c u := hgroup.of_sameCtx (hu' ▸ rfl) (hu' ▸ t.setPort_nports r.p _) (hu' ▸ rfl) huc
  have hback := performOp_store_of_clocked (c := c) hpu .data (.putGroup d.m (v.setWidth 32) d.o)
  have huu : Unmarked u := hu' ▸ hut
  have hua : u.agenda = .advance c :: rest := hu' ▸ rfl
  have hupos : (u.ctx c).pos = ⟨0, .access, 1⟩ := huc ▸ htpos
  obtain ⟨w, huw, hw, _, hwpos, _, hwother⟩ := hgroup.access huu (done := [_]) rfl hupos hua hback
    (q' := ⟨0, .access, 2⟩) rfl
  have hwdata : (w.port d.p).data =
      (putGroupIn ((s.port d.p).data.setWidth 32) d.m (v.setWidth 32) d.o).setWidth 8 := by
    rw [hw, huc, httmp]
    exact congrArg PortRegs.data (State.port_setPort_same u d.p _ hpu.1)
  refine ⟨t, u, w, hst, htu, huw, ht ▸ rfl, ?_, ?_, fun b hb => ?_, hwpos,
    hwother c' hne.symm ▸ hupos', hw ▸ rfl⟩
  · rw [hport]
    exact putByteBit_same ..
  · rw [hwdata, putGroupIn_byte_bit, if_neg hout]
  · rw [hwdata, putGroupIn_byte_bit, if_pos hb]

end Sys2Proof

/-! ### What a completed INIT guarantees (spec/70_reset_and_hazards.md R262)

Where the pins that are not protected are committed, every write of the pass lands: a protected pin is unlocked before
its other bits. So what a record makes of its port can be written down, and of the records of one pin the last one that
sets a bit gives its value. -/

namespace Sys2Proof.Machine

/-! #### What one record makes of its port -/

/-- The port of a committed pin after steps 3 to 5 (R161, R165, R166). -/
def PinRecord.configured (r : PinRecord) (x : PortRegs) : PortRegs :=
  { x with
    dir := putByteBit x.dir r.bit r.direction.bit
    data := if r.direction = .output then putByteBit x.data r.bit r.initial.bit else x.data
    pur := if r.direction = .input then putByteBit x.pur r.bit (decide (r.resistor = .pullUp)) else x.pur
    pdr := if r.direction = .input then putByteBit x.pdr r.bit (decide (r.resistor = .pullDown)) else x.pdr
    afen := putByteBit x.afen r.bit r.mode.afen
    muxsel := putNibbleIn x.muxsel r.bit r.mode.wire
    amsel := putByteBit x.amsel r.bit r.mode.amsel
    den := putByteBit x.den r.bit r.mode.den }

/-- The port after steps 2 to 5 of a record (R161, R163, R167). -/
def PinRecord.programmed (par : Config) (r : PinRecord) (x : PortRegs) : PortRegs :=
  if par.isReserved r.p r.bit then x
  else r.configured (if par.isProtected r.p r.bit then PinOp.unlock.apply par r.bit x else x)

section
variable {par : Config} {x : PortRegs} {b : Bit}

theorem applyPlan_append (es fs : List PinOp) (x : PortRegs) :
    applyPlan par b (es ++ fs) x = applyPlan par b fs (applyPlan par b es x) := List.foldl_append

/-- Every write to a committed pin lands (R66). -/
theorem gatedPut_of_commit (hx : x.commit.getLsbD b.val = true) (k : Kind) (old : Byte) (v : Bool) :
    gatedPut ((x.writable par k).getLsbD b.val) old b v = putByteBit old b v := by
  rw [PortRegs.writable_of_commit par k hx]
  rfl

theorem applyPlan_resistorPlan (hx : x.commit.getLsbD b.val = true) (z : Resistor) :
    applyPlan par b (resistorPlan z) x =
      { x with
        pur := putByteBit x.pur b (decide (z = .pullUp))
        pdr := putByteBit x.pdr b (decide (z = .pullDown)) } := by
  have hpur : ∀ y : PortRegs, y.commit.getLsbD b.val = true → ∀ v, y.putBit par .pur b v = _ := fun y hy v =>
    (PortRegs.write_pur_bit par y b v).trans (by rw [gatedPut_of_commit hy])
  have hpdr : ∀ y : PortRegs, y.commit.getLsbD b.val = true → ∀ v, y.putBit par .pdr b v = _ := fun y hy v =>
    (PortRegs.write_pdr_bit par y b v).trans (by rw [gatedPut_of_commit hy])
  cases z <;>
    simp only [resistorPlan, applyPlan_cons, applyPlan_nil, PinOp.apply, hpur, hpdr, hx, reduceCtorEq, decide_true,
      decide_false]

theorem applyPlan_functionPlan_of_commit (hx : x.commit.getLsbD b.val = true) (m : Mode) :
    applyPlan par b (functionPlan m) x =
      { x with
        afen := putByteBit x.afen b m.afen
        muxsel := putNibbleIn x.muxsel b m.wire
        amsel := putByteBit x.amsel b m.amsel
        den := putByteBit x.den b m.den } := by
  simp only [applyPlan_functionPlan, PortRegs.writable_of_commit par _ hx, if_true]
  rfl

theorem applyPlan_configPlan {r : PinRecord} (hx : x.commit.getLsbD r.bit.val = true) :
    applyPlan par r.bit (configPlan r) x = r.configured x := by
  have hdir : x.putBit par .dir r.bit r.direction.bit = { x with dir := putByteBit x.dir r.bit r.direction.bit } := by
    rw [PortRegs.putBit_dir, gatedPut_of_commit hx]
  rw [configPlan, applyPlan_cons, applyPlan_append, applyPlan_append, PinOp.apply, hdir]
  cases hd : r.direction with
  | output =>
    have hdata : ∀ y : PortRegs, y.putBit par .data r.bit r.initial.bit = _ := fun y =>
      PortRegs.write_data_bit par y r.bit r.initial.bit
    simp only [applyPlan_cons, applyPlan_nil, PinOp.apply, hdata, applyPlan_functionPlan_of_commit, hx,
      PinRecord.configured, hd, reduceCtorEq, if_true, if_false]
  | input =>
    simp only [applyPlan_nil, applyPlan_resistorPlan, applyPlan_functionPlan_of_commit, hx,
      PinRecord.configured, hd, reduceCtorEq, if_true, if_false]

theorem applyPlan_initPlan {r : PinRecord} (hx : OpenPort par r.p x) :
    applyPlan par r.bit (initPlan par r) x = r.programmed par x := by
  unfold PinRecord.programmed
  cases hres : par.isReserved r.p r.bit with
  | true => rw [initPlan_of_reserved hres]; rfl
  | false =>
    rw [initPlan_of_free hres, applyPlan_append]
    cases hp : par.isProtected r.p r.bit with
    | true => exact applyPlan_configPlan (putByteBit_same ..)
    | false => exact applyPlan_configPlan (hx r.bit hp)

end

theorem OpenPort.programmed {par : Config} {q : Nat} {x : PortRegs} (hx : OpenPort par q x) (r : PinRecord) :
    OpenPort par q (r.programmed par x) := by
  intro b hb
  unfold PinRecord.programmed
  split
  · exact hx b hb
  · change (if _ then _ else _ : PortRegs).commit.getLsbD b.val = true
    split
    · refine (putByteBit_bit _ _ _ _ b.isLt).trans ?_
      rw [hx b hb, ite_self]
    · exact hx b hb

/-! #### What a table makes of a port -/

/-- Port `q` after its records. -/
def programPort (par : Config) (rs : List PinRecord) (q : Nat) (x : PortRegs) : PortRegs :=
  rs.foldl (fun x r => onPort r.p (r.programmed par) q x) x

section
variable {par : Config} {q : Nat} {x : PortRegs}

theorem passPort_initPlan (hx : OpenPort par q x) (rs : List PinRecord) :
    passPort par (initPlan par) rs q x = programPort par rs q x := by
  induction rs generalizing x with
  | nil => rfl
  | cons r rs ih =>
    have hhead : onPort r.p (applyPlan par r.bit (initPlan par r)) q x = onPort r.p (r.programmed par) q x := by
      unfold onPort
      split
      · next hr => subst hr; exact applyPlan_initPlan hx
      · rfl
    have hopen : OpenPort par q (onPort r.p (r.programmed par) q x) := by
      unfold onPort
      split
      · exact hx.programmed r
      · exact hx
    rw [passPort_cons, hhead, ih hopen]
    rfl

/-- What the steps of a record keep, the table keeps. -/
theorem programPort_keeps {P : PortRegs → Prop} (hunlock : ∀ b x, P x → P (PinOp.unlock.apply par b x))
    (hconfig : ∀ r x, P x → P (PinRecord.configured r x)) (rs : List PinRecord) (hx : P x) :
    P (programPort par rs q x) := by
  induction rs generalizing x with
  | nil => exact hx
  | cons r rs ih =>
    refine ih (x := onPort r.p (r.programmed par) q x) ?_
    unfold onPort PinRecord.programmed
    split
    · split
      · exact hx
      · refine hconfig r _ ?_
        split
        · exact hunlock _ _ hx
        · exact hx
    · exact hx

/-- A protected pin with a record ends unlocked and committed (R167). -/
theorem programPort_unlocked {rs : List PinRecord} {r : PinRecord} (hr : r ∈ rs)
    (hres : par.isReserved r.p r.bit = false) (hp : par.isProtected r.p r.bit = true) :
    (programPort par rs r.p x).locked = false ∧ (programPort par rs r.p x).commit.getLsbD r.bit.val = true := by
  induction rs generalizing x with
  | nil => cases hr
  | cons r' rs ih =>
    rcases List.mem_cons.1 hr with rfl | hr
    · refine programPort_keeps (P := fun y => y.locked = false ∧ y.commit.getLsbD r.bit.val = true)
        (fun b y hy => ⟨rfl, ?_⟩) (fun _ _ hy => hy) rs ?_
      · refine (putByteBit_bit _ _ _ _ r.bit.isLt).trans ?_
        rw [hy.2, ite_self]
      · simp only [onPort, PinRecord.programmed, hres, hp, if_true, Bool.false_eq_true, if_false]
        exact ⟨rfl, putByteBit_same ..⟩
    · exact ih hr

/-! #### The last record of a pin -/

/-- What `g` reads of a port, a record of pin `b` that has `f` sets to `val`, and other steps leave. -/
structure Tracks (par : Config) (b : Bit) {α : Type} (g : PortRegs → α) (f : PinRecord → Bool)
    (val : PinRecord → α) : Prop where
  unlock : ∀ i x, g (PinOp.unlock.apply par i x) = g x
  configured : ∀ r x, g (PinRecord.configured r x) = if r.bit = b ∧ f r = true then val r else g x

/-- Of a pin listed more than once the last record counts (R171 a). -/
theorem Tracks.programPort {b : Bit} {α : Type} {g : PortRegs → α} {f : PinRecord → Bool} {val : PinRecord → α}
    (h : Tracks par b g f val) (hres : par.isReserved q b = false) (rs : List PinRecord) :
    g (programPort par rs q x) = (lastRecord q b f rs).elim (g x) val := by
  induction rs generalizing x with
  | nil => rfl
  | cons r rs ih =>
    have hhead : g (onPort r.p (r.programmed par) q x) =
        if r.p = q ∧ r.bit = b ∧ f r = true then val r else g x := by
      unfold onPort PinRecord.programmed
      by_cases hq : r.p = q
      · cases hr : par.isReserved r.p r.bit with
        | true =>
          have hb : r.bit ≠ b := fun hb => nomatch (hq ▸ hb ▸ hr).symm.trans hres
          simp [hb]
        | false =>
          have hstep : g (if par.isProtected r.p r.bit then PinOp.unlock.apply par r.bit x else x) = g x := by
            split
            · exact h.unlock r.bit x
            · rfl
          simp only [hq, true_and, if_true, Bool.false_eq_true, if_false, h.configured]
          rw [← hq, hstep]
      · simp [hq]
    refine (ih (x := onPort r.p (r.programmed par) q x)).trans ?_
    rw [hhead, lastRecord]
    cases lastRecord q b f rs with
    | some _ => rfl
    | none => split <;> rfl

theorem putByteBit_pin (d : Byte) (i b : Bit) (v : Bool) :
    (putByteBit d i v).getLsbD b.val = if i = b then v else d.getLsbD b.val := by
  rw [putByteBit_bit _ _ _ _ b.isLt]
  exact if_congr (by rw [Fin.val_inj, eq_comm]) rfl rfl

end

section
variable (par : Config) (b : Bit)

/-- A byte that every record of the pin writes. -/
theorem tracks_byte {g : PortRegs → Byte} {val : PinRecord → Bool}
    (hunlock : ∀ i x, g (PinOp.unlock.apply par i x) = g x)
    (hconfig : ∀ r x, g (PinRecord.configured r x) = putByteBit (g x) r.bit (val r)) :
    Tracks par b (fun x => (g x).getLsbD b.val) anyRecord val where
  unlock i x := congrArg (·.getLsbD b.val) (hunlock i x)
  configured r x := by simp only [hconfig, putByteBit_pin, anyRecord, and_true]

/-- A byte that the records of one direction write. -/
theorem tracks_byte_of_direction {g : PortRegs → Byte} {d : Dir} {val : PinRecord → Bool}
    (hunlock : ∀ i x, g (PinOp.unlock.apply par i x) = g x)
    (hconfig : ∀ r x, g (PinRecord.configured r x) =
      if r.direction = d then putByteBit (g x) r.bit (val r) else g x) :
    Tracks par b (fun x => (g x).getLsbD b.val) (hasDirection d) val where
  unlock i x := congrArg (·.getLsbD b.val) (hunlock i x)
  configured r x := by
    simp only [hconfig, hasDirection, beq_iff_eq]
    split
    · next hd => simp only [hd, and_true, putByteBit_pin]
    · next hd => simp only [hd, and_false, if_false]

theorem tracks_dir : Tracks par b (fun x => x.dir.getLsbD b.val) anyRecord fun r => r.direction.bit :=
  tracks_byte par b (fun _ _ => rfl) fun _ _ => rfl

theorem tracks_afen : Tracks par b (fun x => x.afen.getLsbD b.val) anyRecord fun r => r.mode.afen :=
  tracks_byte par b (fun _ _ => rfl) fun _ _ => rfl

theorem tracks_amsel : Tracks par b (fun x => x.amsel.getLsbD b.val) anyRecord fun r => r.mode.amsel :=
  tracks_byte par b (fun _ _ => rfl) fun _ _ => rfl

theorem tracks_den : Tracks par b (fun x => x.den.getLsbD b.val) anyRecord fun r => r.mode.den :=
  tracks_byte par b (fun _ _ => rfl) fun _ _ => rfl

theorem tracks_data : Tracks par b (fun x => x.data.getLsbD b.val) (hasDirection .output) fun r => r.initial.bit :=
  tracks_byte_of_direction par b (fun _ _ => rfl) fun _ _ => rfl

theorem tracks_pur :
    Tracks par b (fun x => x.pur.getLsbD b.val) (hasDirection .input) fun r => decide (r.resistor = .pullUp) :=
  tracks_byte_of_direction par b (fun _ _ => rfl) fun _ _ => rfl

theorem tracks_pdr :
    Tracks par b (fun x => x.pdr.getLsbD b.val) (hasDirection .input) fun r => decide (r.resistor = .pullDown) :=
  tracks_byte_of_direction par b (fun _ _ => rfl) fun _ _ => rfl

theorem tracks_muxsel :
    Tracks par b (fun x => x.muxsel.extractLsb' (4 * b.val) 4) anyRecord (fun r => r.mode.wire) where
  unlock _ _ := rfl
  configured r x := by
    simp only [anyRecord, and_true]
    exact (putNibbleIn_nibble x.muxsel r.bit b r.mode.wire).trans (if_congr eq_comm rfl rfl)

end

/-- A record that is not overruled is the last one of its pin. -/
theorem NotOverruled.lastRecord {rs : List PinRecord} {f : PinRecord → Bool} {r : PinRecord} (h : NotOverruled rs f r)
    (hr : r ∈ rs) (hf : f r = true) : Machine.lastRecord r.p r.bit f rs = some r :=
  h.elim (fun hunique => lastRecord_of_unique hunique hr hf) id

theorem Tracks.of_notOverruled {par : Config} {α : Type} {g : PortRegs → α} {f : PinRecord → Bool}
    {val : PinRecord → α} {r : PinRecord} (h : Tracks par r.bit g f val) (hres : par.isReserved r.p r.bit = false)
    {rs : List PinRecord} (hr : r ∈ rs) (hf : f r = true) (hlast : NotOverruled rs f r) (x : PortRegs) :
    g (Machine.programPort par rs r.p x) = val r := by
  rw [h.programPort hres, hlast.lastRecord hr hf]
  rfl

/-- A well-formed table names ports of the surface (R46). -/
theorem tableAt_lt_nports {par : Config} {nports : Nat} {h : Word} {rs : List PinRecord}
    (ht : tableAt par nports h = .ok rs) : ∀ r ∈ rs, r.p < nports := by
  unfold tableAt at ht
  split at ht
  · cases ht
  · split at ht
    · cases ht
    · split at ht
      · next hwf =>
        cases ht
        simpa using hwf.2
      · cases ht

end Sys2Proof.Machine

namespace Sys2Proof

open Machine

/-- Settles O46: the clock of each port is on before its pins are programmed, so the pass completes, and it leaves the
port of each pin as the pin's records say. -/
theorem initProgramsEveryPin : Obligations.InitProgramsEveryPin := by
  intro s h rs hs htable hn hcommit
  have hlt := tableAt_lt_nports htable
  obtain ⟨w, hexec⟩ := exec_init_of_reachable hs htable fun r hr _ => ⟨hlt r hr, (hlt r hr).trans_le hn⟩
  generalize ht : State.afterInit _ h rs.length w = t at hexec
  have hclk : ∀ r ∈ rs, t.clken.getLsbD r.p = true := fun r hr => by
    rw [← ht]
    refine (clkenAfter_bit rs s.clken ((hlt r hr).trans_le hn)).trans ?_
    rw [List.any_eq_true.2 ⟨r, hr, decide_eq_true rfl⟩, Bool.or_true]
  have hport : ∀ r ∈ rs, t.port r.p = programPort s.par rs r.p (s.port r.p) := fun r hr => by
    rw [← passPort_initPlan (hcommit r.p (hlt r hr)), ← ht]
    exact State.port_remake (hlt r hr) (clkenAfter rs s.clken) (passPort s.par (initPlan s.par) rs)
  refine ⟨t, hexec, ht ▸ hs.1, ht ▸ rfl, ht ▸ rfl, ht ▸ rfl, ht ▸ rfl, ?_,
    fun r hr => ⟨hclk r hr, fun hres => ?_⟩⟩
  · rw [← ht]
    exact congrArg (fun x : Ctx => x.pos.ph) (State.ctx_answered_cur (State.canIssue_lt hs.2.1) ..)
  · rw [hport r hr]
    have hset {α : Type} {g : PortRegs → α} {f : PinRecord → Bool} {val : PinRecord → α}
        (hg : Tracks s.par r.bit g f val) := hg.of_notOverruled hres hr (x := s.port r.p)
    have hdirection : ∀ d, r.direction = d → hasDirection d r = true := fun d hd => beq_iff_eq.2 hd
    exact ⟨programPort_unlocked hr hres, fun hd => hset (tracks_data _ _) (hdirection _ hd),
      fun hd hlast => ⟨hset (tracks_pur _ _) (hdirection _ hd) hlast,
        hset (tracks_pdr _ _) (hdirection _ hd) hlast⟩,
      fun hlast => ⟨hset (tracks_dir _ _) rfl hlast, hset (tracks_afen _ _) rfl hlast,
        hset (tracks_muxsel _ _) rfl hlast, hset (tracks_amsel _ _) rfl hlast, hset (tracks_den _ _) rfl hlast⟩⟩

end Sys2Proof

/-! ### What INIT leaves alone (spec/70_reset_and_hazards.md R263)

A pass over ports that are not all reachable stops at the first access to a port that is not, right after the `ClkSet`
of its record. So also a call that ends marked has programmed whole records, and what it leaves alone is what the plans
of its records do not reach. -/

namespace Sys2Proof.Machine

/-! #### Where a pass ends -/

/-- The micro-ops before the first that faults are done, and no other (R230). -/
theorem runItems_of_faultAt {c : Nat} {fin : Pos} {items : List Item} {s u : State} {xs ys : List MicroOp}
    {op : MicroOp} {f : Fault} {x : Ctx} {g : Word} (hl : s.live = true) (hc : c < s.nctx)
    (hitems : items.map Prod.snd = xs ++ op :: ys) (hxs : applyOps c xs s = .ok u) (hop : performOp c op u = .error f) :
    ∃ y, runItems c fin items (s.dress c x g) = (u.dress c y g).markFault f := by
  induction xs generalizing items s x with
  | nil =>
    cases hxs
    obtain ⟨item, rest, rfl, rfl, _⟩ := List.map_eq_cons_iff.1 hitems
    have hop' : performOp c item.2 (u.dress c x g) = .error f := by rw [performOp_dress u c x g _ hc, hop]; rfl
    refine ⟨x, ?_⟩
    rw [runItems, itemStep_of_fault hop', State.andThen_of_marked _ _ (State.markFault_not_live _ _)]
  | cons op' xs ih =>
    obtain ⟨item, rest, rfl, rfl, hrest⟩ := List.map_eq_cons_iff.1 hitems
    rw [applyOps] at hxs
    split at hxs
    · cases hxs
    · next t ht =>
      have hf := performOp_frame ht
      have hlt : t.live = true := hf.live.trans hl
      have hld : (t.dress c { x with pos := headPos fin rest } g).live = true := hlt
      rw [runItems, itemStep_dress hc ht, State.andThen_of_live _ _ hld]
      exact ih hlt (hf.nctx ▸ hc) hrest hxs

/-- `t` is `u` but for the module's state, the marks, the reports, the responses and context `c`. -/
structure SameAround (c : Nat) (u t : State) : Prop where
  par : t.par = u.par
  ports : t.ports = u.ports
  clken : t.clken = u.clken
  envReads : t.envReads = u.envReads
  agenda : t.agenda = u.agenda
  cur : t.cur = u.cur
  draws : t.draws = u.draws
  others : ∀ d, d ≠ c → t.ctx d = u.ctx d

theorem sameAround_afterInit (u : State) (h : Word) (n : Nat) (w : Word) :
    SameAround u.cur u (u.afterInit h n w) :=
  ⟨rfl, rfl, rfl, rfl, rfl, rfl, rfl, fun _ hd => State.ctx_answered_other hd ..⟩

theorem sameAround_faulted (u : State) (c : Nat) (w : Word) (y : Ctx) (g : Word) (f : Fault) :
    SameAround c u (((u.setTmp c w).dress c y g).markFault f) where
  par := rfl
  ports := rfl
  clken := rfl
  envReads := rfl
  agenda := rfl
  cur := rfl
  draws := rfl
  others d hd :=
    (State.ctx_setCtx_other (u.setTmp c w) c d _ hd.symm).trans (State.ctx_setCtx_other u c d _ hd.symm)

/-- The surface after step 1 of the records `ks` and steps 2 to 5 of the records `ps`. -/
def State.passed (s : State) (ks ps : List PinRecord) : State :=
  s.remake (clkenAfter ks s.clken) (passPort s.par (initPlan s.par) ps)

/-- The pass over reachable records and the `ClkSet` of the record after them (R161, R164). -/
theorem applyOps_upTo {s : State} {c : Nat} (hc : c < s.nctx) {ps : List PinRecord}
    (hps : PortsReachable s.par s.nports ps) (r : PinRecord) :
    ∃ w, applyOps c (ps.flatMap (recordOps s.par) ++ clkSetOps s.par r.p) s =
      .ok ((s.passed (ps ++ [r]) ps).setTmp c w) := by
  obtain ⟨v, hpass⟩ := applyOps_initItems hc 0 hps
  rw [initItems_map_snd] at hpass
  have hcv : c < ((s.passed ps ps).setTmp c v).nctx := by rw [State.setTmp_nctx]; exact hc
  obtain ⟨w, hclk⟩ := applyOps_clkSetOps hcv r.p
  refine ⟨w, ?_⟩
  rw [applyOps_append _ _ _ _ _ hpass]
  refine hclk.trans (congrArg Except.ok ?_)
  change ((State.remake (s.passed ps ps) _ _).setTmp c v).setTmp c w = _
  rw [State.setTmp_setTmp, State.passed, State.remake_remake, State.passed, clkenAfter, clkenAfter, List.foldl_append]
  rfl

/-- An access to a port that is not reachable faults, whatever `CLKEN` is (R53, R65). -/
theorem denied_of_unreachable {s : State} {p : Nat} (h : ¬(p < s.nports ∧ p < 32)) : ∃ f, s.denied p = some f := by
  refine Option.ne_none_iff_exists'.1 fun hd => h ?_
  obtain ⟨hlt, hon⟩ := (s.denied_eq_none p).1 hd
  exact ⟨hlt, BitVec.lt_of_getLsbD hon⟩

/-- The first record whose pin is to be programmed on a port that is not reachable. -/
theorem exists_unreachable {par : Config} {n : Nat} {rs : List PinRecord} (h : ¬PortsReachable par n rs) :
    ∃ (ps : List PinRecord) (r : PinRecord) (qs : List PinRecord), rs = ps ++ r :: qs ∧
      PortsReachable par n ps ∧ par.isReserved r.p r.bit = false ∧ ¬(r.p < n ∧ r.p < 32) := by
  induction rs with
  | nil => exact absurd (List.forall_mem_nil _) h
  | cons r rs ih =>
    by_cases hr : par.isReserved r.p r.bit = false → r.p < n ∧ r.p < 32
    · obtain ⟨ps, r', qs, rfl, hps, hr'⟩ := ih fun hrs => h (List.forall_mem_cons.2 ⟨hr, hrs⟩)
      exact ⟨r :: ps, r', qs, rfl, List.forall_mem_cons.2 ⟨hr, hps⟩, hr'⟩
    · exact ⟨[], r, rs, rfl, List.forall_mem_nil _, Classical.not_imp.1 hr⟩

/-- A pass that meets a port it cannot reach ends marked there. -/
theorem runItems_of_unreachable {s : State} {c : Nat} (hl : s.live = true) (hc : c < s.nctx) {rs : List PinRecord}
    (h : ¬PortsReachable s.par s.nports rs) (fin : Pos) (x : Ctx) (g : Word) :
    ∃ ks ps w y f, ks ⊆ rs ∧ ps ⊆ rs ∧
      runItems c fin (initItems s.par 0 rs) (s.dress c x g) =
        (((s.passed ks ps).setTmp c w).dress c y g).markFault f := by
  obtain ⟨ps, r, qs, rfl, hps, hfree, hr⟩ := exists_unreachable h
  obtain ⟨w, hops⟩ := applyOps_upTo hc hps r
  have hr' : ¬(r.p < ((s.passed (ps ++ [r]) ps).setTmp c w).nports ∧ r.p < 32) := by
    rwa [State.setTmp_nports, State.passed, State.remake_nports]
  obtain ⟨f, hf⟩ := denied_of_unreachable hr'
  obtain ⟨e, es, hes⟩ : ∃ e es, initPlan s.par r = e :: es := by
    rw [initPlan_of_free hfree]
    exact List.exists_cons_of_ne_nil (List.append_ne_nil_of_right_ne_nil _ (List.cons_ne_nil _ _))
  obtain ⟨k, op, ops, hmicro, hloc⟩ := e.micro_head s.par r.p r.bit
  have hrecord : recordOps s.par r =
      clkSetOps s.par r.p ++ op :: (ops ++ es.flatMap (PinOp.micro s.par r.p r.bit)) := by
    rw [recordOps, hes, List.flatMap_cons, hmicro, List.cons_append]
  have hitems : (initItems s.par 0 (ps ++ r :: qs)).map Prod.snd =
      (ps.flatMap (recordOps s.par) ++ clkSetOps s.par r.p) ++ op ::
        (ops ++ es.flatMap (PinOp.micro s.par r.p r.bit) ++ qs.flatMap (recordOps s.par)) := by
    rw [initItems_map_snd, List.flatMap_append, List.flatMap_cons, hrecord]
    simp only [List.append_assoc, List.cons_append]
  have hop : performOp c op ((s.passed (ps ++ [r]) ps).setTmp c w) = .error f :=
    performOp_of_denied (by rw [hloc]; exact hf)
  obtain ⟨y, hrun⟩ := runItems_of_faultAt (fin := fin) (x := x) (g := g) hl hc hitems hops hop
  exact ⟨ps ++ [r], ps, w, y, f, by simp, by simp, hrun⟩

/-- Whatever way a call of `INIT` of a well-formed table ends, it has set the clocks of some of the records and
programmed some of the pins. -/
theorem exec_init_passed {h : Word} {s t : State} {rs : List PinRecord} (hexec : exec (.init h) s = .next t)
    (htable : tableAt s.par s.nports h = .ok rs) :
    ∃ ks ps, ks ⊆ rs ∧ ps ⊆ rs ∧ SameAround s.cur (s.passed ks ps) t := by
  obtain ⟨hl, hi, _⟩ := call_next ((exec_eq_call _ s).symm.trans hexec)
  have hu := (State.live_iff s).1 hl
  cases hclash : initClash true s.cur s with
  | true =>
    obtain rfl := Host.Outcome.next.inj (hexec.symm.trans (overlappingInitFaults.2 (.init h) s hu hi rfl hclash))
    have hnone : s.passed [] [] = s := s.remake_id
    exact ⟨[], [], List.nil_subset _, List.nil_subset _,
      hnone.symm ▸ ⟨rfl, rfl, rfl, rfl, rfl, rfl, rfl, fun _ _ => rfl⟩⟩
  | false =>
    have hs : ReadyForInit s := ⟨hu, hi, initClash_init.1 hclash⟩
    by_cases hrs : PortsReachable s.par s.nports rs
    · obtain ⟨w, hdone⟩ := exec_init_of_reachable hs htable hrs
      obtain rfl := Host.Outcome.next.inj (hexec.symm.trans hdone)
      exact ⟨rs, rs, List.Subset.refl _, List.Subset.refl _, sameAround_afterInit (s.passed rs rs) h rs.length w⟩
    · obtain ⟨ks, ps, w, y, f, hks, hps, hrun⟩ := runItems_of_unreachable hl (State.canIssue_lt hi) hrs
        (finAt rs.length) { (s.ctx s.cur).latch (cmdOf (.init h)) h .guard with
          pos := headPos (finAt rs.length) (initItems s.par 0 rs) } h
      have hmarked := State.markFault_not_live (((s.passed ks ps).setTmp s.cur w).dress s.cur y h) f
      rw [exec_init_of_table hs htable, State.launchedInit, hrun, State.andThen_of_marked _ _ hmarked,
        State.andThen_of_marked _ _ hmarked] at hexec
      cases hexec
      exact ⟨ks, ps, hks, hps, sameAround_faulted (s.passed ks ps) s.cur w y h f⟩

/-! #### What the plans of the records reach -/

/-- The pin of a stored bit other than the hidden one of `LOCK` (R41). -/
def bitPin : Kind → Nat → Nat
  | .muxsel, i => i / 4
  | _, i => i

theorem bitPin_of_isConfigBit {k : Kind} (hk : k.isConfigBit = true) (i : Nat) : bitPin k i = i := by
  cases k with
  | muxsel => cases hk
  | _ => rfl

/-- The operation on pin `b` may change stored bit `i` of kind `k`. -/
def PinOp.Reaches (b : Bit) (k : Kind) (i : Nat) : PinOp → Prop
  | .put k' _ => k' = k ∧ i = b.val
  | .nibble _ => k = .muxsel ∧ i / 4 = b.val
  | .unlock => k = .lock ∨ k = .commit ∧ i = b.val

/-- The record may change stored bit `i` of kind `k` (R161). -/
structure PinRecord.Reaches (par : Config) (r : PinRecord) (k : Kind) (i : Nat) : Prop where
  free : par.isReserved r.p r.bit = false
  pin : k ≠ .lock → bitPin k i = r.bit.val
  unlock : k = .lock ∨ k = .commit → par.isProtected r.p r.bit = true
  output : k = .data → r.direction = .output
  input : k = .pur ∨ k = .pdr → r.direction = .input

section
variable {par : Config} {b : Bit} {k : Kind} {i : Nat} {e : PinOp} {r : PinRecord}

theorem PinOp.apply_bit (he : e.Ok) (hi : i < 32) (h : ¬e.Reaches b k i) (x : PortRegs) :
    ((e.apply par b x).stored k).getLsbD i = (x.stored k).getLsbD i := by
  cases e with
  | put k' v =>
    by_cases hk : k' = k
    · subst hk
      exact (PortRegs.putBit_pinBit par b x he v i).trans (if_neg fun hset => h ⟨rfl, hset.2⟩)
    · rw [PinOp.apply, PortRegs.putBit_stored_other par b v x (Ne.symm hk)]
  | nibble c =>
    by_cases hk : k = .muxsel
    · subst hk
      exact (PortRegs.putNibble_bit par b x c hi).trans (if_neg fun hset => h ⟨rfl, hset.2⟩)
    · exact congrArg (·.getLsbD i) (PortRegs.write_stored_other par .muxsel k _ x hk)
  | unlock =>
    cases k with
    | lock => exact absurd (.inl rfl) h
    | commit => exact (putByteBit_setWidth_bit x.commit b true i).trans (if_neg fun hib => h (.inr ⟨rfl, hib⟩))
    | _ => rfl

theorem PinOp.Reaches.pin (h : e.Reaches b k i) (he : e.Ok) (hk : k ≠ .lock) : bitPin k i = b.val := by
  cases e with
  | put k' v =>
    obtain ⟨rfl, hi⟩ := h
    cases k' with
    | muxsel => cases he
    | _ => exact hi
  | nibble c =>
    obtain ⟨rfl, hi⟩ := h
    exact hi
  | unlock =>
    rcases h with rfl | ⟨rfl, hi⟩
    · exact absurd rfl hk
    · exact hi

theorem resistorPlan_reaches {z : Resistor} (he : e ∈ resistorPlan z) (h : e.Reaches b k i) :
    k = .pur ∨ k = .pdr := by
  cases z <;> rcases List.mem_pair.1 he with rfl | rfl <;> obtain ⟨rfl, _⟩ := h <;> simp

theorem functionPlan_reaches {m : Mode} (he : e ∈ functionPlan m) (h : e.Reaches b k i) :
    k = .afen ∨ k = .muxsel ∨ k = .amsel ∨ k = .den := by
  simp only [functionPlan, List.mem_cons, List.not_mem_nil, or_false] at he
  rcases he with rfl | rfl | rfl | rfl <;> obtain ⟨rfl, _⟩ := h <;> simp

/-- Of step 3 only outputs have the second half, and only inputs have step 4 (R161). -/
theorem configPlan_reaches (he : e ∈ configPlan r) (h : e.Reaches r.bit k i) :
    (k = .data → r.direction = .output) ∧ (k = .pur ∨ k = .pdr → r.direction = .input) := by
  simp only [configPlan, List.mem_cons, List.mem_append] at he
  rcases he with rfl | (hdata | hres) | hfun
  · obtain ⟨rfl, _⟩ := h
    simp
  · split at hdata
    · next hd =>
      obtain rfl := List.mem_singleton.1 hdata
      obtain ⟨rfl, _⟩ := h
      simp [hd]
    · cases hdata
  · split at hres
    · next hd => rcases resistorPlan_reaches hres h with rfl | rfl <;> simp [hd]
    · cases hres
  · rcases functionPlan_reaches hfun h with rfl | rfl | rfl | rfl <;> simp

theorem initPlan_reaches (he : e ∈ initPlan par r) (h : e.Reaches r.bit k i) : r.Reaches par k i := by
  have hpin := h.pin (initPlan_ok par r e he)
  cases hres : par.isReserved r.p r.bit with
  | true =>
    rw [initPlan_of_reserved hres] at he
    cases he
  | false =>
    rw [initPlan_of_free hres] at he
    rcases List.mem_append.1 he with he | he
    · split at he
      · next hp =>
        obtain rfl := List.mem_singleton.1 he
        refine ⟨hres, hpin, fun _ => hp, ?_, ?_⟩ <;> rcases h with rfl | ⟨rfl, _⟩ <;> simp
      · cases he
    · obtain ⟨hout, hin⟩ := configPlan_reaches he h
      obtain ⟨hok, hne⟩ := configPlan_isConfig r e he
      refine ⟨hres, hpin, fun hk => ?_, hout, hin⟩
      cases e with
      | put k' v => obtain ⟨rfl, _⟩ := h; rcases hk with rfl | rfl <;> cases hok
      | nibble c => obtain ⟨rfl, _⟩ := h; rcases hk with hk | hk <;> cases hk
      | unlock => exact absurd rfl hne

/-- A stored bit that no record of the port reaches. -/
theorem passPort_bit {q : Nat} {rs : List PinRecord} (hi : i < 32) (h : ∀ r ∈ rs, r.p = q → ¬r.Reaches par k i)
    (x : PortRegs) : ((passPort par (initPlan par) rs q x).stored k).getLsbD i = (x.stored k).getLsbD i := by
  have hplan : ∀ r ∈ rs, r.p = q → ∀ es, es ⊆ initPlan par r → ∀ x : PortRegs,
      ((applyPlan par r.bit es x).stored k).getLsbD i = (x.stored k).getLsbD i := by
    intro r hr hq es hes x
    induction es generalizing x with
    | nil => rfl
    | cons e es ih =>
      obtain ⟨he, hes⟩ := List.cons_subset.1 hes
      exact (ih hes (e.apply par r.bit x)).trans
        (e.apply_bit (initPlan_ok par r e he) hi (fun hreach => h r hr hq (initPlan_reaches he hreach)) x)
  induction rs generalizing x with
  | nil => rfl
  | cons r rs ih =>
    obtain ⟨hr, hrs⟩ := List.forall_mem_cons.1 hplan
    rw [passPort_cons, ih (fun r hr => h r (List.mem_cons_of_mem _ hr)) _ hrs]
    unfold onPort
    split
    · next hq => exact hr hq _ (List.Subset.refl _) x
    · rfl

end

/-- A stored bit that no record of the port reaches is as before after an `INIT`, whatever way it ended. -/
theorem exec_init_bit {h : Word} {s t : State} {rs : List PinRecord} (hexec : exec (.init h) s = .next t)
    (htable : tableAt s.par s.nports h = .ok rs) {q : Nat} {k : Kind} {i : Nat} (hi : i < 32)
    (hno : ∀ r ∈ rs, r.p = q → ¬r.Reaches s.par k i) :
    ((t.port q).stored k).getLsbD i = ((s.port q).stored k).getLsbD i := by
  obtain ⟨ks, ps, _, hps, ht⟩ := exec_init_passed hexec htable
  rw [State.port, ht.ports]
  change (((s.passed ks ps).port q).stored k).getLsbD i = _
  rcases Nat.lt_or_ge q s.nports with hq | hq
  · rw [State.passed, State.port_remake hq]
    exact passPort_bit hi (fun r hr => hno r (hps hr)) _
  · rw [State.port_of_ge hq, State.port_of_ge]
    rwa [State.passed, State.remake_nports]

/-- The same of a pin's bit, which records of other pins do not reach. -/
theorem exec_init_pinBit {h : Word} {s t : State} {rs : List PinRecord} (hexec : exec (.init h) s = .next t)
    (htable : tableAt s.par s.nports h = .ok rs) {q : Nat} {b : Bit} {k : Kind} {i : Nat} (hk : k ≠ .lock)
    (hi : i < 32) (hpin : bitPin k i = b.val)
    (hno : ∀ r ∈ rs, (r.p, r.bit) = (q, b) → ¬r.Reaches s.par k i) :
    ((t.port q).stored k).getLsbD i = ((s.port q).stored k).getLsbD i := by
  refine exec_init_bit hexec htable hi fun r hr hq hreach => hno r hr ?_ hreach
  rw [hq, Fin.ext (hpin.symm.trans (hreach.pin hk))]

theorem bit_of_setWidth {x y : Byte} {b : Bit}
    (h : (x.setWidth 32 : Word).getLsbD b.val = (y.setWidth 32 : Word).getLsbD b.val) :
    x.getLsbD b.val = y.getLsbD b.val := by
  rwa [setWidth_bit, setWidth_bit] at h

/-- The clock bits no record names (R164). -/
theorem clkenAfter_bit_of_not_mem {rs : List PinRecord} {q : Nat} (h : ∀ r ∈ rs, r.p ≠ q) (w : Word) :
    (clkenAfter rs w).getLsbD q = w.getLsbD q := by
  rcases Nat.lt_or_ge q 32 with hq | hq
  · rw [clkenAfter_bit rs w hq, List.any_eq_false.2 fun r hr => by simpa using (h r hr).symm, Bool.or_false]
  · rw [BitVec.getLsbD_of_ge _ _ hq, BitVec.getLsbD_of_ge _ _ hq]

end Sys2Proof.Machine

namespace Sys2Proof

open Machine

/-- Settles O47: each item is a bit that no operation of the table's records reaches. -/
theorem initLeavesOtherPinsAlone : Obligations.InitLeavesOtherPinsAlone := by
  intro s t h rs hexec htable
  obtain ⟨ks, ps, hks, _, ht⟩ := exec_init_passed hexec htable
  have hbyte {q : Nat} {b : Bit} {k : Kind} (hk : k ≠ .lock) (hpin : bitPin k b.val = b.val) :=
    exec_init_pinBit hexec htable (q := q) hk (by omega) hpin
  refine ⟨fun q b hno => ?_, fun q b hno => ?_, fun q b hno => ?_, fun q hno => ?_, fun q hno => ?_,
    fun q b hno => ?_, ht.others, ht.par, ?_, ht.envReads, ht.agenda, ht.cur, ht.draws⟩
  · have hfree : ∀ k i, ∀ r ∈ rs, (r.p, r.bit) = (q, b) → ¬r.Reaches s.par k i := by
      rintro k i r hr ⟨⟩ hreach
      exact nomatch (hno r hr rfl).symm.trans hreach.free
    refine ⟨samePinConfig_of_samePin ⟨fun k hk => ?_, ?_⟩,
      bit_of_setWidth (hbyte (k := .data) nofun rfl (hfree _ _)),
      bit_of_setWidth (hbyte (k := .commit) nofun rfl (hfree _ _))⟩
    · exact hbyte (by rintro rfl; cases hk) (bitPin_of_isConfigBit hk _) (hfree k _)
    · refine BitVec.eq_of_getLsbD_eq fun i hi => ?_
      have hpin : bitPin .muxsel (4 * b.val + i) = b.val := by
        rw [bitPin]
        omega
      have hnibble := exec_init_pinBit hexec htable (q := q) (k := .muxsel) nofun (by omega) hpin (hfree _ _)
      rw [BitVec.getLsbD_extractLsb', BitVec.getLsbD_extractLsb']
      exact congrArg (decide (i < 4) && ·) hnibble
  · have hinput : ∀ k, k = .pur ∨ k = .pdr → ∀ r ∈ rs, (r.p, r.bit) = (q, b) → ¬r.Reaches s.par k b.val :=
      fun k hk r hr hpin hreach => nomatch (hno r hr hpin).symm.trans (hreach.input hk)
    exact ⟨bit_of_setWidth (hbyte (k := .pur) nofun rfl (hinput _ (.inl rfl))),
      bit_of_setWidth (hbyte (k := .pdr) nofun rfl (hinput _ (.inr rfl)))⟩
  · exact bit_of_setWidth (hbyte (k := .data) nofun rfl fun r hr hpin hreach =>
      nomatch (hno r hr hpin).symm.trans (hreach.output rfl))
  · rw [ht.clken]
    exact clkenAfter_bit_of_not_mem (fun r hr => hno r (hks hr)) s.clken
  · have hlock : ∀ x : PortRegs, (x.stored .lock).getLsbD 0 = x.locked := fun x => levelWord_bit x.locked
    rw [← hlock, ← hlock]
    refine exec_init_bit hexec htable (by omega) fun r hr hq hreach => ?_
    subst hq
    exact nomatch (hno r hr rfl (hreach.unlock (.inl rfl))).symm.trans hreach.free
  · refine bit_of_setWidth (hbyte (k := .commit) nofun rfl ?_)
    rintro r _ ⟨⟩ hreach
    exact nomatch hno.symm.trans (hreach.unlock (.inr rfl))
  · rw [State.nports, ht.ports]
    exact State.remake_nports ..

end Sys2Proof
